-- ==== Sys2Proof/Word.lean ====
section
/-! DEFINITION. The word and byte types of the PC32 core (spec 00_scope R7). -/

namespace Sys2Proof

/-- A `Word32` of the spec (R7): the type of a general register, of `pc`, of `sp` and of a four-byte operand. -/
abbrev Word := BitVec 32

/-- The addressable unit of memory (R7, R40). -/
abbrev Byte := BitVec 8

/-- The index of a general register: only 0 to 15 name one (R21, R22). -/
abbrev Reg := Fin 16

end Sys2Proof
end

