-- ==== Sys2Proof/Syntax.lean ====
section
/-! DEFINITION. The syntax of the PC32 instruction set (spec 30_encoding R60 to R73): the 47 mnemonics, the seven formats
and the instructions, one constructor for each row of spec/opcode_table.json. -/

namespace Sys2Proof

/-- The 47 mnemonics, in the order of R66. -/
inductive Mnemonic where
  | nop | halt | add | sub | mul | mulu | div | divu
  | and | or | xor | addi | subi | muli | divi | andi
  | ori | xori | neg | not | cmp | cmpi | beq | bne
  | bge | bgeu | bgt | bgtu | ble | bleu | blt | bltu
  | ld | lda | ldi | ldr | stb | sta | push | pop
  | jmp | jmpa | jsr | jsra | ret | rnd | int
deriving DecidableEq, Repr

/-- Every mnemonic, in the order of R66. -/
def Mnemonic.all : List Mnemonic :=
  [.nop, .halt, .add, .sub, .mul, .mulu, .div, .divu, .and, .or, .xor, .addi] ++
  [.subi, .muli, .divi, .andi, .ori, .xori, .neg, .not, .cmp, .cmpi, .beq, .bne] ++
  [.bge, .bgeu, .bgt, .bgtu, .ble, .bleu, .blt, .bltu, .ld, .lda, .ldi, .ldr] ++
  [.stb, .sta, .push, .pop, .jmp, .jmpa, .jsr, .jsra, .ret, .rnd, .int]

/-- The seven formats of R61. -/
inductive Format where
  /-- opcode -/
  | Z
  /-- opcode, `r1` -/
  | R
  /-- opcode, `r1`, `r2` -/
  | RR
  /-- opcode, `r1`, four-byte immediate or absolute address -/
  | RI
  /-- opcode, four-byte absolute address -/
  | A
  /-- opcode, `r1`, byte `bound` -/
  | RB
  /-- opcode, byte `id` -/
  | B
deriving DecidableEq, Repr

/-- The length in bytes of an instruction of a format (R61). -/
def Format.length : Format → Nat
  | .Z => 1
  | .R => 2
  | .RR => 3
  | .RI => 6
  | .A => 5
  | .RB => 3
  | .B => 2

/-- The positions at which an instruction of a format has a register byte (R61, R63). -/
def Format.registerPositions : Format → List Nat
  | .Z => []
  | .R => [1]
  | .RR => [1, 2]
  | .RI => [1]
  | .A => []
  | .RB => [1]
  | .B => []

/-- The format of each mnemonic (R61, R66). -/
def Mnemonic.format : Mnemonic → Format
  | .nop | .halt | .ret => .Z
  | .neg | .not | .push | .pop | .jmp | .jsr => .R
  | .add | .sub | .mul | .mulu | .div | .divu | .and | .or => .RR
  | .xor | .cmp | .ldr | .stb => .RR
  | .addi | .subi | .muli | .divi | .andi | .ori | .xori | .cmpi => .RI
  | .ld | .lda | .ldi | .sta => .RI
  | .beq | .bne | .bge | .bgeu | .bgt | .bgtu | .ble | .bleu => .A
  | .blt | .bltu | .jmpa | .jsra => .A
  | .rnd => .RB
  | .int => .B

/-- An instruction, decoded: one constructor for each of the 47 rows of the opcode table. A register operand is one of
the sixteen indices; a register byte above 15 is no instruction but raises `InvalidRegister` (R63, R69). -/
inductive Instr where
  | nop
  | halt
  | add (r1 r2 : Reg)
  | sub (r1 r2 : Reg)
  | mul (r1 r2 : Reg)
  | mulu (r1 r2 : Reg)
  | div (r1 r2 : Reg)
  | divu (r1 r2 : Reg)
  | and (r1 r2 : Reg)
  | or (r1 r2 : Reg)
  | xor (r1 r2 : Reg)
  | addi (r1 : Reg) (imm : Word)
  | subi (r1 : Reg) (imm : Word)
  | muli (r1 : Reg) (imm : Word)
  | divi (r1 : Reg) (imm : Word)
  | andi (r1 : Reg) (imm : Word)
  | ori (r1 : Reg) (imm : Word)
  | xori (r1 : Reg) (imm : Word)
  | neg (r1 : Reg)
  | not (r1 : Reg)
  | cmp (r1 r2 : Reg)
  | cmpi (r1 : Reg) (imm : Word)
  | beq (addr : Word)
  | bne (addr : Word)
  | bge (addr : Word)
  | bgeu (addr : Word)
  | bgt (addr : Word)
  | bgtu (addr : Word)
  | ble (addr : Word)
  | bleu (addr : Word)
  | blt (addr : Word)
  | bltu (addr : Word)
  | ld (r1 : Reg) (addr : Word)
  | lda (r1 : Reg) (addr : Word)
  | ldi (r1 : Reg) (imm : Word)
  | ldr (r1 r2 : Reg)
  | stb (r1 r2 : Reg)
  | sta (r1 : Reg) (addr : Word)
  | push (r1 : Reg)
  | pop (r1 : Reg)
  | jmp (r1 : Reg)
  | jmpa (addr : Word)
  | jsr (r1 : Reg)
  | jsra (addr : Word)
  | ret
  | rnd (r1 : Reg) (bound : Byte)
  | int (id : Byte)
deriving DecidableEq, Repr

/-- The mnemonic of an instruction. -/
def Instr.mnemonic : Instr → Mnemonic
  | .nop => .nop
  | .halt => .halt
  | .add _ _ => .add
  | .sub _ _ => .sub
  | .mul _ _ => .mul
  | .mulu _ _ => .mulu
  | .div _ _ => .div
  | .divu _ _ => .divu
  | .and _ _ => .and
  | .or _ _ => .or
  | .xor _ _ => .xor
  | .addi _ _ => .addi
  | .subi _ _ => .subi
  | .muli _ _ => .muli
  | .divi _ _ => .divi
  | .andi _ _ => .andi
  | .ori _ _ => .ori
  | .xori _ _ => .xori
  | .neg _ => .neg
  | .not _ => .not
  | .cmp _ _ => .cmp
  | .cmpi _ _ => .cmpi
  | .beq _ => .beq
  | .bne _ => .bne
  | .bge _ => .bge
  | .bgeu _ => .bgeu
  | .bgt _ => .bgt
  | .bgtu _ => .bgtu
  | .ble _ => .ble
  | .bleu _ => .bleu
  | .blt _ => .blt
  | .bltu _ => .bltu
  | .ld _ _ => .ld
  | .lda _ _ => .lda
  | .ldi _ _ => .ldi
  | .ldr _ _ => .ldr
  | .stb _ _ => .stb
  | .sta _ _ => .sta
  | .push _ => .push
  | .pop _ => .pop
  | .jmp _ => .jmp
  | .jmpa _ => .jmpa
  | .jsr _ => .jsr
  | .jsra _ => .jsra
  | .ret => .ret
  | .rnd _ _ => .rnd
  | .int _ => .int

end Sys2Proof
end

