-- ==== Sys2Proof/Config.lean ====
section
/-! DEFINITION. The configuration: what an implementation fixes, one constant for each parameter of spec 00_scope R6, and
the free values: uninterpreted constants, one for each thing the spec leaves to the environment or calls unspecified.
Nothing can be proved of the value of a constant without a body. `SPEED`, which a host command sets, is a field of
`Machine.Block`; `cyclesPerFrame` is `Machine.cyclesPerFrame`. -/

namespace Sys2Proof.Config

/-- `XLEN` (R6): the width of `Word`. -/
def xlen : Nat := 32

/-- `NREG` (R6): how many general registers there are, and the bound of `Reg`. -/
def nreg : Nat := 16

/-- `MEM_SIZE`, "2^20 in the reference sizing" (R6, D1; log 1). -/
def memSize : Nat := 0x100000

/-- A number of which nothing is known, for `videoSize` (log 2). -/
opaque videoSizeChoice : Nat

/-- `VIDEO_SIZE` is OPEN in R6, `0 <= VIDEO_SIZE <= MEM_SIZE`: every number of that range, and no other, can be its value
(D2; log 2). -/
def videoSize : Nat := min videoSizeChoice memSize

/-- `VIDEO_BASE`, the first byte of video memory (R6). -/
def videoBase : Nat := memSize - videoSize

/-- `SP_RESET` (R6, R34, D3). -/
def spReset : Word := BitVec.ofNat 32 videoBase

/-- `OPC`, with the table of R66 (D8; log 4): a model may rely on nothing of it but that it is injective. The decoder, the
encoder, the fetch, the step and the frame tick take the map as an argument. -/
def opc : Mnemonic → Byte
  | .nop => 0x00
  | .halt => 0x01
  | .add => 0x02
  | .sub => 0x03
  | .mul => 0x04
  | .mulu => 0x05
  | .div => 0x06
  | .divu => 0x07
  | .and => 0x08
  | .or => 0x09
  | .xor => 0x0A
  | .addi => 0x0B
  | .subi => 0x0C
  | .muli => 0x0D
  | .divi => 0x0E
  | .andi => 0x0F
  | .ori => 0x10
  | .xori => 0x11
  | .neg => 0x12
  | .not => 0x13
  | .cmp => 0x14
  | .cmpi => 0x15
  | .beq => 0x16
  | .bne => 0x17
  | .bge => 0x18
  | .bgeu => 0x19
  | .bgt => 0x1A
  | .bgtu => 0x1B
  | .ble => 0x1C
  | .bleu => 0x1D
  | .blt => 0x1E
  | .bltu => 0x1F
  | .ld => 0x20
  | .lda => 0x21
  | .ldi => 0x22
  | .ldr => 0x23
  | .stb => 0x24
  | .sta => 0x25
  | .push => 0x26
  | .pop => 0x27
  | .jmp => 0x28
  | .jmpa => 0x29
  | .jsr => 0x2A
  | .jsra => 0x2B
  | .ret => 0x2C
  | .rnd => 0x2D
  | .int => 0x2E

/-- What `ARITH` decides (R6, D12): division and remainder (`DivRem`, R121) and the order a compare uses (`Less` and
`Greater`, R145), as configuration functions. -/
structure Arith where
  /-- Quotient and remainder, for a divisor that is not 0. -/
  divRem : Word → Word → Word × Word
  /-- `Less(a, b)`. -/
  less : Word → Word → Bool
  /-- `Greater(a, b)`. -/
  greater : Word → Word → Bool

/-- `ARITH = unsigned` (R121, R145). -/
def Arith.unsigned : Arith :=
  { divRem := fun a b => (BitVec.ofNat 32 (a.toNat / b.toNat), BitVec.ofNat 32 (a.toNat % b.toNat))
    less := fun a b => decide (a.toNat < b.toNat)
    greater := fun a b => decide (b.toNat < a.toNat) }

/-- `ARITH`, with the spec's default (R6, D12; log 6). -/
def arith : Arith := Arith.unsigned

/-- `KBD_ID` (R6, R208, D21; log 7). -/
def kbdId : Byte := 1

/-- `CYCLE_COST` (R6, R236). -/
def cycleCost : Nat := 4

/-- `FRAME_RATE` less one: OPEN, above 0 (R6, R237; log 14). -/
opaque frameRatePred : Nat

/-- `FRAME_RATE`, a positive number the spec does not give (R237; log 14). -/
def frameRate : Nat := frameRatePred + 1

/-- The random port's `n`-th answer before it is brought into `[0, bound]` (R195; log 8). -/
opaque randomSource : Nat → Nat

/-- The input collaborator's `n`-th answer to `KeyQuery` (R222; log 9). -/
opaque keyAnswer : Nat → Option Word

/-- The four flags the host's reset leaves: unspecified (R34, R230, D23; log 3). The second argument numbers the flag. -/
opaque resetFlag : Nat → Nat → Bool

/-- Unspecified general registers of a locked machine (R202; log 10). -/
opaque lockedRegs : Nat → Vector Word 16

/-- Unspecified `pc` of a locked machine (R202; log 10). -/
opaque lockedPc : Nat → Word

/-- Unspecified `sp` of a locked machine (R202; log 10). -/
opaque lockedSp : Nat → Word

/-- Unspecified flags of a locked machine (R202; log 10). The second argument numbers the flag. -/
opaque lockedFlag : Nat → Nat → Bool

/-- Unspecified `pending` of a locked machine (R202; log 10). -/
opaque lockedPending : Nat → Option Byte

/-- Unspecified `running` of a locked machine (R202; log 10). -/
opaque lockedRunning : Nat → Bool

/-- Unspecified memory of a locked machine, as a list of bytes from address 0 (R202; log 10). -/
opaque lockedBytes : Nat → List Byte

end Sys2Proof.Config
end

