-- ==== Sys2Proof/WellFormed.lean ====
section
/-! DEFINITION. When a string of bytes is one well-formed instruction (spec 30_encoding R61, R63, R66, R69), said from the format
table and not through the decoder. A decoded `Instr` carries its well-formedness in its types: a register operand is one
of sixteen indices, and every value of the other operands is legal (R69). -/

namespace Sys2Proof.WellFormed

/-- A register byte names a register: it is at most 15 (R22, R63). -/
def registerByteOk (b : Byte) : Bool := decide (b.toNat ≤ 15)

/-- The bytes are laid out as one instruction of the mnemonic: as many as its format has (R61), with a register's index
at every register position (R63). -/
def laidOutAs (m : Mnemonic) (bytes : List Byte) : Bool :=
  bytes.length == m.format.length &&
    m.format.registerPositions.all fun p => registerByteOk (bytes.getD p 0)

/-- The bytes are exactly one instruction under an opcode map: the first byte is a mnemonic's opcode (R66, R68) and the
bytes are laid out as that mnemonic's format says. -/
def bytesOk (o : Mnemonic → Byte) (bytes : List Byte) : Bool :=
  match bytes with
  | [] => false
  | op :: _ => Mnemonic.all.any fun m => o m == op && laidOutAs m bytes

end Sys2Proof.WellFormed
end

