-- ==== Sys2Proof/Decode.lean ====
section
/-! DEFINITION. Decoding bytes to an instruction, total, rejecting by name, and the encoder (spec 30_encoding R60 to R71).
The opcode map is an argument of both, as R66 asks; `Config.opc` is the spec's own table (D8, log 4). -/

namespace Sys2Proof

/-- The mnemonic an opcode byte stands for under a map, if it is in the map's image (R67, R68). -/
def decodeOpcode (o : Mnemonic → Byte) (b : Byte) : Option Mnemonic :=
  Mnemonic.all.find? (fun m => o m == b)

/-- Why a string of bytes does not start with an instruction. -/
inductive DecodeError where
  /-- The opcode byte is outside the image of the map (R68). -/
  | unknownOpcode (op : Byte)
  /-- The byte at `position` stands for a register and is above 15 (R63, R69). -/
  | invalidRegister (position : Nat) (b : Byte)
  /-- The bytes end before the field that starts at `position`. -/
  | truncated (position : Nat)
deriving DecidableEq, Repr

/-- A register byte is the register's index itself; above 15 it names none (R63). -/
def registerOf (b : Byte) : Option Reg :=
  if h : b.toNat < 16 then some ⟨b.toNat, h⟩ else none

/-- The 32-bit value four bytes spell, the first the most significant (R64). -/
def longOf (b0 b1 b2 b3 : Byte) : Word := b0 ++ b1 ++ b2 ++ b3

/-- The byte of a register operand (R63). -/
def registerByte (r : Reg) : Byte := BitVec.ofNat 8 r.val

/-- The four bytes of an operand, most significant first (R64). -/
def longBytes (v : Word) : List Byte :=
  [v.extractLsb' 24 8, v.extractLsb' 16 8, v.extractLsb' 8 8, v.extractLsb' 0 8]

/-- Decode one register byte at a position, then go on with the bytes after it. -/
def decodeRegister (position : Nat) (bytes : List Byte)
    (k : Reg → List Byte → Except DecodeError Instr) : Except DecodeError Instr :=
  match bytes with
  | [] => .error (.truncated position)
  | b :: rest =>
    match registerOf b with
    | some r => k r rest
    | none => .error (.invalidRegister position b)

/-- Decode one byte operand that is no register (R65). -/
def decodeByte (position : Nat) (bytes : List Byte) (k : Byte → Instr) : Except DecodeError Instr :=
  match bytes with
  | [] => .error (.truncated position)
  | b :: _ => .ok (k b)

/-- Decode a four-byte operand (R64). -/
def decodeLong (position : Nat) (bytes : List Byte) (k : Word → Instr) : Except DecodeError Instr :=
  match bytes with
  | b0 :: b1 :: b2 :: b3 :: _ => .ok (k (longOf b0 b1 b2 b3))
  | _ => .error (.truncated position)

/-- Operands of format `R`. -/
def decodeR (bytes : List Byte) (mk : Reg → Instr) : Except DecodeError Instr :=
  decodeRegister 1 bytes fun r1 _ => .ok (mk r1)

/-- Operands of format `RR`, checked in order (R204). -/
def decodeRR (bytes : List Byte) (mk : Reg → Reg → Instr) : Except DecodeError Instr :=
  decodeRegister 1 bytes fun r1 rest => decodeRegister 2 rest fun r2 _ => .ok (mk r1 r2)

/-- Operands of format `RI`. -/
def decodeRI (bytes : List Byte) (mk : Reg → Word → Instr) : Except DecodeError Instr :=
  decodeRegister 1 bytes fun r1 rest => decodeLong 2 rest (mk r1)

/-- Operands of format `A`. -/
def decodeA (bytes : List Byte) (mk : Word → Instr) : Except DecodeError Instr :=
  decodeLong 1 bytes mk

/-- Operands of format `RB`: the second byte is a number, never a register (R65). -/
def decodeRB (bytes : List Byte) (mk : Reg → Byte → Instr) : Except DecodeError Instr :=
  decodeRegister 1 bytes fun r1 rest => decodeByte 2 rest (mk r1)

/-- Operands of format `B`. -/
def decodeB (bytes : List Byte) (mk : Byte → Instr) : Except DecodeError Instr :=
  decodeByte 1 bytes mk

/-- Decode the operand bytes of a mnemonic (R61, R62). -/
def decodeOperands (m : Mnemonic) (bytes : List Byte) : Except DecodeError Instr :=
  match m with
  | .nop => .ok .nop
  | .halt => .ok .halt
  | .add => decodeRR bytes .add
  | .sub => decodeRR bytes .sub
  | .mul => decodeRR bytes .mul
  | .mulu => decodeRR bytes .mulu
  | .div => decodeRR bytes .div
  | .divu => decodeRR bytes .divu
  | .and => decodeRR bytes .and
  | .or => decodeRR bytes .or
  | .xor => decodeRR bytes .xor
  | .addi => decodeRI bytes .addi
  | .subi => decodeRI bytes .subi
  | .muli => decodeRI bytes .muli
  | .divi => decodeRI bytes .divi
  | .andi => decodeRI bytes .andi
  | .ori => decodeRI bytes .ori
  | .xori => decodeRI bytes .xori
  | .neg => decodeR bytes .neg
  | .not => decodeR bytes .not
  | .cmp => decodeRR bytes .cmp
  | .cmpi => decodeRI bytes .cmpi
  | .beq => decodeA bytes .beq
  | .bne => decodeA bytes .bne
  | .bge => decodeA bytes .bge
  | .bgeu => decodeA bytes .bgeu
  | .bgt => decodeA bytes .bgt
  | .bgtu => decodeA bytes .bgtu
  | .ble => decodeA bytes .ble
  | .bleu => decodeA bytes .bleu
  | .blt => decodeA bytes .blt
  | .bltu => decodeA bytes .bltu
  | .ld => decodeRI bytes .ld
  | .lda => decodeRI bytes .lda
  | .ldi => decodeRI bytes .ldi
  | .ldr => decodeRR bytes .ldr
  | .stb => decodeRR bytes .stb
  | .sta => decodeRI bytes .sta
  | .push => decodeR bytes .push
  | .pop => decodeR bytes .pop
  | .jmp => decodeR bytes .jmp
  | .jmpa => decodeA bytes .jmpa
  | .jsr => decodeR bytes .jsr
  | .jsra => decodeA bytes .jsra
  | .ret => .ok .ret
  | .rnd => decodeRB bytes .rnd
  | .int => decodeB bytes .int

/-- Decode the instruction a string of bytes starts with, under an opcode map. The opcode byte alone decides the layout
(R60, R67); bytes after the instruction are not looked at. -/
def decodeWith (o : Mnemonic → Byte) (bytes : List Byte) : Except DecodeError Instr :=
  match bytes with
  | [] => .error (.truncated 0)
  | op :: rest =>
    match decodeOpcode o op with
    | some m => decodeOperands m rest
    | none => .error (.unknownOpcode op)

/-- Decoding under the spec's opcode table. -/
def decode (bytes : List Byte) : Except DecodeError Instr := decodeWith Config.opc bytes

/-- The operand bytes of an instruction, in the order of R62. -/
def operandBytes : Instr → List Byte
  | .nop => []
  | .halt => []
  | .add r1 r2 => [registerByte r1, registerByte r2]
  | .sub r1 r2 => [registerByte r1, registerByte r2]
  | .mul r1 r2 => [registerByte r1, registerByte r2]
  | .mulu r1 r2 => [registerByte r1, registerByte r2]
  | .div r1 r2 => [registerByte r1, registerByte r2]
  | .divu r1 r2 => [registerByte r1, registerByte r2]
  | .and r1 r2 => [registerByte r1, registerByte r2]
  | .or r1 r2 => [registerByte r1, registerByte r2]
  | .xor r1 r2 => [registerByte r1, registerByte r2]
  | .addi r1 v => registerByte r1 :: longBytes v
  | .subi r1 v => registerByte r1 :: longBytes v
  | .muli r1 v => registerByte r1 :: longBytes v
  | .divi r1 v => registerByte r1 :: longBytes v
  | .andi r1 v => registerByte r1 :: longBytes v
  | .ori r1 v => registerByte r1 :: longBytes v
  | .xori r1 v => registerByte r1 :: longBytes v
  | .neg r1 => [registerByte r1]
  | .not r1 => [registerByte r1]
  | .cmp r1 r2 => [registerByte r1, registerByte r2]
  | .cmpi r1 v => registerByte r1 :: longBytes v
  | .beq v => longBytes v
  | .bne v => longBytes v
  | .bge v => longBytes v
  | .bgeu v => longBytes v
  | .bgt v => longBytes v
  | .bgtu v => longBytes v
  | .ble v => longBytes v
  | .bleu v => longBytes v
  | .blt v => longBytes v
  | .bltu v => longBytes v
  | .ld r1 v => registerByte r1 :: longBytes v
  | .lda r1 v => registerByte r1 :: longBytes v
  | .ldi r1 v => registerByte r1 :: longBytes v
  | .ldr r1 r2 => [registerByte r1, registerByte r2]
  | .stb r1 r2 => [registerByte r1, registerByte r2]
  | .sta r1 v => registerByte r1 :: longBytes v
  | .push r1 => [registerByte r1]
  | .pop r1 => [registerByte r1]
  | .jmp r1 => [registerByte r1]
  | .jmpa v => longBytes v
  | .jsr r1 => [registerByte r1]
  | .jsra v => longBytes v
  | .ret => []
  | .rnd r1 n => [registerByte r1, n]
  | .int n => [n]

/-- The bytes of an instruction under an opcode map: the opcode byte, then the operands (R60, R62). -/
def encodeWith (o : Mnemonic → Byte) (i : Instr) : List Byte := o i.mnemonic :: operandBytes i

/-- The bytes of an instruction under the spec's opcode table. -/
def encode (i : Instr) : List Byte := encodeWith Config.opc i

/-- The longest instruction is six bytes (R70). -/
def maxInstrBytes : Nat := 6

/-- `n` bytes of a number, the least significant first: byte `k` is bits `8k+7` to `8k`, as spec/opcode_table.json
numbers an instruction's bits (byte 0, at the lowest address, is bits 7 to 0). -/
def tableBytes : Nat → Nat → List Byte
  | 0, _ => []
  | n + 1, w => BitVec.ofNat 8 w :: tableBytes n (w / 256)

/-- The bytes of an instruction whose bits are `w`, every bit at `nbits` and above being 0. -/
def tableWordBytes (nbits w : Nat) : List Byte := tableBytes maxInstrBytes (w % 2 ^ nbits)

/-- The instruction the decoder reads from an instruction whose bits are `w`. -/
def decodeTableWord (nbits w : Nat) : Option Instr :=
  match decode (tableWordBytes nbits w) with
  | .ok i => some i
  | .error _ => none

end Sys2Proof
end

