-- ==== Sys2Proof/Machine/State.lean ====
section
/-! DEFINITION. The state of the PC32 core as plain data (spec 10_state R20 to R35), the reasons a step can stop, and the state
after reset. -/

namespace Sys2Proof.Machine

/-- A fault the machine can raise and latch (60 R201). These are the spec's own faults; raising one is a transition of the
machine (`State.raise`), not an outcome of the model. -/
inductive FaultRecord where
  /-- An access out of range; the address passed to the access. Fatal (R202). -/
  | memoryFault (addr : Word)
  /-- An opcode byte outside the opcode map, and where it was fetched. Not fatal (R203). -/
  | unknownOpcode (op : Byte) (a0 : Word)
  /-- A register byte above 15, and where it was fetched. Fatal (R204). -/
  | invalidRegister (b : Byte) (a : Word)
  /-- A zero divisor; the address of the instruction's opcode byte. Fatal (R205). -/
  | divideByZero (a0 : Word)
deriving DecidableEq, Repr

/-- The four flags (R27): `Z`, `C`, `V` and `N` of the spec. -/
structure Flags where
  zero : Bool
  carry : Bool
  overflow : Bool
  negative : Bool
deriving DecidableEq, Repr

/-- Memory as a list of cells in one canonical form (`Memory.wf`): addresses strictly rising, none at or above
`MEM_SIZE`, and no byte 0 listed, since an unlisted byte reads as 0 (R32, R34). -/
structure Memory where
  cells : List Host.Cell
deriving DecidableEq, Repr

/-- The state of the machine (R20). -/
structure State where
  /-- The sixteen general registers (R21). -/
  regs : Vector Word 16
  /-- The program counter: between two steps the address of the next opcode byte (R24). -/
  pc : Word
  /-- The stack pointer (R26). -/
  sp : Word
  /-- The flags (R27). -/
  flags : Flags
  /-- Memory (R32). -/
  mem : Memory
  /-- The pending-interrupt slot (R29). -/
  pending : Option Byte
  /-- The running flag (R30). -/
  running : Bool
  /-- The fault latch: the first fault since reset (R31). -/
  fault : Option FaultRecord
  /-- A fatal fault has been raised since reset (R202; log 11). -/
  locked : Bool
  /-- The model's own field: how many free values have been drawn (log 8). -/
  free : Nat
deriving DecidableEq, Repr

/-- Why the model's step has no next state. -/
inductive Fault where
  /-- Raised by `step` alone, on a machine that a fatal fault has locked: "In the locked state `Step` has no transition"
  (60 R202). Safe: the machine stops. -/
  | locked
deriving DecidableEq, Repr

/-- Why the model gives a command no meaning. -/
inductive Refusal where
  /-- An instruction that has no meaning yet, raised by its arm of `exec`. Safe. No instruction raises it now. -/
  | notModelled (mnemonic : String)
  /-- Raised by the host's `reset(image)` when the image is longer than memory: "not a legal command and a model gives it
  no transition" (70 R232, D29). Safe. -/
  | imageTooLong
  /-- Raised by the host's memory write at an address that is not below `MEM_SIZE` (70 R245, D30). Safe. -/
  | addressOutOfRange
deriving DecidableEq, Repr

/-- Memory with every byte at its reset content, 0 (R34). -/
def Memory.empty : Memory := ⟨[]⟩

/-- All four flags false. -/
def Flags.allFalse : Flags := ⟨false, false, false, false⟩

/-- The state after a reset that installs the given memory and leaves the given flags (R34, R230);
`free` is the model's own count. -/
def State.afterReset (mem : Memory) (flags : Flags) (free : Nat) : State :=
  { regs := Vector.replicate 16 0
    pc := 0
    sp := Config.spReset
    flags := flags
    mem := mem
    pending := none
    running := false
    fault := none
    locked := false
    free := free }

/-- The machine right after reset with no image (R34, R231). The flags are unspecified by R34:
DESIGN CHOICE false (log 3). -/
def State.reset : State := State.afterReset Memory.empty Flags.allFalse 0

end Sys2Proof.Machine
end

