-- ==== Sys2Proof/Machine/Memory.lean ====
section
/-! DEFINITION. Operations over memory (spec 20_memory R40 to R56): one byte read and written in the canonical form, and the
big-endian accesses of `n` bytes built from it. -/

namespace Sys2Proof.Machine

/-- What an address that is not listed reads as: memory is zeroed at reset (R32, R34). -/
def Memory.unlisted : Byte := 0

/-- Whether a list of cells is canonical from address `lo` up: addresses strictly rising, all below `MEM_SIZE`, and no
cell equal to what an unlisted address reads as. -/
def Memory.cellsOk (lo : Nat) : List Host.Cell → Bool
  | [] => true
  | (a, v) :: rest => decide (lo ≤ a) && decide (a < Config.memSize) && v != unlisted && cellsOk (a + 1) rest

/-- The canonical form of memory. -/
def Memory.wf (m : Memory) : Bool := Memory.cellsOk 0 m.cells

/-- The byte a list of cells has at an address. -/
def Memory.lookup (a : Nat) : List Host.Cell → Byte
  | [] => unlisted
  | (b, v) :: rest => if a = b then v else lookup a rest

/-- The byte at an address (the storage `mem[a]` of R32). -/
def Memory.get (m : Memory) (a : Nat) : Byte := Memory.lookup a m.cells

/-- The cells with one byte put in its place; a byte that equals what an unlisted address reads as is taken out. -/
def Memory.insert (a : Nat) (v : Byte) : List Host.Cell → List Host.Cell
  | [] => if v = unlisted then [] else [(a, v)]
  | (b, w) :: rest =>
    if a < b then
      if v = unlisted then (b, w) :: rest else (a, v) :: (b, w) :: rest
    else if a = b then
      if v = unlisted then rest else (a, v) :: rest
    else (b, w) :: insert a v rest

/-- The memory with one byte changed, `mem[a] <- v`. An address that does not exist has no storage to change (R41). -/
def Memory.set (m : Memory) (a : Nat) (v : Byte) : Memory :=
  if a < Config.memSize then ⟨Memory.insert a v m.cells⟩ else m

/-- The memory with consecutive bytes stored from an address up. -/
def Memory.storeBytes (m : Memory) (a : Nat) : List Byte → Memory
  | [] => m
  | b :: rest => (m.set a b).storeBytes (a + 1) rest

/-- The `n` bytes from an address up. -/
def Memory.loadBytes (m : Memory) (a : Nat) : Nat → List Byte
  | 0 => []
  | n + 1 => m.get a :: m.loadBytes (a + 1) n

/-- The unsigned value bytes spell, the first the most significant (R42, R45). -/
def beNat : List Byte → Nat
  | [] => 0
  | b :: rest => b.toNat * 256 ^ rest.length + beNat rest

/-- The low `n` bytes of a value, the most significant first; bits above are dropped (R43, R45). -/
def beBytes : Nat → Nat → List Byte
  | 0, _ => []
  | n + 1, v => BitVec.ofNat 8 (v / 256 ^ n) :: beBytes n v

/-- An access of `n` bytes at `a` is in range exactly when `a + n <= MEM_SIZE`, in unbounded integers (R41). -/
def inRange (a n : Nat) : Bool := decide (a + n ≤ Config.memSize)

/-- `MemRead(a, n)` (R42): the big-endian value, or `none` where the spec raises `MemoryFault(a)`. -/
def Memory.read (m : Memory) (a n : Nat) : Option Nat :=
  if inRange a n then some (beNat (m.loadBytes a n)) else none

/-- `MemWrite(a, n, v)` (R43): the memory after it, or `none` where the spec raises `MemoryFault(a)`; then no byte is
written. -/
def Memory.write (m : Memory) (a n v : Nat) : Option Memory :=
  if inRange a n then some (m.storeBytes a (beBytes n v)) else none

/-- The zeroed memory with an image installed from address 0 (R231). -/
def Memory.ofImage (image : List Byte) : Memory := Memory.empty.storeBytes 0 image

end Sys2Proof.Machine
end

