-- ==== Sys2Proof/Machine/Ops.lean ====
section
/-! DEFINITION. The shared operations over registers, the program counter, memory and the stack, and raising a fault, each
written from its rule (spec 10_state, 20_memory, 47_stack R182, 60_exceptions R201, R202). An operation that can end the instruction takes the rest of the
instruction as its last argument and answers the state in which the instruction ends. -/

namespace Sys2Proof.Machine

/-- The outcome of a step of this machine. -/
abbrev Result := Host.Outcome State Fault Refusal

/-- `x[i]` (R21): every index is an ordinary register. -/
def State.reg (s : State) (r : Reg) : Word := s.regs.get r

/-- `x[i] <- v` (R21). -/
def State.setReg (s : State) (r : Reg) (v : Word) : State := { s with regs := s.regs.set r.val v }

/-- `pc <- target`, verbatim: no wrap, no alignment, no range check (R24, D7). -/
def State.setPc (s : State) (target : Word) : State := { s with pc := target }

/-- `sp <- v` (R26). -/
def State.setSp (s : State) (v : Word) : State := { s with sp := v }

/-- The state with another memory (R32). -/
def State.setMem (s : State) (m : Memory) : State := { s with mem := m }

/-- `running <- b` (R30). -/
def State.setRunning (s : State) (b : Bool) : State := { s with running := b }

/-- `pending <- p` (R29). -/
def State.setPending (s : State) (p : Option Byte) : State := { s with pending := p }

/-- `adv(p, n)`: the sequential advance, which wraps to 0 exactly (R25, D6). -/
def adv (p : Word) (n : Nat) : Word :=
  if Config.memSize ≤ p.toNat + n then 0 else BitVec.ofNat 32 (p.toNat + n)

/-- `pc <- adv(pc, n)` (R25). -/
def State.advance (s : State) (n : Nat) : State := s.setPc (adv s.pc n)

/-- A fatal fault locks the machine; `UnknownOpcode` does not (R201). -/
def FaultRecord.isFatal : FaultRecord → Bool
  | .memoryFault _ => true
  | .unknownOpcode _ _ => false
  | .invalidRegister _ _ => true
  | .divideByZero _ => true

/-- The locked state (R31, R202): the latch holds a fatal fault, or one was raised while the latch already held a record
(log 11). -/
def State.isLocked (s : State) : Bool :=
  s.locked || match s.fault with
    | some f => f.isFatal
    | none => false

/-- Latch a fault: the latch takes it when empty and otherwise keeps the first one (R31, R201). -/
def State.latch (s : State) (f : FaultRecord) : State :=
  { s with fault := some (s.fault.getD f) }

/-- Lock the machine (R202): "The content of every field other than `fault` is UNSPECIFIED once the machine is locked", so
each is a free value (log 10). -/
def State.lock (s : State) : State :=
  { regs := Config.lockedRegs s.free
    pc := Config.lockedPc s.free
    sp := Config.lockedSp s.free
    flags :=
      { zero := Config.lockedFlag s.free 0
        carry := Config.lockedFlag s.free 1
        overflow := Config.lockedFlag s.free 2
        negative := Config.lockedFlag s.free 3 }
    mem := Memory.ofImage (Config.lockedBytes s.free)
    pending := Config.lockedPending s.free
    running := Config.lockedRunning s.free
    fault := s.fault
    locked := true
    free := s.free + 1 }

/-- `raise F(info)` (R201): latch the fault; a fatal one locks the machine (R202, R204, R205), `UnknownOpcode` changes
nothing else (R68, R203). The instruction ends here. -/
def State.raise (s : State) (f : FaultRecord) : State :=
  if f.isFatal then (s.latch f).lock else s.latch f

/-- `MemRead(a, 4)` as a word, then the rest of the instruction; out of range raises `MemoryFault(a)` (R42, R44). -/
def State.load4 (s : State) (a : Word) (k : Word → State) : State :=
  match s.mem.read a.toNat 4 with
  | some v => k (BitVec.ofNat 32 v)
  | none => s.raise (.memoryFault a)

/-- `MemWrite(a, n, v)`, then the rest of the instruction; out of range raises `MemoryFault(a)` (R43, R44). -/
def State.store (s : State) (a : Word) (n : Nat) (v : Nat) (k : State → State) : State :=
  match s.mem.write a.toNat n v with
  | some m => k (s.setMem m)
  | none => s.raise (.memoryFault a)

/-- `Push(v)` (R182): `sp` is decremented mod 2^32, then the store is made. -/
def State.push (s : State) (v : Word) (k : State → State) : State :=
  (s.setSp (s.sp - 4)).store (s.sp - 4) 4 v.toNat k

/-- `Pop()` (R182): the load is made, then `sp` is incremented mod 2^32. -/
def State.pop (s : State) (k : Word → State → State) : State :=
  s.load4 s.sp fun v => k v (s.setSp (s.sp + 4))

/-- A new free value: the state with one more drawn (log 8). -/
def State.draw (s : State) : State := { s with free := s.free + 1 }

end Sys2Proof.Machine
end

