-- ==== Sys2Proof/Machine/Operands.lean ====
section
/-! DEFINITION. Operand fetches of the seven formats and the arithmetic the operand forms share (spec 30_encoding R61 to R65,
41_register_arithmetic R119 to R123). A meaning starts in the state in which `pc` is the address of the opcode byte
(`a0`); the values of its operands are the decoder's, the advance of `pc` past them and the faults of the fetch are here. -/

namespace Sys2Proof.Machine

/-- The opcode byte has been fetched (R67). -/
def State.opcodeFetched (s : State) : State := s.advance 1

/-- One more register or byte operand has been fetched (`FetchReg`, `FetchByte`: R63, R65). After an advance `pc` is below
`MEM_SIZE`, so the fetch itself cannot fault; a register byte above 15 is the decoder's to report. -/
def State.byteFetched (s : State) : State := s.advance 1

/-- `FetchLong` (R64): the four bytes at `pc` are read in one access, which faults when it crosses the end of memory
(R71); then `pc` advances past them. -/
def State.longFetched (s : State) (k : State → State) : State :=
  if inRange s.pc.toNat 4 then k (s.advance 4) else s.raise (.memoryFault s.pc)

/-- All bytes of a format `R` instruction have been fetched; format `B` has the same two bytes. -/
def State.fetchedR (s : State) : State := s.opcodeFetched.byteFetched

/-- All bytes of a format `RR` instruction have been fetched; format `RB` has the same three bytes. -/
def State.fetchedRR (s : State) : State := s.opcodeFetched.byteFetched.byteFetched

/-- The bytes of a format `RI` instruction are fetched, then the rest of the instruction runs. -/
def State.fetchRI (s : State) (k : State → State) : State := s.fetchedR.longFetched k

/-- `DivRem(a, b)` for `b != 0`: the configuration's, which by default is unsigned (R121, D12; log 6). -/
def divRem (a b : Word) : Word × Word := Config.arith.divRem a b

/-- Format `RR`: `x[r1] <- x[r1] OP x[r2]`, both read before the write (41 head). -/
def registerOp (op : Word → Word → Word) (r1 r2 : Reg) (s : State) : State :=
  s.fetchedRR.setReg r1 (op (s.reg r1) (s.reg r2))

/-- Format `RI`: `x[r1] <- x[r1] OP imm` (42 head). -/
def immediateOp (op : Word → Word → Word) (r1 : Reg) (imm : Word) (s : State) : State :=
  s.fetchRI fun s' => s'.setReg r1 (op (s.reg r1) imm)

/-- Format `R`: `x[r1] <- OP x[r1]` (43 head). -/
def unaryOp (op : Word → Word) (r1 : Reg) (s : State) : State :=
  s.fetchedR.setReg r1 (op (s.reg r1))

/-- The effect of a division on a state whose operand bytes are fetched (R114, R133): a zero divisor raises
`DivideByZero(a0)` before any write (R122, R205); otherwise the quotient is written first and the remainder last, so that
`x[0]` ends with the remainder (D14; log 17). -/
def divideInto (r1 : Reg) (a b : Word) (a0 : Word) (s : State) : State :=
  if b = 0 then s.raise (.divideByZero a0)
  else (s.setReg r1 (divRem a b).1).setReg 0 (divRem a b).2

/-- The four-byte operand that stands at `pc`, as a read made after `v` was pushed at `slot` sees it: the bytes the slot
covers are the pushed ones (R188, D19; log 15). -/
def operandAfterPush (m : Memory) (pc addr slot v : Word) : Word :=
  BitVec.ofNat 32 (beNat
    (((m.storeBytes pc.toNat (beBytes 4 addr.toNat)).storeBytes slot.toNat (beBytes 4 v.toNat)).loadBytes pc.toNat 4))

end Sys2Proof.Machine
end

