-- ==== Sys2Proof/Machine/Flags.lean ====
section
/-! DEFINITION. The compare function, which is the only computation of flags there is (spec 44_compare R145), and the branch
conditions, which are the only readers (45_branches R150 to R161). -/

namespace Sys2Proof.Machine

/-- `Less(a, b)`: the configuration's, which by default is unsigned (R145, D12; log 6). -/
def less (a b : Word) : Bool := Config.arith.less a b

/-- `Greater(a, b)`: the configuration's, which by default is unsigned (R145, D12; log 6). -/
def greater (a b : Word) : Bool := Config.arith.greater a b

/-- `Compare(a, b)`: all four flags (R145). -/
def compareFlags (a b : Word) : Flags :=
  { zero := decide (a = b), carry := greater a b, overflow := false, negative := less a b }

/-- The state with its flags written. -/
def State.setFlags (s : State) (f : Flags) : State := { s with flags := f }

/-- The condition of `beq` (R151). -/
def Flags.condBeq (f : Flags) : Bool := f.zero

/-- The condition of `bne` (R152). -/
def Flags.condBne (f : Flags) : Bool := !f.zero

/-- The condition of `bge` and `bgeu`, as the spec's table has it (R153, R161). -/
def Flags.condBge (f : Flags) : Bool := f.negative || f.zero

/-- The condition of `bgt` and `bgtu`, as the spec's table has it (R155, R161). -/
def Flags.condBgt (f : Flags) : Bool := f.negative

/-- The condition of `ble` and `bleu`: the negation applies to `N` alone (R157, R161, D16; log 19). -/
def Flags.condBle (f : Flags) : Bool := !f.negative || f.zero

/-- The condition of `blt` and `bltu` (R159, R161). -/
def Flags.condBlt (f : Flags) : Bool := f.negative

/-- `Branch(cond)` (R150): the operand is read, and can fault, only when the branch is taken; otherwise `pc` advances past
it unread (D17; log 16). -/
def branch (cond : Bool) (addr : Word) (s : State) : State :=
  if cond then s.opcodeFetched.longFetched fun s' => s'.setPc addr
  else s.opcodeFetched.advance 4

end Sys2Proof.Machine
end

