-- ==== Sys2Proof/Machine/Branches.lean ====
section
/-! DEFINITION. The meanings of the ten conditional branches (spec 45_branches). -/

namespace Sys2Proof.Machine

/-- `beq addr` (R151). -/
def execBeq (addr : Word) (s : State) : Result := .next (branch s.flags.condBeq addr s)

/-- `bne addr` (R152). -/
def execBne (addr : Word) (s : State) : Result := .next (branch s.flags.condBne addr s)

/-- `bge addr` (R153). -/
def execBge (addr : Word) (s : State) : Result := .next (branch s.flags.condBge addr s)

/-- `bgeu addr` (R154). -/
def execBgeu (addr : Word) (s : State) : Result := .next (branch s.flags.condBge addr s)

/-- `bgt addr` (R155). -/
def execBgt (addr : Word) (s : State) : Result := .next (branch s.flags.condBgt addr s)

/-- `bgtu addr` (R156). -/
def execBgtu (addr : Word) (s : State) : Result := .next (branch s.flags.condBgt addr s)

/-- `ble addr` (R157). -/
def execBle (addr : Word) (s : State) : Result := .next (branch s.flags.condBle addr s)

/-- `bleu addr` (R158). -/
def execBleu (addr : Word) (s : State) : Result := .next (branch s.flags.condBle addr s)

/-- `blt addr` (R159). -/
def execBlt (addr : Word) (s : State) : Result := .next (branch s.flags.condBlt addr s)

/-- `bltu addr` (R160). -/
def execBltu (addr : Word) (s : State) : Result := .next (branch s.flags.condBlt addr s)

end Sys2Proof.Machine
end

