-- ==== Sys2Proof/Machine/Compare.lean ====
section
/-! DEFINITION. The meanings of `cmp` and `cmpi` (spec 44_compare). -/

namespace Sys2Proof.Machine

/-- `cmp r1, r2`: left operand `x[r1]`, right operand `x[r2]` (R146). -/
def execCmp (r1 r2 : Reg) (s : State) : Result := .next (s.fetchedRR.setFlags (compareFlags (s.reg r1) (s.reg r2)))

/-- `cmpi r1, imm`: left operand `x[r1]`, right operand `imm` (R147). -/
def execCmpi (r1 : Reg) (imm : Word) (s : State) : Result :=
  .next (s.fetchRI fun s' => s'.setFlags (compareFlags (s.reg r1) imm))

end Sys2Proof.Machine
end

