-- ==== Sys2Proof/Machine/ControlTransfer.lean ====
section
/-! DEFINITION. The meanings of the jumps, the calls and the return (spec 48_control_transfer). -/

namespace Sys2Proof.Machine

/-- `jmp r1`: `pc <- mem32[x[r1]]`; the register holds the address of a pointer cell (R185). -/
def execJmp (r1 : Reg) (s : State) : Result :=
  .next (s.fetchedR.load4 (s.reg r1) fun target => s.fetchedR.setPc target)

/-- `jmpa addr`: `pc <- addr` (R186). -/
def execJmpa (addr : Word) (s : State) : Result := .next (s.opcodeFetched.longFetched fun s' => s'.setPc addr)

/-- `jsr r1`: push the address of the next instruction, then `pc <- mem32[x[r1]]`, read after the push (R187, D19). -/
def execJsr (r1 : Reg) (s : State) : Result :=
  .next (s.fetchedR.push s.fetchedR.pc fun s' => s'.load4 (s.reg r1) fun target => s'.setPc target)

/-- `jsra addr`: push the address of the next instruction, then `pc` takes the operand, read after the push (R188, D19;
log 15). -/
def execJsra (addr : Word) (s : State) : Result :=
  .next (s.opcodeFetched.push (adv s.opcodeFetched.pc 4) fun s' =>
    s'.longFetched fun s2 =>
      s2.setPc (operandAfterPush s.mem s.opcodeFetched.pc addr (s.sp - 4) (adv s.opcodeFetched.pc 4)))

/-- `ret`: `pc <- Pop()` (R189). -/
def execRet (s : State) : Result := .next (s.opcodeFetched.pop fun target s' => s'.setPc target)

end Sys2Proof.Machine
end

