-- ==== Sys2Proof/Machine/ImmediateArithmetic.lean ====
section
/-! DEFINITION. The meanings of the register-immediate arithmetic and logic instructions (spec 42_immediate_arithmetic). -/

namespace Sys2Proof.Machine

/-- `addi r1, imm` (R130). -/
def execAddi (r1 : Reg) (imm : Word) (s : State) : Result := .next (immediateOp (· + ·) r1 imm s)

/-- `subi r1, imm` (R131). -/
def execSubi (r1 : Reg) (imm : Word) (s : State) : Result := .next (immediateOp (· - ·) r1 imm s)

/-- `muli r1, imm`: the low 32 bits of the product (R132). -/
def execMuli (r1 : Reg) (imm : Word) (s : State) : Result := .next (immediateOp (· * ·) r1 imm s)

/-- `divi r1, imm`: quotient to `x[r1]`, remainder to `x[0]` (R133). -/
def execDivi (r1 : Reg) (imm : Word) (s : State) : Result :=
  .next (s.fetchRI fun s' => divideInto r1 (s.reg r1) imm s.pc s')

/-- `andi r1, imm` (R134). -/
def execAndi (r1 : Reg) (imm : Word) (s : State) : Result := .next (immediateOp (· &&& ·) r1 imm s)

/-- `ori r1, imm` (R135). -/
def execOri (r1 : Reg) (imm : Word) (s : State) : Result := .next (immediateOp (· ||| ·) r1 imm s)

/-- `xori r1, imm` (R136). -/
def execXori (r1 : Reg) (imm : Word) (s : State) : Result := .next (immediateOp (· ^^^ ·) r1 imm s)

end Sys2Proof.Machine
end

