-- ==== Sys2Proof/Machine/LoadsStores.lean ====
section
/-! DEFINITION. The meanings of the loads and stores (spec 46_loads_stores). -/

namespace Sys2Proof.Machine

/-- `ld r1, addr`: `x[r1] <- mem32[addr]` (R170). -/
def execLd (r1 : Reg) (addr : Word) (s : State) : Result :=
  .next (s.fetchRI fun s' => s'.load4 addr fun v => s'.setReg r1 v)

/-- `lda r1, addr`: `x[r1] <- mem32[mem32[addr]]` (R171). -/
def execLda (r1 : Reg) (addr : Word) (s : State) : Result :=
  .next (s.fetchRI fun s' => s'.load4 addr fun p => s'.load4 p fun v => s'.setReg r1 v)

/-- `ldi r1, imm`: `x[r1] <- imm` (R172). -/
def execLdi (r1 : Reg) (imm : Word) (s : State) : Result := .next (s.fetchRI fun s' => s'.setReg r1 imm)

/-- `ldr r1, r2`: `x[r1] <- mem32[x[r2]]` (R173). -/
def execLdr (r1 r2 : Reg) (s : State) : Result :=
  .next (s.fetchedRR.load4 (s.reg r2) fun v => s.fetchedRR.setReg r1 v)

/-- `stb r1, r2`: `mem8[x[r2]] <- x[r1][7:0]`, data register first, address register second (R174). -/
def execStb (r1 r2 : Reg) (s : State) : Result := .next (s.fetchedRR.store (s.reg r2) 1 (s.reg r1).toNat id)

/-- `sta r1, addr`: `mem32[addr] <- x[r1]` (R175). -/
def execSta (r1 : Reg) (addr : Word) (s : State) : Result :=
  .next (s.fetchRI fun s' => s'.store addr 4 (s.reg r1).toNat id)

end Sys2Proof.Machine
end

