-- ==== Sys2Proof/Machine/NopHalt.lean ====
section
/-! DEFINITION. The meanings of `nop` and `halt` (spec 40_nop_halt). -/

namespace Sys2Proof.Machine

/-- `nop`: nothing beyond the advance past the opcode byte (R100). -/
def execNop (s : State) : Result := .next s.opcodeFetched

/-- `halt`: `running <- false` (R101). -/
def execHalt (s : State) : Result := .next (s.opcodeFetched.setRunning false)

end Sys2Proof.Machine
end

