-- ==== Sys2Proof/Machine/RandomInterrupt.lean ====
section
/-! DEFINITION. The meanings of `rnd` and `int` (spec 49_random_interrupt). -/

namespace Sys2Proof.Machine

/-- `RandomDraw(bound)`: a free value in `[0, bound]` (R195, D20; log 8). -/
def randomDraw (draw : Nat) (bound : Byte) : Word := BitVec.ofNat 32 (draw % (bound.toNat + 1))

/-- `rnd r1, bound`: `x[r1] <- RandomDraw(bound)`, the bound being the byte itself (R195). -/
def execRnd (r1 : Reg) (bound : Byte) (s : State) : Result :=
  .next (s.fetchedRR.draw.setReg r1 (randomDraw (Config.randomSource s.free) bound))

/-- `int id`: `pending <- some(id)` and nothing else; the interrupt controller does the rest (R196, D21, D34). -/
def execInt (id : Byte) (s : State) : Result := .next (s.fetchedR.setPending (some id))

end Sys2Proof.Machine
end

