-- ==== Sys2Proof/Machine/RegisterArithmetic.lean ====
section
/-! DEFINITION. The meanings of the register-register arithmetic and logic instructions (spec 41_register_arithmetic). -/

namespace Sys2Proof.Machine

/-- `add r1, r2`: `x[r1] <- (x[r1] + x[r2]) mod 2^32` (R110, R119). -/
def execAdd (r1 r2 : Reg) (s : State) : Result := .next (registerOp (· + ·) r1 r2 s)

/-- `sub r1, r2`: `x[r1] <- (x[r1] - x[r2]) mod 2^32` (R111, R119). -/
def execSub (r1 r2 : Reg) (s : State) : Result := .next (registerOp (· - ·) r1 r2 s)

/-- `mul r1, r2`: the low 32 bits of the product (R112, R120). -/
def execMul (r1 r2 : Reg) (s : State) : Result := .next (registerOp (· * ·) r1 r2 s)

/-- `mulu r1, r2`: as `mul`, bit for bit (R113, R120). -/
def execMulu (r1 r2 : Reg) (s : State) : Result := .next (registerOp (· * ·) r1 r2 s)

/-- `div r1, r2`: quotient to `x[r1]`, remainder to `x[0]` (R114, R121, R122). -/
def execDiv (r1 r2 : Reg) (s : State) : Result := .next (divideInto r1 (s.reg r1) (s.reg r2) s.pc s.fetchedRR)

/-- `divu r1, r2`: as `div`, bit for bit (R115). -/
def execDivu (r1 r2 : Reg) (s : State) : Result := .next (divideInto r1 (s.reg r1) (s.reg r2) s.pc s.fetchedRR)

/-- `and r1, r2`, bitwise (R116, R123). -/
def execAnd (r1 r2 : Reg) (s : State) : Result := .next (registerOp (· &&& ·) r1 r2 s)

/-- `or r1, r2`, bitwise (R117, R123). -/
def execOr (r1 r2 : Reg) (s : State) : Result := .next (registerOp (· ||| ·) r1 r2 s)

/-- `xor r1, r2`, bitwise (R118, R123). -/
def execXor (r1 r2 : Reg) (s : State) : Result := .next (registerOp (· ^^^ ·) r1 r2 s)

end Sys2Proof.Machine
end

