-- ==== Sys2Proof/Machine/Stack.lean ====
section
/-! DEFINITION. The meanings of `push` and `pop` (spec 47_stack). -/

namespace Sys2Proof.Machine

/-- `push r1` (R180). -/
def execPush (r1 : Reg) (s : State) : Result := .next (s.fetchedR.push (s.reg r1) id)

/-- `pop r1` (R181). -/
def execPop (r1 : Reg) (s : State) : Result := .next (s.fetchedR.pop fun v s' => s'.setReg r1 v)

end Sys2Proof.Machine
end

