-- ==== Sys2Proof/Machine/Unary.lean ====
section
/-! DEFINITION. The meanings of `neg` and `not` (spec 43_unary). -/

namespace Sys2Proof.Machine

/-- `neg r1`: two's-complement negation (R140). -/
def execNeg (r1 : Reg) (s : State) : Result := .next (unaryOp (fun v => 0 - v) r1 s)

/-- `not r1`: `x[r1] XOR 0xFFFFFFFF` (R141). -/
def execNot (r1 : Reg) (s : State) : Result := .next (unaryOp (fun v => v ^^^ 0xFFFFFFFF) r1 s)

end Sys2Proof.Machine
end

