-- ==== Sys2Proof/Machine/Dispatch.lean ====
section
/-! DEFINITION. The meaning of every instruction, one arm for each constructor. A meaning starts with `pc` at the opcode byte. -/

namespace Sys2Proof.Machine

-- The whole effect of one instruction (spec 00_scope R9), its fetch advances included.
def exec (i : Instr) (s : State) : Host.Outcome State Fault Refusal :=
  match i with
  | .nop => Sys2Proof.Machine.execNop s
  | .halt => Sys2Proof.Machine.execHalt s
  | .add r1 r2 => Sys2Proof.Machine.execAdd r1 r2 s
  | .sub r1 r2 => Sys2Proof.Machine.execSub r1 r2 s
  | .mul r1 r2 => Sys2Proof.Machine.execMul r1 r2 s
  | .mulu r1 r2 => Sys2Proof.Machine.execMulu r1 r2 s
  | .div r1 r2 => Sys2Proof.Machine.execDiv r1 r2 s
  | .divu r1 r2 => Sys2Proof.Machine.execDivu r1 r2 s
  | .and r1 r2 => Sys2Proof.Machine.execAnd r1 r2 s
  | .or r1 r2 => Sys2Proof.Machine.execOr r1 r2 s
  | .xor r1 r2 => Sys2Proof.Machine.execXor r1 r2 s
  | .addi r1 imm => Sys2Proof.Machine.execAddi r1 imm s
  | .subi r1 imm => Sys2Proof.Machine.execSubi r1 imm s
  | .muli r1 imm => Sys2Proof.Machine.execMuli r1 imm s
  | .divi r1 imm => Sys2Proof.Machine.execDivi r1 imm s
  | .andi r1 imm => Sys2Proof.Machine.execAndi r1 imm s
  | .ori r1 imm => Sys2Proof.Machine.execOri r1 imm s
  | .xori r1 imm => Sys2Proof.Machine.execXori r1 imm s
  | .neg r1 => Sys2Proof.Machine.execNeg r1 s
  | .not r1 => Sys2Proof.Machine.execNot r1 s
  | .cmp r1 r2 => Sys2Proof.Machine.execCmp r1 r2 s
  | .cmpi r1 imm => Sys2Proof.Machine.execCmpi r1 imm s
  | .beq addr => Sys2Proof.Machine.execBeq addr s
  | .bne addr => Sys2Proof.Machine.execBne addr s
  | .bge addr => Sys2Proof.Machine.execBge addr s
  | .bgeu addr => Sys2Proof.Machine.execBgeu addr s
  | .bgt addr => Sys2Proof.Machine.execBgt addr s
  | .bgtu addr => Sys2Proof.Machine.execBgtu addr s
  | .ble addr => Sys2Proof.Machine.execBle addr s
  | .bleu addr => Sys2Proof.Machine.execBleu addr s
  | .blt addr => Sys2Proof.Machine.execBlt addr s
  | .bltu addr => Sys2Proof.Machine.execBltu addr s
  | .ld r1 addr => Sys2Proof.Machine.execLd r1 addr s
  | .lda r1 addr => Sys2Proof.Machine.execLda r1 addr s
  | .ldi r1 imm => Sys2Proof.Machine.execLdi r1 imm s
  | .ldr r1 r2 => Sys2Proof.Machine.execLdr r1 r2 s
  | .stb r1 r2 => Sys2Proof.Machine.execStb r1 r2 s
  | .sta r1 addr => Sys2Proof.Machine.execSta r1 addr s
  | .push r1 => Sys2Proof.Machine.execPush r1 s
  | .pop r1 => Sys2Proof.Machine.execPop r1 s
  | .jmp r1 => Sys2Proof.Machine.execJmp r1 s
  | .jmpa addr => Sys2Proof.Machine.execJmpa addr s
  | .jsr r1 => Sys2Proof.Machine.execJsr r1 s
  | .jsra addr => Sys2Proof.Machine.execJsra addr s
  | .ret => Sys2Proof.Machine.execRet s
  | .rnd r1 bound => Sys2Proof.Machine.execRnd r1 bound s
  | .int id => Sys2Proof.Machine.execInt id s

end Sys2Proof.Machine
end

