-- ==== Sys2Proof/Machine/Fetch.lean ====
section
/-! DEFINITION. Fetching and decoding the next instruction (spec 30_encoding R67, R68, R71), and placing one. -/

namespace Sys2Proof.Machine

/-- The bytes the decoder is given: the opcode byte at `pc`, the next byte where the fetch advance finds it, and the five
positions after that. A single-byte field is read where `adv` leads (R25, R63); the bytes of a four-byte operand are
consecutive (R64). When such an operand crosses the end of memory, the meaning of the instruction raises the fault
before it uses the operand (R71; log 16). -/
def fetchWindow (m : Memory) (pc : Word) : List Byte :=
  m.get pc.toNat :: m.get (adv pc 1).toNat :: m.loadBytes (adv (adv pc 1) 1).toNat 4

/-- The address of the byte at a position of the instruction at `a0`, for the positions of single-byte fields (R25). -/
def fieldAddress (a0 : Word) : Nat → Word
  | 0 => a0
  | n + 1 => adv (fieldAddress a0 n) 1

/-- What decoding errors do (R206): `UnknownOpcode` leaves `pc` past the one byte and changes nothing else (R68, D11); a
register byte above 15 raises `InvalidRegister` with its address (R63, R204). The window is never too short, so the last
case does not arise in a fetch. -/
def decodeFault (e : DecodeError) (s : State) : State :=
  match e with
  | .unknownOpcode op => (s.advance 1).raise (.unknownOpcode op s.pc)
  | .invalidRegister position b => s.raise (.invalidRegister b (fieldAddress s.pc position))
  | .truncated position => s.raise (.memoryFault (fieldAddress s.pc position))

/-- Fetch and decode the instruction at `pc` under an opcode map: the instruction, or the state in which the `Step` ends
without one (R67). An opcode fetch out of range raises `MemoryFault(pc)` (R24, R44). -/
def fetch (o : Mnemonic → Byte) (s : State) : Except State Instr :=
  if inRange s.pc.toNat 1 then
    match decodeWith o (fetchWindow s.mem s.pc) with
    | .ok i => .ok i
    | .error e => .error (decodeFault e s)
  else .error (s.raise (.memoryFault s.pc))

/-- Undo a lock, as only the placing of an instruction by hand needs it. -/
def unlocked (s : State) : State := if s.isLocked then { s with locked := false, fault := none } else s

/-- A state with an instruction's bytes stored where the next fetch reads them. When they would not fit below the end of
memory from `pc` on, they go to address 0 and `pc` with them; a locked machine is unlocked (log 23). -/
def placeInstr (s : State) (bytes : List Byte) : State :=
  let at0 : Word := if inRange s.pc.toNat bytes.length then s.pc else 0
  { unlocked s with pc := at0, mem := s.mem.storeBytes at0.toNat bytes }

end Sys2Proof.Machine
end

