-- ==== Sys2Proof/Machine/Interrupt.lean ====
section
/-! DEFINITION. The interrupt controller (spec 60_exceptions R208 to R215, R222). -/

namespace Sys2Proof.Machine

/-- The interrupt id of the keyboard, the one source there is (R208, D21; log 7). -/
def keyboardId : Byte := Config.kbdId

/-- What `IntCheck` does with a pending keyboard request, given the input collaborator's answer (R210): no key stops the
machine and leaves the request pending (R209); a key goes whole into `x[0]`, sets `running` and clears the request. -/
def serviceKeyboard (answer : Option Word) (s : State) : State :=
  match answer with
  | none => s.setRunning false
  | some k => ((s.setReg 0 k).setRunning true).setPending none

/-- `IntCheck` (R210): it asks for a key only when the keyboard request is pending; with any other slot content it
changes nothing (R212). Each query has an answer of its own (R222, D22; log 9). -/
def intCheck (s : State) : State :=
  if s.pending = some keyboardId then serviceKeyboard (Config.keyAnswer s.free) s.draw else s

/-- The check that follows a `Step`: skipped when the `Step` locked the machine (R210, R235). -/
def intCheckUnlessLocked (s : State) : State := if s.isLocked then s else intCheck s

end Sys2Proof.Machine
end

