-- ==== Sys2Proof/Machine/Step.lean ====
section
/-! DEFINITION. One step of the machine: `Step` (spec 30_encoding R67), then `IntCheck` (60_exceptions R210, R211), which is the
host's `step()` (70_reset_and_hazards R241). -/

namespace Sys2Proof.Machine

/-- `Step()` under an opcode map (R66, R67): fetch, decode and run the instruction at `pc`. A locked machine has no `Step`
(R202). -/
def coreStep (o : Mnemonic → Byte) (s : State) : Host.Outcome State Fault Refusal :=
  if s.isLocked then .fault .locked
  else
    match fetch o s with
    | .ok i => exec i s
    | .error t => .next t

/-- Follow an outcome by the check the interrupt controller makes after every `Step` (R211). -/
def thenIntCheck (o : Host.Outcome State Fault Refusal) : Host.Outcome State Fault Refusal :=
  match o with
  | .next t => .next (intCheckUnlessLocked t)
  | .fault r => .fault r
  | .refused r => .refused r

/-- One step of the machine under an opcode map: `Step()`, then `IntCheck()`, whatever `running` is (R211, R241, D26;
log 12). -/
def stepWith (o : Mnemonic → Byte) (s : State) : Host.Outcome State Fault Refusal := thenIntCheck (coreStep o s)

/-- One step of the machine under the spec's opcode table. -/
def step (s : State) : Host.Outcome State Fault Refusal := stepWith Config.opc s

/-- The state with one instruction placed where the next step fetches it (log 23). -/
def State.withFetchWord (s : State) (nbits w : Nat) : State := placeInstr s (tableWordBytes nbits w)

end Sys2Proof.Machine
end

