-- ==== Sys2Proof/Machine/HostCommands.lean ====
section
/-! DEFINITION. The host's commands, the frame tick and its cycle accounting, and the reads (spec 70_reset_and_hazards R230 to
R245, 10_state R36, R37). -/

namespace Sys2Proof.Machine

/-- The cost `Step` returns (R236). -/
inductive Cost where
  /-- A number of abstract cycles. -/
  | cycles (n : Nat)
  /-- `REST`: what is left of the frame's budget. -/
  | rest
deriving DecidableEq, Repr

/-- The cost of an instruction (R236): `halt` and `int` take the rest of the frame, every other one four cycles. -/
def costOf (m : Mnemonic) : Cost :=
  if m = .halt ∨ m = .int then .rest else .cycles Config.cycleCost

/-- The cost of the `Step` a state is about to make under an opcode map: that of the instruction its opcode byte stands for,
and four cycles for an unknown opcode (R68, R236). -/
def stepCost (o : Mnemonic → Byte) (s : State) : Cost :=
  match decodeOpcode o (s.mem.get s.pc.toNat) with
  | some m => costOf m
  | none => .cycles Config.cycleCost

/-- What is left of a budget after a cost (R235, R236). The spec counts `acc` up to the budget; this counts the
difference down, and 0 says that the budget is reached or overshot. -/
def leftAfter (left : Nat) : Cost → Nat
  | .cycles n => left - n
  | .rest => 0

/-- The step loop of a frame (R235): while the machine runs, budget is left and it is not locked, a `Step` and its
`IntCheck`. Every turn uses up budget, so as many turns as there is budget are enough. -/
def frameLoop (o : Mnemonic → Byte) : Nat → Nat → State → Host.Outcome State Fault Refusal
  | 0, _, s => .next s
  | turns + 1, left, s =>
    if !s.isLocked && s.running && decide (0 < left) then
      match stepWith o s with
      | .next t => frameLoop o turns (leftAfter left (stepCost o s)) t
      | .fault r => .fault r
      | .refused r => .refused r
    else .next s

/-- `FrameTick()` with a given budget (R235): the loop, then one more `IntCheck`; a locked machine does nothing (R202). -/
def frameTick (o : Mnemonic → Byte) (budget : Nat) (s : State) : Host.Outcome State Fault Refusal :=
  thenIntCheck (frameLoop o budget budget s)

/-- `cyclesPerFrame = floor(SPEED * 1000000 / FRAME_RATE)` (R237, D33). -/
def cyclesPerFrame (speed frameRate : Nat) : Nat := speed * 1000000 / frameRate

/-- The block the host sees (R36): the core, and the parameter `SPEED` that the host sets, which is no state of the core (R6,
R20, R243; log 13). -/
structure Block where
  core : State
  speed : Nat
deriving DecidableEq, Repr

/-- The "current cycle budget" (R37, R244). -/
def Block.cycleBudget (b : Block) : Nat := cyclesPerFrame b.speed Config.frameRate

/-- The block with the core's next state, where a command on the core has one; `SPEED` stays. -/
def Block.withCore (b : Block) (out : Host.Outcome State Fault Refusal) : Host.Outcome Block Fault Refusal :=
  match out with
  | .next t => .next { b with core := t }
  | .fault r => .fault r
  | .refused r => .refused r

/-- The flags a reset by the host leaves: unspecified, so free values (R230, D23; log 3). -/
def flagsAfterReset (n : Nat) : Flags :=
  { zero := Config.resetFlag n 0
    carry := Config.resetFlag n 1
    overflow := Config.resetFlag n 2
    negative := Config.resetFlag n 3 }

/-- The commands of the host (R234). -/
inductive HostCommand where
  | reset (image : List Byte)
  | setSpeed (value : Nat)
  | setRunning (value : Bool)
  | step
  | frameTick
  | writeMemory (addr : Nat) (value : Byte)
deriving DecidableEq, Repr

/-- `reset(image)` on the core (R230 to R232): it needs nothing of the state before it, which may be locked. An image longer
than memory is refused (D29). -/
def hostReset (image : List Byte) (s : State) : Host.Outcome State Fault Refusal :=
  if image.length ≤ Config.memSize then
    .next (State.afterReset (Memory.ofImage image) (flagsAfterReset s.free) (s.free + 1))
  else .refused .imageTooLong

/-- A command that the locked state ignores (R202, R234, D35). -/
def Block.unlessLocked (b : Block) (out : Host.Outcome Block Fault Refusal) : Host.Outcome Block Fault Refusal :=
  if b.core.isLocked then .next b else out

/-- The host's memory write on the core (R245): `mem[a] <- v` for `a < MEM_SIZE`; another address is no legal command. -/
def hostWriteMemory (addr : Nat) (value : Byte) (s : State) : Host.Outcome State Fault Refusal :=
  if addr < Config.memSize then .next (s.setMem (s.mem.set addr value)) else .refused .addressOutOfRange

/-- One command of the host (R234), under an opcode map. `reset` works on a locked machine and does not change `SPEED` (R202,
R243); `setSpeed` changes nothing else (R243); `setRunning` writes `running` (R242); `step` is `Step` and `IntCheck` once
(R241); the frame tick has the budget `SPEED` gives (R235, R237). -/
def hostCommand (o : Mnemonic → Byte) (c : HostCommand) (b : Block) : Host.Outcome Block Fault Refusal :=
  match c with
  | .reset image => b.withCore (hostReset image b.core)
  | .setSpeed v => b.unlessLocked (.next { b with speed := v })
  | .setRunning r => b.unlessLocked (.next { b with core := b.core.setRunning r })
  | .step => b.unlessLocked (b.withCore (stepWith o b.core))
  | .frameTick => b.unlessLocked (b.withCore (frameTick o b.cycleBudget b.core))
  | .writeMemory a v => b.unlessLocked (b.withCore (hostWriteMemory a v b.core))

/-- The host's read of the `n` bytes at `a`; a range that leaves `[0, MEM_SIZE)` is no legal command (R37, R244). The other
reads are the fields of the block and of its core. -/
def State.readMemory (s : State) (a n : Nat) : Option (List Byte) :=
  if inRange a n then some (s.mem.loadBytes a n) else none

/-- The bytes of video memory, which an external renderer reads: plain storage (R36, R50). -/
def State.videoMemory (s : State) : List Byte := s.mem.loadBytes Config.videoBase Config.videoSize

end Sys2Proof.Machine
end

