-- ==== Sys2Proof/Safety.lean ====
section
/-! DEFINITION. The terms in which claims about the machine are made: what a state may differ in from another, what an
instruction's outcome is, the invariants, and how a run ends (spec 70_reset_and_hazards R246, R247). -/

namespace Sys2Proof.Safety

open Sys2Proof.Machine

/-- `t` has the general registers of `s`, except for those in `written`. -/
def SameRegsBut (written : List Reg) (s t : State) : Prop := ∀ r : Reg, r ∉ written → t.reg r = s.reg r

/-- Every byte of memory reads in `t` as in `s`, except for those at the `n` addresses from `a` up. -/
def SameMemoryOutside (a n : Nat) (s t : State) : Prop :=
  ∀ b : Nat, (b < a ∨ a + n ≤ b) → t.mem.get b = s.mem.get b

/-- Every byte of memory reads in `t` as in `s`. -/
def SameMemory (s t : State) : Prop := ∀ b : Nat, t.mem.get b = s.mem.get b

/-- The fields that no ordinary instruction touches: interrupt slot, running flag, fault latch, lock, and the
model's count of free values. -/
def SameControl (s t : State) : Prop :=
  t.pending = s.pending ∧ t.running = s.running ∧ t.fault = s.fault ∧ t.locked = s.locked ∧ t.free = s.free

/-- Nothing but the program counter and the general registers in `written` differs. -/
def OnlyRegs (written : List Reg) (s t : State) : Prop :=
  SameRegsBut written s t ∧ t.sp = s.sp ∧ t.flags = s.flags ∧ SameMemory s t ∧ SameControl s t

/-- Nothing but the program counter and the flags differs. -/
def OnlyFlags (s t : State) : Prop := SameRegsBut [] s t ∧ t.sp = s.sp ∧ SameMemory s t ∧ SameControl s t

/-- Nothing but the program counter and the `n` bytes of memory from `a` up differs. -/
def OnlyBytes (a n : Nat) (s t : State) : Prop :=
  SameRegsBut [] s t ∧ t.sp = s.sp ∧ t.flags = s.flags ∧ SameMemoryOutside a n s t ∧ SameControl s t

/-- Nothing but the program counter, the stack pointer and the general registers in `written` differs. -/
def OnlyRegsSp (written : List Reg) (s t : State) : Prop :=
  SameRegsBut written s t ∧ t.flags = s.flags ∧ SameMemory s t ∧ SameControl s t

/-- Nothing but the program counter, the stack pointer and the `n` bytes of memory from `a` up differs. -/
def OnlySpBytes (a n : Nat) (s t : State) : Prop :=
  SameRegsBut [] s t ∧ t.flags = s.flags ∧ SameMemoryOutside a n s t ∧ SameControl s t

/-- The address of the byte `n` single-byte fetches after `p` (R25): where `pc` is after an instruction of `n` bytes
that all lie at consecutive fetch positions. -/
def after (p : Word) : Nat → Word
  | 0 => p
  | n + 1 => adv (after p n) 1

/-- The four-byte operand that follows `n` single-byte fields can be read (R64, R71). -/
def OperandReadable (s : State) (n : Nat) : Prop := (after s.pc n).toNat + 4 ≤ Config.memSize

/-- The instruction completes, writing `value` to register `r` and nothing else but `pc`, which becomes `next`. -/
def WritesReg (i : Instr) (s : State) (r : Reg) (value : Nat) (next : Word) : Prop :=
  ∃ t, exec i s = .next t ∧ (t.reg r).toNat = value ∧ t.pc = next ∧ OnlyRegs [r] s t

/-- The instruction completes, writing nothing but `pc`, which becomes `next`. -/
def WritesPcOnly (i : Instr) (s : State) (next : Word) : Prop :=
  ∃ t, exec i s = .next t ∧ t.pc = next ∧ OnlyRegs [] s t

/-- The instruction raises the fatal fault `f`: the machine takes it and is locked, with the record in the latch unless
an earlier one is there (R201, R202). Nothing is said of the other fields. -/
def RaisesFatal (i : Instr) (s : State) (f : FaultRecord) : Prop :=
  f.isFatal = true ∧ ∃ t, exec i s = .next t ∧ t.fault = some (s.fault.getD f) ∧ t.isLocked = true

/-- The 32-bit big-endian value memory holds at an address, byte by byte (R45). -/
def long (s : State) (a : Nat) : Nat :=
  (s.mem.get a).toNat * 2 ^ 24 + (s.mem.get (a + 1)).toNat * 2 ^ 16 + (s.mem.get (a + 2)).toNat * 2 ^ 8 +
    (s.mem.get (a + 3)).toNat

/-- The bytes of an instruction stand in memory from `a` up. -/
def HoldsAt (s : State) (a : Nat) (bytes : List Byte) : Prop :=
  ∀ k, k < bytes.length → s.mem.get (a + k) = bytes.getD k 0

/-- Where the byte at position `k` of an instruction of a format is fetched when its opcode byte stands at `p`: a single-byte
field where the advance leads, which wraps at the end of memory (R25, R63), and the bytes of a four-byte operand one after
the other from the address of the first (R64, R71). -/
def fetchAddress (f : Format) (p : Word) (k : Nat) : Nat :=
  match f with
  | .Z | .R | .RR | .RB | .B => (after p k).toNat
  | .RI => if k < 2 then (after p k).toNat else (after p 2).toNat + (k - 2)
  | .A => if k < 1 then (after p k).toNat else (after p 1).toNat + (k - 1)

/-- An instruction's bytes under an opcode map stand where the next fetch reads them. -/
def NextInstr (o : Mnemonic → Byte) (s : State) (i : Instr) : Prop :=
  s.pc.toNat < Config.memSize ∧
    ∀ k, k < (encodeWith o i).length → s.mem.get (fetchAddress i.mnemonic.format s.pc k) = (encodeWith o i).getD k 0

/-- A state is reached from another by steps. -/
def Reaches (o : Mnemonic → Byte) : State → State → Prop := Relation.ReflTransGen fun s t => stepWith o s = .next t

/-- What a compare leaves: exactly one of `Z`, `C`, `N` is true, and `V` is false (R28, R145). -/
def CompareResult (f : Flags) : Prop :=
  f.overflow = false ∧
    ((f.zero = true ∧ f.carry = false ∧ f.negative = false) ∨
      (f.zero = false ∧ f.carry = true ∧ f.negative = false) ∨
      (f.zero = false ∧ f.carry = false ∧ f.negative = true))

/-- The invariant of every state: memory is in its canonical form, and a machine that has raised a fatal fault has a
record in its latch, which is never empty again before a reset. -/
def StateInv (s : State) : Prop := s.mem.wf = true ∧ (s.locked = true → s.fault.isSome = true)

/-- The stack pointer is a multiple of 4 away from its reset value, unless the machine is locked (R182). -/
def StackAligned (s : State) : Prop := s.isLocked = false → s.sp.toNat % 4 = Config.spReset.toNat % 4

/-- The run has ended (R246): the program executed `halt` and nothing is outstanding. -/
def Ended (s : State) : Prop :=
  s.running = false ∧ s.pending = none ∧ s.fault = none ∧ s.isLocked = false

/-- The machine waits for a key (R246). -/
def WaitingForKey (s : State) : Prop :=
  s.running = false ∧ s.pending = some keyboardId ∧ s.isLocked = false

/-- Ended with a request outstanding that nothing services (R246, D31). -/
def EndedWithRequest (s : State) : Prop :=
  s.running = false ∧ (∃ id, s.pending = some id ∧ id ≠ keyboardId) ∧ s.fault = none ∧ s.isLocked = false

/-- A block right after the host's reset (R230, R246). -/
def PostReset (o : Mnemonic → Byte) (b : Block) : Prop :=
  ∃ (image : List Byte) (before : Block), hostCommand o (.reset image) before = .next b

/-- The block after `k` frame ticks and no other command (R246). -/
def afterTicks (o : Mnemonic → Byte) : Nat → Block → Host.Outcome Block Fault Refusal
  | 0, b => .next b
  | k + 1, b =>
    match afterTicks o k b with
    | .next c => hostCommand o .frameTick c
    | .fault r => .fault r
    | .refused r => .refused r

/-- A run (R246): from a block right after reset, `setRunning(true)`, then frame ticks and no other command. `c` is the block
after `k` of them. The answers to the queries are the free values of Config. -/
def RunAt (o : Mnemonic → Byte) (b : Block) (k : Nat) (c : Block) : Prop :=
  PostReset o b ∧ ∃ d, hostCommand o (.setRunning true) b = .next d ∧ afterTicks o k d = .next c

/-- The fates of a run (R247). The last is the model's name for what R246 does not call an end, because a fault is latched,
and R247 leaves to the claim (log 31). -/
inductive Fate where
  /-- It ends, with nothing outstanding or with a request that nothing services (R246). -/
  | ends
  /-- It waits for ever for a key. -/
  | waitsForEver
  /-- It runs for ever. -/
  | runsForEver
  /-- It locks on a fatal fault (R202). -/
  | locks
  /-- It stops for good with `UnknownOpcode` latched (R203). -/
  | stopsWithUnknownOpcode
deriving DecidableEq, Repr

/-- The run from a block has a fate (R246, R247). -/
def HasFate (o : Mnemonic → Byte) (b : Block) : Fate → Prop
  | .ends => ∃ k c, RunAt o b k c ∧ (Ended c.core ∨ EndedWithRequest c.core)
  | .waitsForEver => ∃ k, ∀ j, k ≤ j → ∃ c, RunAt o b j c ∧ WaitingForKey c.core
  | .runsForEver => ∀ k, ∃ j c, k ≤ j ∧ RunAt o b j c ∧ c.core.running = true ∧ c.core.isLocked = false
  | .locks => ∃ k c, RunAt o b k c ∧ c.core.isLocked = true
  | .stopsWithUnknownOpcode => ∃ k c, RunAt o b k c ∧ c.core.running = false ∧ c.core.pending ≠ some keyboardId ∧
      (∃ op a, c.core.fault = some (.unknownOpcode op a)) ∧ c.core.isLocked = false

/-- The byte at an address once some bytes have been stored from another address up. -/
def storedOver (s : State) (a : Nat) (bytes : List Byte) (x : Nat) : Byte :=
  if a ≤ x ∧ x < a + bytes.length then bytes.getD (x - a) 0 else s.mem.get x

/-- Whether an instruction is a compare: the only writers of flags (R28). -/
def isCompare (i : Instr) : Bool := [Mnemonic.cmp, .cmpi].contains i.mnemonic

/-- Whether an instruction is one of the ten branches: the only readers of flags (R28). -/
def isBranch (i : Instr) : Bool :=
  [Mnemonic.beq, .bne, .bge, .bgeu, .bgt, .bgtu, .ble, .bleu, .blt, .bltu].contains i.mnemonic

/-- Whether an instruction may move the stack pointer (R26). -/
def movesStack (i : Instr) : Bool := [Mnemonic.push, .pop, .jsr, .jsra, .ret].contains i.mnemonic

/-- Whether an instruction stores to memory (46_loads_stores R174, R175; 47_stack R182). -/
def storesMemory (i : Instr) : Bool := [Mnemonic.stb, .sta, .push, .jsr, .jsra].contains i.mnemonic

/-- The registers an instruction may write: its destination, and `x[0]` for the divisions (R21, R23). -/
def writtenRegs : Instr → List Reg
  | .add r1 _ | .sub r1 _ | .mul r1 _ | .mulu r1 _ | .and r1 _ | .or r1 _ | .xor r1 _ | .addi r1 _
  | .subi r1 _ | .muli r1 _ | .andi r1 _ | .ori r1 _ | .xori r1 _ | .neg r1 | .not r1 | .ld r1 _
  | .lda r1 _ | .ldi r1 _ | .ldr r1 _ | .pop r1 | .rnd r1 _ => [r1]
  | .div r1 _ | .divu r1 _ | .divi r1 _ => [r1, 0]
  | .nop | .halt | .cmp _ _ | .cmpi _ _ | .beq _ | .bne _ | .bge _ | .bgeu _
  | .bgt _ | .bgtu _ | .ble _ | .bleu _ | .blt _ | .bltu _ | .stb _ _ | .sta _ _
  | .push _ | .jmp _ | .jmpa _ | .jsr _ | .jsra _ | .ret | .int _ => []

/-- The flags say that the condition of a branch holds, as the spec's table has it (R161); false for what is no branch. -/
def branchHolds (i : Instr) (f : Flags) : Bool :=
  match i with
  | .beq _ => f.zero
  | .bne _ => !f.zero
  | .bge _ | .bgeu _ => f.negative || f.zero
  | .ble _ | .bleu _ => !f.negative || f.zero
  | .bgt _ | .bgtu _ | .blt _ | .bltu _ => f.negative
  | .nop | .halt | .add _ _ | .sub _ _ | .mul _ _ | .mulu _ _ | .div _ _ | .divu _ _
  | .and _ _ | .or _ _ | .xor _ _ | .addi _ _ | .subi _ _ | .muli _ _ | .divi _ _ | .andi _ _
  | .ori _ _ | .xori _ _ | .neg _ | .not _ | .cmp _ _ | .cmpi _ _ | .ld _ _ | .lda _ _
  | .ldi _ _ | .ldr _ _ | .stb _ _ | .sta _ _ | .push _ | .pop _ | .jmp _ | .jmpa _
  | .jsr _ | .jsra _ | .ret | .rnd _ _ | .int _ => false

/-- The bytes an instruction stores, in the state it starts in, from the lowest address up (R174, R175, R180, R187, R188). -/
def storedValue (i : Instr) (s : State) : List Byte :=
  match i with
  | .stb r1 _ => [(s.reg r1).extractLsb' 0 8]
  | .sta r1 _ | .push r1 => longBytes (s.reg r1)
  | .jsr _ => longBytes (after s.pc 2)
  | .jsra _ => longBytes (adv (after s.pc 1) 4)
  | .nop | .halt | .add _ _ | .sub _ _ | .mul _ _ | .mulu _ _ | .div _ _ | .divu _ _
  | .and _ _ | .or _ _ | .xor _ _ | .addi _ _ | .subi _ _ | .muli _ _ | .divi _ _ | .andi _ _
  | .ori _ _ | .xori _ _ | .neg _ | .not _ | .cmp _ _ | .cmpi _ _ | .beq _ | .bne _
  | .bge _ | .bgeu _ | .bgt _ | .bgtu _ | .ble _ | .bleu _ | .blt _ | .bltu _
  | .ld _ _ | .lda _ _ | .ldi _ _ | .ldr _ _ | .pop _ | .jmp _ | .jmpa _ | .ret
  | .rnd _ _ | .int _ => []

/-- Where an instruction stores and how many bytes, in the state it starts in: the address is the one its meaning uses
(R174, R175, R182). -/
def storedBytes (i : Instr) (s : State) : Nat × Nat :=
  match i with
  | .stb _ r2 => ((s.reg r2).toNat, 1)
  | .sta _ addr => (addr.toNat, 4)
  | .push _ | .jsr _ | .jsra _ => ((s.sp - 4).toNat, 4)
  | .nop | .halt | .add _ _ | .sub _ _ | .mul _ _ | .mulu _ _ | .div _ _ | .divu _ _
  | .and _ _ | .or _ _ | .xor _ _ | .addi _ _ | .subi _ _ | .muli _ _ | .divi _ _ | .andi _ _
  | .ori _ _ | .xori _ _ | .neg _ | .not _ | .cmp _ _ | .cmpi _ _ | .beq _ | .bne _
  | .bge _ | .bgeu _ | .bgt _ | .bgtu _ | .ble _ | .bleu _ | .blt _ | .bltu _
  | .ld _ _ | .lda _ _ | .ldi _ _ | .ldr _ _ | .pop _ | .jmp _ | .jmpa _ | .ret
  | .rnd _ _ | .int _ => (0, 0)

end Sys2Proof.Safety
end

