-- ==== Sys2Proof/Certificates/Slice0/Obligations.lean ====
section
/-! DEFINITION. The statements about the machine, for the provers: each says what its docstring says, and is proved elsewhere. -/

open Sys2Proof Sys2Proof.Machine Sys2Proof.Safety

/-- Every general register and pc are 0, sp is VIDEO_BASE (sp plus VIDEO_SIZE is MEM_SIZE, for the open VIDEO_SIZE, which
is at most MEM_SIZE), every byte of memory is 0, nothing is pending, the machine does not run, has no fault and is not
locked. That sp is VIDEO_BASE (D3) and the values of pending and running (D24) and of the latch (D25) are decisions;
nothing is said of the flags, which R34 leaves unspecified. [R34, R233, R6, 92_eei_decisions.md D2, D3, D24, D25] -/
def Obligations.ResetStateValues : Prop :=
  (∀ r, State.reset.reg r = 0) ∧ State.reset.pc = 0 ∧ State.reset.sp.toNat + Config.videoSize = Config.memSize ∧
    Config.videoSize ≤ Config.memSize ∧ (∀ a, State.reset.mem.get a = 0) ∧ State.reset.pending = none ∧ State.reset.running = false ∧
    State.reset.fault = none ∧ State.reset.isLocked = false

/-- The state after reset meets the memory and latch invariant and the stack alignment invariant that StepKeepsInvariant
and StepKeepsStackAlignment speak of. [R34, R182] -/
def Obligations.ResetMeetsInvariants : Prop :=
  StateInv State.reset ∧ StackAligned State.reset

/-- For every image that fits and from every block, the reset command answers a next block in which byte i of memory is
byte i of the image, whatever that byte stands for and however far the image reaches, and every byte beyond the image
is 0, so that an empty image leaves memory all zero. [R231] -/
def Obligations.ResetInstallsImage : Prop :=
  ∀ (o : Mnemonic → Byte) (image : List Byte) (b : Block), image.length ≤ Config.memSize →
    ∃ c, hostCommand o (.reset image) b = .next c ∧
      (∀ i, i < image.length → c.core.mem.get i = image.getD i 0) ∧
      ∀ i, image.length ≤ i → c.core.mem.get i = 0

/-- From every block, its core locked or not, reset of an image that fits answers a next block with registers and pc 0, sp
at SP_RESET (D3), nothing pending, not running, no fault, not locked, SPEED unchanged; an image longer than memory is
refused by name (D29). pending, running and the latch are D24 and D25. After an empty image every address decodes as
nop under the opcode table of R66, which rests on the opcode byte 00 of nop, decision D8 (log 4). [R230, R232, R202,
R243, R231, R66, 92_eei_decisions.md D3, D8, D24, D25, D29] -/
def Obligations.HostResetFromAnyState : Prop :=
  ∀ (o : Mnemonic → Byte) (image : List Byte) (b : Block),
    (image.length ≤ Config.memSize →
      ∃ c, hostCommand o (.reset image) b = .next c ∧ (∀ r, c.core.reg r = 0) ∧ c.core.pc = 0 ∧
        c.core.sp = Config.spReset ∧ c.core.pending = none ∧ c.core.running = false ∧ c.core.fault = none ∧
        c.core.isLocked = false ∧ c.speed = b.speed) ∧
    (Config.memSize < image.length → hostCommand o (.reset image) b = .refused .imageTooLong) ∧
    ∃ c, hostCommand o (.reset []) b = .next c ∧ ∀ p : Word, decode (fetchWindow c.core.mem p) = .ok .nop

/-- For every state with memory in canonical form (addresses strictly rising and below MEM_SIZE, no listed zero byte) in
which a machine that raised a fatal fault has a record in its latch, if the step answers a next state then that state
has both properties too, and so has the core after every host command, the frame tick with any SPEED among them. The
canonical form is the model's. [R31, R32, R43, R234, 20_memory.md] -/
def Obligations.StepKeepsInvariant : Prop :=
  (∀ s t : State, StateInv s → step s = .next t → StateInv t) ∧
    ∀ (o : Mnemonic → Byte) (c : HostCommand) (b d : Block), StateInv b.core → hostCommand o c b = .next d →
      StateInv d.core

/-- For every state whose sp is congruent to SP_RESET mod 4 unless it is locked, if the step answers a next state then
that state has the property too: every instruction moves sp by 4 or not at all; and so has the core after every host
command. [R26, R182, R234] -/
def Obligations.StepKeepsStackAlignment : Prop :=
  (∀ s t : State, StackAligned s → step s = .next t → StackAligned t) ∧
    ∀ (o : Mnemonic → Byte) (c : HostCommand) (b d : Block), StackAligned b.core → hostCommand o c b = .next d →
      StackAligned d.core

/-- If the flags of a state are what a compare leaves and the step answers a next state that is not locked, its flags are
what a compare leaves. [R28, R145] -/
def Obligations.StepKeepsCompareResult : Prop :=
  ∀ s t : State, CompareResult s.flags → step s = .next t → t.isLocked = false → CompareResult t.flags

/-- If the latch holds a record and a step, or a frame tick with any budget, answers a next state, the latch holds the
same record there (D25). [R31, 92_eei_decisions.md D25] -/
def Obligations.FaultLatchIsSticky : Prop :=
  ∀ (o : Mnemonic → Byte) (s t : State) (f : FaultRecord), s.fault = some f →
    (stepWith o s = .next t → t.fault = some f) ∧ (∀ budget, frameTick o budget s = .next t → t.fault = some f)

/-- In a locked state step answers the fault locked, the frame tick changes nothing whatever the budget, and every host
command other than reset answers the same block (D5, D35), under every opcode map. [R202, R234, 92_eei_decisions.md
D5, D35] -/
def Obligations.LockedMachineDoesNothing : Prop :=
  ∀ (o : Mnemonic → Byte) (b : Block), b.core.isLocked = true →
    step b.core = .fault .locked ∧ stepWith o b.core = .fault .locked ∧
      (∀ budget, frameTick o budget b.core = .next b.core) ∧
      ∀ c : HostCommand, (∀ image, c ≠ .reset image) → hostCommand o c b = .next b

/-- For every state that is not locked the step answers a next state, under every opcode map; for every instruction and
every state exec answers a next state. No data, operand or mode ends a run: only the locked state has no step. [R67,
R202, R247] -/
def Obligations.UnlockedMachineSteps : Prop :=
  (∀ (o : Mnemonic → Byte) (s : State), s.isLocked = false → ∃ t, stepWith o s = .next t) ∧ ∀ (i : Instr) (s : State), ∃ t, exec i s = .next t

/-- If the machine is not locked and the bytes of an instruction stand in memory from pc up, inside memory, then step is
exec of that instruction followed by the interrupt check, which is skipped if the instruction locked the machine (log
12). The step is the one every opcode map gives, with the map of R66. [R67, R211, R241, 92_eei_decisions.md D26] -/
def Obligations.StepRunsHeldInstruction : Prop :=
  (∀ s : State, step s = stepWith Config.opc s) ∧
    ∀ (s : State) (i : Instr), s.isLocked = false → HoldsAt s s.pc.toNat (encode i) →
      s.pc.toNat + (encode i).length ≤ Config.memSize →
      step s = thenIntCheck (exec i s) ∧ ∀ t, exec i s = .next t →
        step s = .next (if t.isLocked then t else intCheck t)

/-- Under every injective opcode map, if the machine is not locked, pc is in memory and the bytes of an instruction stand
where they are fetched, each single-byte field at the address the advance reaches (which wraps to 0 at the end of
memory, D6) and a four-byte operand in one run from the address the advance reaches, then step is exec of that
instruction followed by the interrupt check. An instruction of format RI or A may so have its opcode or register byte
last in memory and its operand from address 0. If the bytes before the operand of an instruction of format RI or A
stand where they are fetched but the operand crosses the end of memory, the step locks the machine with MemoryFault of
the operand's address (D5) for format RI, for jmpa and for a branch whose condition holds; for jsra with MemoryFault
of the slot if the push, which comes first (D19), is out of range, and of the operand's address otherwise; a branch
whose condition fails goes on past the operand, pc wrapping to 0, and nothing else changes but by the interrupt check
(D17). An earlier record stays in the latch. [R25, R63, R64, R66, R67, R71, R150, R188, R202, R206,
92_eei_decisions.md D5, D6, D17, D19] -/
def Obligations.StepRunsInstructionAcrossTheWrap : Prop :=
  ∀ (o : Mnemonic → Byte) (s : State) (i : Instr), Function.Injective o → s.isLocked = false →
    (NextInstr o s i → stepWith o s = thenIntCheck (exec i s)) ∧
    ∀ n, i.mnemonic.format = .RI ∧ n = 2 ∨ i.mnemonic.format = .A ∧ n = 1 → s.pc.toNat < Config.memSize →
      (∀ k, k < n → s.mem.get (after s.pc k).toNat = (encodeWith o i).getD k 0) → ¬ OperandReadable s n →
      (i.mnemonic.format = .RI ∨ i.mnemonic = .jmpa ∨ branchHolds i s.flags = true →
        ∃ t, stepWith o s = .next t ∧ t.isLocked = true ∧
          t.fault = some (s.fault.getD (.memoryFault (after s.pc n)))) ∧
      (i.mnemonic = .jsra →
        ∃ t, stepWith o s = .next t ∧ t.isLocked = true ∧
          t.fault = some (s.fault.getD (.memoryFault
            (if (s.sp - 4).toNat + 4 ≤ Config.memSize then after s.pc 1 else s.sp - 4)))) ∧
      (isBranch i = true → branchHolds i s.flags = false → stepWith o s = .next (intCheck { s with pc := 0 }))

/-- If the machine is not locked and the byte at pc, inside memory, is no opcode of the opcode map, whatever map, then the
core's Step answers the same state with pc advanced past the one byte and the latch holding UnknownOpcode with the
byte and its address, unless it held a record; the machine is not locked by it (D11). [R68, R203, R207,
92_eei_decisions.md D11] -/
def Obligations.UnknownOpcodeIsSkipped : Prop :=
  ∀ (o : Mnemonic → Byte) (s : State), s.isLocked = false → s.pc.toNat < Config.memSize → (∀ m, o m ≠ s.mem.get s.pc.toNat) →
    coreStep o s = .next { s with
      pc := adv s.pc 1, fault := some (s.fault.getD (.unknownOpcode (s.mem.get s.pc.toNat) s.pc)) } ∧
    ∀ t, coreStep o s = .next t → t.isLocked = false ∧ stepWith o s = .next (intCheck t)

/-- If the machine is not locked, pc is in memory and the opcode byte there is, under an injective map, a mnemonic with a
register operand: a first register byte above 15 makes the step lock the machine with InvalidRegister of that byte and
its address; in format RR, a first byte that is a register and a second above 15 does so with the second byte and its
address. An earlier record stays in the latch (D10). [R22, R63, R204, R206, 92_eei_decisions.md D10] -/
def Obligations.BadRegisterByteLocks : Prop :=
  ∀ (o : Mnemonic → Byte) (s : State) (m : Mnemonic), Function.Injective o → s.isLocked = false →
    s.pc.toNat < Config.memSize → s.mem.get s.pc.toNat = o m →
    (m.format = .R ∨ m.format = .RR ∨ m.format = .RI ∨ m.format = .RB → 15 < (s.mem.get (after s.pc 1).toNat).toNat →
      ∃ t, stepWith o s = .next t ∧ t.isLocked = true ∧
        t.fault = some (s.fault.getD (.invalidRegister (s.mem.get (after s.pc 1).toNat) (after s.pc 1)))) ∧
    (m.format = .RR → (s.mem.get (after s.pc 1).toNat).toNat ≤ 15 → 15 < (s.mem.get (after s.pc 2).toNat).toNat →
      ∃ t, stepWith o s = .next t ∧ t.isLocked = true ∧
        t.fault = some (s.fault.getD (.invalidRegister (s.mem.get (after s.pc 2).toNat) (after s.pc 2))))

/-- If the machine is not locked and pc is at or above MEM_SIZE, which only a control transfer can make it, the step
answers a locked state whose latch holds MemoryFault(pc) unless it held a record (D5, D7). [R24, R44, R202,
92_eei_decisions.md D5, D7] -/
def Obligations.OpcodeFetchOutOfRangeLocks : Prop :=
  ∀ (o : Mnemonic → Byte) (s : State), s.isLocked = false → Config.memSize ≤ s.pc.toNat →
    ∃ t, stepWith o s = .next t ∧ t.isLocked = true ∧ t.fault = some (s.fault.getD (.memoryFault s.pc))

/-- For every instruction of format RI, if the operand after its register byte cannot be read, exec raises the fatal
MemoryFault at the operand's address and locks the machine (D5, log 10), before anything else the instruction does.
Likewise jmpa, and every branch whose condition holds (D16, log 19; an untaken branch does not read it, D17, log 16),
for the operand after the opcode byte. [R64, R71, R206, R150, R161, R186, R202, 42_immediate_arithmetic.md,
44_compare.md, 46_loads_stores.md, 92_eei_decisions.md D5, D16, D17] -/
def Obligations.LongOperandOutOfRangeLocks : Prop :=
  ∀ (i : Instr) (s : State),
    (i.mnemonic.format = .RI → ¬ OperandReadable s 2 → RaisesFatal i s (.memoryFault (after s.pc 2))) ∧
    (branchHolds i s.flags = true ∨ i.mnemonic = .jmpa → ¬ OperandReadable s 1 →
      RaisesFatal i s (.memoryFault (after s.pc 1)))

/-- For every opcode map that is injective, which is all R66 lets a model assume of it, every instruction with every
operand and whatever bytes follow, decoding the instruction's bytes gives the instruction. [R60, R61, R62, R63, R64,
R65, R66] -/
def Obligations.DecodeEncodeRoundTrip : Prop :=
  ∀ (o : Mnemonic → Byte), Function.Injective o → ∀ (i : Instr) (rest : List Byte),
    decodeWith o (encodeWith o i ++ rest) = .ok i

/-- For every opcode map, if a string of bytes decodes to an instruction then the string is that instruction's encoding
followed by some bytes; so no two strings of the same instruction differ in a byte the decoder reads. [R60, R62, R63,
R69] -/
def Obligations.DecodedBytesAreTheEncoding : Prop :=
  ∀ (o : Mnemonic → Byte) (bytes : List Byte) (i : Instr), decodeWith o bytes = .ok i →
    ∃ rest, bytes = encodeWith o i ++ rest

/-- For every injective opcode map, a string of bytes decodes to an instruction of exactly that many bytes if and only if
its first byte is a mnemonic's opcode, it has the length of the mnemonic's format, and every byte at a register
position of that format is at most 15. [R61, R63, R66, R69] -/
def Obligations.DecoderAcceptsExactlyTheWellFormed : Prop :=
  ∀ (o : Mnemonic → Byte), Function.Injective o → ∀ bytes : List Byte,
    (∃ i, decodeWith o bytes = .ok i ∧ (encodeWith o i).length = bytes.length) ↔ WellFormed.bytesOk o bytes = true

/-- The example bytes of R72, one of each format, decode to ret, push r2, add r0 r0, ldi r0 0x2A, jsra 0x20, rnd r3 9 and
int 1; the opcode map is injective and the bytes 0x2F to 0xFF are no opcode (D8). [R66, R72, 92_eei_decisions.md D8] -/
def Obligations.SampleWordsDecode : Prop :=
  decode [0x2C] = .ok .ret ∧ decode [0x26, 0x02] = .ok (.push 2) ∧ decode [0x02, 0x00, 0x00] = .ok (.add 0 0) ∧
    decode [0x22, 0x00, 0x00, 0x00, 0x00, 0x2A] = .ok (.ldi 0 0x2A) ∧
    decode [0x2B, 0x00, 0x00, 0x00, 0x20] = .ok (.jsra 0x20) ∧ decode [0x2D, 0x03, 0x09] = .ok (.rnd 3 9) ∧
    decode [0x2E, 0x01] = .ok (.int 1) ∧ Function.Injective Config.opc ∧
    ∀ b : Byte, 0x2F ≤ b.toNat → decode [b] = .error (.unknownOpcode b)

/-- For n in {1, 2, 4}, every address with a + n <= MEM_SIZE, every value and every canonical memory, MemWrite(a, n, v)
succeeds and MemRead(a, n) of the memory after it is v mod 2^(8n). [R56] -/
def Obligations.WriteThenReadReturnsTheValue : Prop :=
  ∀ (m : Memory) (a n v : Nat), m.wf = true → (n = 1 ∨ n = 2 ∨ n = 4) → a + n ≤ Config.memSize →
    ∃ m', m.write a n v = some m' ∧ m'.read a n = some (v % 2 ^ (8 * n))

/-- For n in {1, 2, 4} and canonical memory: a write in range succeeds, keeps the canonical form, leaves at a + i the bits
8(n-i)-1 to 8(n-i-1) of the value, and every other address as it was; a write out of range (a + n > MEM_SIZE) fails
and gives no memory (D4). [R43, R45, R41, 92_eei_decisions.md D4] -/
def Obligations.WriteChangesOnlyItsBytes : Prop :=
  ∀ (m : Memory) (a n v : Nat), m.wf = true → (n = 1 ∨ n = 2 ∨ n = 4) →
    (a + n ≤ Config.memSize → ∃ m', m.write a n v = some m' ∧ m'.wf = true ∧
      (∀ i, i < n → (m'.get (a + i)).toNat = v / 2 ^ (8 * (n - i - 1)) % 2 ^ 8) ∧
      (∀ b, (b < a ∨ a + n ≤ b) → m'.get b = m.get b)) ∧
    (Config.memSize < a + n → m.write a n v = none)

/-- In range, a read of 1, 2 or 4 bytes is the value whose most significant byte stands at the address, whatever its
alignment; out of range there is no value (D4). [R41, R42, R45, R46, 92_eei_decisions.md D4] -/
def Obligations.ReadIsBigEndian : Prop :=
  ∀ (m : Memory) (a : Nat),
    (a + 1 ≤ Config.memSize → m.read a 1 = some (m.get a).toNat) ∧
    (a + 2 ≤ Config.memSize → m.read a 2 = some ((m.get a).toNat * 2 ^ 8 + (m.get (a + 1)).toNat)) ∧
    (a + 4 ≤ Config.memSize → m.read a 4 = some ((m.get a).toNat * 2 ^ 24 + (m.get (a + 1)).toNat * 2 ^ 16 +
      (m.get (a + 2)).toNat * 2 ^ 8 + (m.get (a + 3)).toNat)) ∧
    ∀ n, Config.memSize < a + n → m.read a n = none

/-- If two memories are in canonical form and every address reads alike in both, they are equal. The canonical form is the
model's representation of R32. [R32, 20_memory.md] -/
def Obligations.EqualReadsMeanEqualMemory : Prop :=
  ∀ m m' : Memory, m.wf = true → m'.wf = true → (∀ a, m.get a = m'.get a) → m = m'

/-- For every state and every r1, r2, equal or not: the instruction completes, x[r1] is the sum, difference or product of
the old x[r1] and x[r2], or for neg the negation of x[r1], mod 2^32 (D15), pc is past the three bytes (two for neg),
and every other register, sp, flag, byte of memory and control field is unchanged. [R110, R111, R112, R113, R140,
R119, R120, 92_eei_decisions.md D15] -/
def Obligations.RegisterArithmeticResults : Prop :=
  ∀ (s : State) (r1 r2 : Reg),
    WritesReg (.add r1 r2) s r1 (((s.reg r1).toNat + (s.reg r2).toNat) % 2 ^ 32) (after s.pc 3) ∧
    WritesReg (.sub r1 r2) s r1 (((s.reg r1).toNat + (2 ^ 32 - (s.reg r2).toNat)) % 2 ^ 32) (after s.pc 3) ∧
    WritesReg (.mul r1 r2) s r1 ((s.reg r1).toNat * (s.reg r2).toNat % 2 ^ 32) (after s.pc 3) ∧
    WritesReg (.mulu r1 r2) s r1 ((s.reg r1).toNat * (s.reg r2).toNat % 2 ^ 32) (after s.pc 3) ∧
    WritesReg (.neg r1) s r1 ((2 ^ 32 - (s.reg r1).toNat) % 2 ^ 32) (after s.pc 2)

/-- For every state, registers and immediate (readable, for the immediate forms): the instruction completes, each bit of
x[r1] is the operation on that bit of the old operands, pc is past the instruction, and nothing else changes. [R116,
R117, R118, R134, R135, R136, R141, R123] -/
def Obligations.BitwiseResults : Prop :=
  ∀ (s : State) (r1 r2 : Reg) (imm : Word),
    (∃ t, exec (.and r1 r2) s = .next t ∧ t.pc = after s.pc 3 ∧ OnlyRegs [r1] s t ∧
      ∀ k, (t.reg r1).getLsbD k = ((s.reg r1).getLsbD k && (s.reg r2).getLsbD k)) ∧
    (∃ t, exec (.or r1 r2) s = .next t ∧ t.pc = after s.pc 3 ∧ OnlyRegs [r1] s t ∧
      ∀ k, (t.reg r1).getLsbD k = ((s.reg r1).getLsbD k || (s.reg r2).getLsbD k)) ∧
    (∃ t, exec (.xor r1 r2) s = .next t ∧ t.pc = after s.pc 3 ∧ OnlyRegs [r1] s t ∧
      ∀ k, (t.reg r1).getLsbD k = ((s.reg r1).getLsbD k ^^ (s.reg r2).getLsbD k)) ∧
    (∃ t, exec (.not r1) s = .next t ∧ t.pc = after s.pc 2 ∧ OnlyRegs [r1] s t ∧
      ∀ k, k < 32 → (t.reg r1).getLsbD k = !(s.reg r1).getLsbD k) ∧
    (OperandReadable s 2 →
      (∃ t, exec (.andi r1 imm) s = .next t ∧ t.pc = adv (after s.pc 2) 4 ∧ OnlyRegs [r1] s t ∧
        ∀ k, (t.reg r1).getLsbD k = ((s.reg r1).getLsbD k && imm.getLsbD k)) ∧
      (∃ t, exec (.ori r1 imm) s = .next t ∧ t.pc = adv (after s.pc 2) 4 ∧ OnlyRegs [r1] s t ∧
        ∀ k, (t.reg r1).getLsbD k = ((s.reg r1).getLsbD k || imm.getLsbD k)) ∧
      (∃ t, exec (.xori r1 imm) s = .next t ∧ t.pc = adv (after s.pc 2) 4 ∧ OnlyRegs [r1] s t ∧
        ∀ k, (t.reg r1).getLsbD k = ((s.reg r1).getLsbD k ^^ imm.getLsbD k)))

/-- With a divisor that is not 0 (and a readable immediate, for divi): the instruction completes, x[0] is the unsigned
remainder of the old operands, x[r1] is the quotient unless r1 is 0, where the remainder stays (D12, D14), pc is past
the instruction and nothing else changes. [R114, R115, R133, R121, R23, 92_eei_decisions.md D12, D14] -/
def Obligations.DivisionResults : Prop :=
  ∀ (s : State) (r1 r2 : Reg) (imm : Word),
    (s.reg r2 ≠ 0 → ∀ i ∈ [Instr.div r1 r2, Instr.divu r1 r2],
      ∃ t, exec i s = .next t ∧ t.pc = after s.pc 3 ∧ OnlyRegs [r1, 0] s t ∧
        (t.reg 0).toNat = (s.reg r1).toNat % (s.reg r2).toNat ∧
        (r1 ≠ 0 → (t.reg r1).toNat = (s.reg r1).toNat / (s.reg r2).toNat)) ∧
    (imm ≠ 0 → OperandReadable s 2 →
      ∃ t, exec (.divi r1 imm) s = .next t ∧ t.pc = adv (after s.pc 2) 4 ∧ OnlyRegs [r1, 0] s t ∧
        (t.reg 0).toNat = (s.reg r1).toNat % imm.toNat ∧
        (r1 ≠ 0 → (t.reg r1).toNat = (s.reg r1).toNat / imm.toNat))

/-- div and divu with x[r2] = 0, and divi with immediate 0 that can be read, raise DivideByZero of the address of the
opcode byte; the machine is locked (D13). [R122, R205, 92_eei_decisions.md D13] -/
def Obligations.DivisionByZeroLocks : Prop :=
  ∀ (s : State) (r1 r2 : Reg),
    (s.reg r2 = 0 → RaisesFatal (.div r1 r2) s (.divideByZero s.pc) ∧ RaisesFatal (.divu r1 r2) s (.divideByZero s.pc)) ∧
    (OperandReadable s 2 → RaisesFatal (.divi r1 0) s (.divideByZero s.pc))

/-- With a readable operand the instruction completes; x[r1] is the sum, difference or product of the old x[r1] and the
immediate mod 2^32 (D15), or the immediate itself with no extension for ldi; pc is past the six bytes and nothing else
changes. [R130, R131, R132, R172, R64, 92_eei_decisions.md D15] -/
def Obligations.ImmediateArithmeticResults : Prop :=
  ∀ (s : State) (r1 : Reg) (imm : Word), OperandReadable s 2 →
    WritesReg (.addi r1 imm) s r1 (((s.reg r1).toNat + imm.toNat) % 2 ^ 32) (adv (after s.pc 2) 4) ∧
    WritesReg (.subi r1 imm) s r1 (((s.reg r1).toNat + (2 ^ 32 - imm.toNat)) % 2 ^ 32) (adv (after s.pc 2) 4) ∧
    WritesReg (.muli r1 imm) s r1 ((s.reg r1).toNat * imm.toNat % 2 ^ 32) (adv (after s.pc 2) 4) ∧
    WritesReg (.ldi r1 imm) s r1 imm.toNat (adv (after s.pc 2) 4)

/-- The compare completes (cmpi with a readable operand): Z says the operands are equal, C that the left is greater, N
that the left is less, as unsigned values (D12), V is false; pc is past the instruction and every register, sp, byte
of memory and control field is unchanged. [R145, R146, R147, 92_eei_decisions.md D12] -/
def Obligations.CompareWritesAllFlags : Prop :=
  ∀ (s : State) (r1 r2 : Reg) (imm : Word),
    (∃ t, exec (.cmp r1 r2) s = .next t ∧ t.pc = after s.pc 3 ∧ OnlyFlags s t ∧
      t.flags.zero = decide ((s.reg r1).toNat = (s.reg r2).toNat) ∧
      t.flags.carry = decide ((s.reg r1).toNat > (s.reg r2).toNat) ∧
      t.flags.negative = decide ((s.reg r1).toNat < (s.reg r2).toNat) ∧ t.flags.overflow = false) ∧
    (OperandReadable s 2 →
      ∃ t, exec (.cmpi r1 imm) s = .next t ∧ t.pc = adv (after s.pc 2) 4 ∧ OnlyFlags s t ∧
        t.flags.zero = decide ((s.reg r1).toNat = imm.toNat) ∧
        t.flags.carry = decide ((s.reg r1).toNat > imm.toNat) ∧
        t.flags.negative = decide ((s.reg r1).toNat < imm.toNat) ∧ t.flags.overflow = false)

/-- With a readable operand, beq is taken when Z, bne when not Z, bge and bgeu when N or Z, bgt, bgtu, blt and bltu when
N, ble and bleu when not N or Z (the negation on N alone is D16): pc is the address, even at or above MEM_SIZE, and
nothing else changes. [R150, R151, R152, R153, R155, R157, R159, R161, R154, R156, R158, R160] -/
def Obligations.TakenBranches : Prop :=
  ∀ (s : State) (addr : Word), OperandReadable s 1 →
    (s.flags.zero = true → WritesPcOnly (.beq addr) s addr) ∧
    (s.flags.zero = false → WritesPcOnly (.bne addr) s addr) ∧
    (s.flags.negative = true ∨ s.flags.zero = true →
      WritesPcOnly (.bge addr) s addr ∧ WritesPcOnly (.bgeu addr) s addr) ∧
    (s.flags.negative = true → WritesPcOnly (.bgt addr) s addr ∧ WritesPcOnly (.bgtu addr) s addr ∧
      WritesPcOnly (.blt addr) s addr ∧ WritesPcOnly (.bltu addr) s addr) ∧
    (s.flags.negative = false ∨ s.flags.zero = true →
      WritesPcOnly (.ble addr) s addr ∧ WritesPcOnly (.bleu addr) s addr)

/-- In every state, whether or not the operand can be read (D17): a branch whose condition fails completes with pc
advanced past the four operand bytes, and nothing else changes. [R150, R161, 92_eei_decisions.md D16, D17] -/
def Obligations.UntakenBranchesSkipTheOperand : Prop :=
  ∀ (s : State) (addr : Word),
    (s.flags.zero = false → WritesPcOnly (.beq addr) s (adv (after s.pc 1) 4)) ∧
    (s.flags.zero = true → WritesPcOnly (.bne addr) s (adv (after s.pc 1) 4)) ∧
    (s.flags.negative = false → s.flags.zero = false →
      WritesPcOnly (.bge addr) s (adv (after s.pc 1) 4) ∧ WritesPcOnly (.bgeu addr) s (adv (after s.pc 1) 4)) ∧
    (s.flags.negative = false →
      WritesPcOnly (.bgt addr) s (adv (after s.pc 1) 4) ∧ WritesPcOnly (.bgtu addr) s (adv (after s.pc 1) 4) ∧
      WritesPcOnly (.blt addr) s (adv (after s.pc 1) 4) ∧ WritesPcOnly (.bltu addr) s (adv (after s.pc 1) 4)) ∧
    (s.flags.negative = true → s.flags.zero = false →
      WritesPcOnly (.ble addr) s (adv (after s.pc 1) 4) ∧ WritesPcOnly (.bleu addr) s (adv (after s.pc 1) 4))

/-- After cmp of L and R (unsigned, D12), with the operand readable: beq is taken when L = R, bne when L is not R, bge and
bgeu when L <= R, bgt, bgtu, blt and bltu when L < R, ble and bleu when L >= R; taken means pc is the address, not
taken that it is past the operand. [R161, R145, R150, 92_eei_decisions.md D12, D16] -/
def Obligations.BranchTableAfterCompare : Prop :=
  ∀ (s t : State) (r1 r2 : Reg) (addr : Word), exec (.cmp r1 r2) s = .next t → OperandReadable t 1 →
    ∀ (i : Instr) (taken : Prop),
      ((i = .beq addr ∧ (taken ↔ (s.reg r1).toNat = (s.reg r2).toNat)) ∨
        (i = .bne addr ∧ (taken ↔ (s.reg r1).toNat ≠ (s.reg r2).toNat)) ∨
        ((i = .bge addr ∨ i = .bgeu addr) ∧ (taken ↔ (s.reg r1).toNat ≤ (s.reg r2).toNat)) ∨
        ((i = .bgt addr ∨ i = .bgtu addr ∨ i = .blt addr ∨ i = .bltu addr) ∧
          (taken ↔ (s.reg r1).toNat < (s.reg r2).toNat)) ∨
        ((i = .ble addr ∨ i = .bleu addr) ∧ (taken ↔ (s.reg r1).toNat ≥ (s.reg r2).toNat))) →
      (taken → WritesPcOnly i t addr) ∧ (¬ taken → WritesPcOnly i t (adv (after t.pc 1) 4))

/-- With readable operands and the addressed bytes in range: ld loads the long at the operand, lda the long at the address
that stands at the operand, ldr the long at x[r2]; pc is past the instruction and nothing else changes, at any
alignment. [R170, R171, R173, R45, R46] -/
def Obligations.LoadResults : Prop :=
  ∀ (s : State) (r1 r2 : Reg) (addr : Word),
    (OperandReadable s 2 → addr.toNat + 4 ≤ Config.memSize →
      WritesReg (.ld r1 addr) s r1 (long s addr.toNat) (adv (after s.pc 2) 4)) ∧
    (OperandReadable s 2 → addr.toNat + 4 ≤ Config.memSize → long s addr.toNat + 4 ≤ Config.memSize →
      WritesReg (.lda r1 addr) s r1 (long s (long s addr.toNat)) (adv (after s.pc 2) 4)) ∧
    ((s.reg r2).toNat + 4 ≤ Config.memSize →
      WritesReg (.ldr r1 r2) s r1 (long s (s.reg r2).toNat) (after s.pc 3))

/-- ld, lda (on its first and on its second read), ldr, jmp, stb and sta raise the fatal MemoryFault of the address of the
access that leaves memory (D4, D5). [R170, R171, R173, R174, R175, R185, R44, R41, 92_eei_decisions.md D4, D5] -/
def Obligations.DataAccessFaults : Prop :=
  ∀ (s : State) (r1 r2 : Reg) (addr : Word),
    (OperandReadable s 2 → Config.memSize < addr.toNat + 4 →
      RaisesFatal (.ld r1 addr) s (.memoryFault addr) ∧ RaisesFatal (.lda r1 addr) s (.memoryFault addr) ∧
      RaisesFatal (.sta r1 addr) s (.memoryFault addr)) ∧
    (OperandReadable s 2 → addr.toNat + 4 ≤ Config.memSize → Config.memSize < long s addr.toNat + 4 →
      RaisesFatal (.lda r1 addr) s (.memoryFault (BitVec.ofNat 32 (long s addr.toNat)))) ∧
    (Config.memSize < (s.reg r2).toNat + 4 →
      RaisesFatal (.ldr r1 r2) s (.memoryFault (s.reg r2)) ∧ RaisesFatal (.jmp r2) s (.memoryFault (s.reg r2))) ∧
    (Config.memSize < (s.reg r2).toNat + 1 → RaisesFatal (.stb r1 r2) s (.memoryFault (s.reg r2)))

/-- With canonical memory, a readable operand for sta and the addressed bytes in range: stb leaves at x[r2] the low byte
of x[r1]; sta leaves at the operand's address the long x[r1], most significant byte first; every other byte, every
register, sp, flags and control fields are unchanged and pc is past the instruction. [R174, R175, R43, R45] -/
def Obligations.StoreResults : Prop :=
  ∀ (s : State) (r1 r2 : Reg) (addr : Word), s.mem.wf = true →
    ((s.reg r2).toNat + 1 ≤ Config.memSize →
      ∃ t, exec (.stb r1 r2) s = .next t ∧ t.pc = after s.pc 3 ∧
        (t.mem.get (s.reg r2).toNat).toNat = (s.reg r1).toNat % 2 ^ 8 ∧ OnlyBytes (s.reg r2).toNat 1 s t) ∧
    (OperandReadable s 2 → addr.toNat + 4 ≤ Config.memSize →
      ∃ t, exec (.sta r1 addr) s = .next t ∧ t.pc = adv (after s.pc 2) 4 ∧
        long t addr.toNat = (s.reg r1).toNat ∧ OnlyBytes addr.toNat 4 s t)

/-- For every instruction that stores (stb, sta, push, jsr, jsra), every injective opcode map and canonical memory: if it
completes without locking, and the bytes where the next instruction is fetched, each being the stored byte where the
store reached it and the byte that stood there before where it did not, are those of an instruction j, then the next
Step is exec of j, and the next fetch gives j (unless j is of format A and its operand crosses the end of memory,
where the fetch gives j with an operand that R71 never lets it use). [R54, R67, R174, R175, R180, R187, R188, R71,
92_eei_decisions.md D6, D18, D19] -/
def Obligations.StoredByteIsFetchedNext : Prop :=
  ∀ (o : Mnemonic → Byte) (i j : Instr) (s t : State), Function.Injective o → s.mem.wf = true →
    storesMemory i = true → exec i s = .next t → t.isLocked = false → t.pc.toNat < Config.memSize →
    (∀ k, k < (encodeWith o j).length → (encodeWith o j).getD k 0 =
      storedOver s (storedBytes i s).1 (storedValue i s) (fetchAddress j.mnemonic.format t.pc k)) →
    coreStep o t = exec j t ∧ (j.mnemonic.format ≠ .A ∨ OperandReadable t 1 → fetch o t = .ok j)

/-- push with canonical memory and the slot below sp in range: sp is 4 lower mod 2^32 (D32), the long at the new sp is
x[r1], every other byte, register, flag and control field is unchanged. pop with the four bytes at sp in range: x[r1]
is the long there, sp is 4 higher mod 2^32, memory and everything else is unchanged. pc is past the two bytes. [R180,
R181, R182, R26, 92_eei_decisions.md D32] -/
def Obligations.PushAndPopResults : Prop :=
  ∀ (s : State) (r1 : Reg), s.mem.wf = true →
    ((s.sp - 4).toNat + 4 ≤ Config.memSize →
      ∃ t, exec (.push r1) s = .next t ∧ t.pc = after s.pc 2 ∧ t.sp = s.sp - 4 ∧
        long t (s.sp - 4).toNat = (s.reg r1).toNat ∧ OnlySpBytes (s.sp - 4).toNat 4 s t) ∧
    (s.sp.toNat + 4 ≤ Config.memSize →
      ∃ t, exec (.pop r1) s = .next t ∧ t.pc = after s.pc 2 ∧ t.sp = s.sp + 4 ∧
        (t.reg r1).toNat = long s s.sp.toNat ∧ OnlyRegsSp [r1] s t)

/-- push, jsr and jsra whose slot at sp - 4 mod 2^32 is out of range raise MemoryFault of that address, jsra also when its
operand cannot be read, since the push comes first (D19); with the slot in range, jsr raises MemoryFault of a pointer
cell out of range and jsra of an operand that cannot be read; pop and ret raise MemoryFault(sp) when the four bytes at
sp are out of range (D5, D32). [R180, R181, R187, R188, R189, R182, R206, 92_eei_decisions.md D5, D19, D32] -/
def Obligations.StackAndCallFaults : Prop :=
  ∀ (s : State) (r1 : Reg) (addr : Word),
    (Config.memSize < (s.sp - 4).toNat + 4 → RaisesFatal (.push r1) s (.memoryFault (s.sp - 4)) ∧
      RaisesFatal (.jsr r1) s (.memoryFault (s.sp - 4)) ∧ RaisesFatal (.jsra addr) s (.memoryFault (s.sp - 4))) ∧
    ((s.sp - 4).toNat + 4 ≤ Config.memSize → Config.memSize < (s.reg r1).toNat + 4 →
      RaisesFatal (.jsr r1) s (.memoryFault (s.reg r1))) ∧
    ((s.sp - 4).toNat + 4 ≤ Config.memSize → ¬ OperandReadable s 1 →
      RaisesFatal (.jsra addr) s (.memoryFault (after s.pc 1))) ∧
    (Config.memSize < s.sp.toNat + 4 → RaisesFatal (.pop r1) s (.memoryFault s.sp) ∧
      RaisesFatal .ret s (.memoryFault s.sp))

/-- With canonical memory and 4 <= sp <= MEM_SIZE, push r1 completes, and pop of any register from the state it leaves
completes too, with the pushed value in that register and sp as it was before the push. [R182, 92_eei_decisions.md
D32] -/
def Obligations.PopAfterPushReturnsTheValue : Prop :=
  ∀ (s : State) (r1 r2 : Reg), s.mem.wf = true → 4 ≤ s.sp.toNat → s.sp.toNat ≤ Config.memSize →
    ∃ t u, exec (.push r1) s = .next t ∧ exec (.pop r2) t = .next u ∧ u.reg r2 = s.reg r1 ∧ u.sp = s.sp

/-- jmp with the pointer cell at x[r1] in range writes pc with the big-endian long of the cell; jmpa with a readable
operand writes pc with the operand, verbatim; nothing else changes. [R185, R186, R24] -/
def Obligations.JumpResults : Prop :=
  ∀ (s : State) (r1 : Reg) (addr : Word),
    ((s.reg r1).toNat + 4 ≤ Config.memSize →
      WritesPcOnly (.jmp r1) s (BitVec.ofNat 32 (long s (s.reg r1).toNat))) ∧
    (OperandReadable s 1 → WritesPcOnly (.jmpa addr) s addr)

/-- With canonical memory, the slot and the pointer cell in range: jsr completes, sp is 4 lower, the long at the new sp is
the address after the two bytes, pc is the long of the cell at x[r1] read after the push (D19), and every other byte,
every register, flag and control field is unchanged. [R187, 92_eei_decisions.md D18, D19] -/
def Obligations.CallThroughPointerResult : Prop :=
  ∀ (s : State) (r1 : Reg), s.mem.wf = true → (s.sp - 4).toNat + 4 ≤ Config.memSize →
    (s.reg r1).toNat + 4 ≤ Config.memSize →
    ∃ t, exec (.jsr r1) s = .next t ∧ t.sp = s.sp - 4 ∧ long t (s.sp - 4).toNat = (after s.pc 2).toNat ∧
      t.pc.toNat = long t (s.reg r1).toNat ∧ OnlySpBytes (s.sp - 4).toNat 4 s t

/-- With canonical memory, the operand standing readable after the opcode byte and the slot in range: jsra completes, sp
is 4 lower, the long at the new sp is the address after the operand (D18), pc is the operand read after the push
(D19), which is the operand itself when the slot does not overlap it, and every other byte, register, flag and control
field is unchanged. [R188, 92_eei_decisions.md D18, D19] -/
def Obligations.CallAbsoluteResult : Prop :=
  ∀ (s : State) (addr : Word), s.mem.wf = true → (s.sp - 4).toNat + 4 ≤ Config.memSize → OperandReadable s 1 →
    HoldsAt s (after s.pc 1).toNat (longBytes addr) →
    ∃ t, exec (.jsra addr) s = .next t ∧ t.sp = s.sp - 4 ∧
      long t (s.sp - 4).toNat = (adv (after s.pc 1) 4).toNat ∧ t.pc.toNat = long t (after s.pc 1).toNat ∧
      ((after s.pc 1).toNat + 4 ≤ (s.sp - 4).toNat ∨ (s.sp - 4).toNat + 4 ≤ (after s.pc 1).toNat → t.pc = addr) ∧
      OnlySpBytes (s.sp - 4).toNat 4 s t

/-- With the four bytes at sp in range ret completes: pc is the long at sp, sp is 4 higher mod 2^32 (D32), and every
register, byte of memory, flag and control field is unchanged. [R189, R182, 92_eei_decisions.md D32] -/
def Obligations.ReturnResult : Prop :=
  ∀ s : State, s.sp.toNat + 4 ≤ Config.memSize →
    ∃ t, exec .ret s = .next t ∧ t.pc.toNat = long s s.sp.toNat ∧ t.sp = s.sp + 4 ∧ OnlyRegsSp [] s t

/-- If jsra or jsr completes without locking, and a later state has the stack pointer and the four bytes there as the call
left them, whatever pc, the registers, the flags and the rest of memory are by then, then ret there goes to the
address after the call's bytes, which is the address of jsra plus 5 or of jsr plus 2 when that is below MEM_SIZE, with
sp as it was before the call. Memory is canonical before the call. [R187, R188, R189, 92_eei_decisions.md D6, D18,
D19] -/
def Obligations.ReturnAfterCallComesBack : Prop :=
  ∀ (s t u : State) (r1 : Reg) (addr : Word), s.mem.wf = true → t.isLocked = false → u.sp = t.sp →
    (∀ k, k < 4 → u.mem.get (t.sp.toNat + k) = t.mem.get (t.sp.toNat + k)) →
    (exec (.jsra addr) s = .next t →
      ∃ v, exec .ret u = .next v ∧ v.pc = adv (after s.pc 1) 4 ∧ v.sp = s.sp ∧
        (s.pc.toNat + 5 < Config.memSize → v.pc.toNat = s.pc.toNat + 5)) ∧
    (exec (.jsr r1) s = .next t →
      ∃ v, exec .ret u = .next v ∧ v.pc = after s.pc 2 ∧ v.sp = s.sp ∧
        (s.pc.toNat + 2 < Config.memSize → v.pc.toNat = s.pc.toNat + 2))

/-- In every state and for every id, over whatever request is pending (D21, D34), each completes; nothing but pc and the
one named field changes, pc is past the instruction. [R100, R101, R196, 92_eei_decisions.md D21, D34] -/
def Obligations.NopHaltAndIntResults : Prop :=
  ∀ (s : State) (id : Byte),
    exec .nop s = .next { s with pc := after s.pc 1 } ∧
    exec .halt s = .next { s with pc := after s.pc 1, running := false } ∧
    exec (.int id) s = .next { s with pc := after s.pc 2, pending := some id }

/-- For every state, register and bound byte, a bound above 15 too, rnd completes; x[r1] is at most the bound (so 0 for
bound 0, D20) and every other register, sp, flag, byte of memory and control field is unchanged but for the model's
own count of free values, which is one higher. Nothing is said of which value it is. [R195, 92_eei_decisions.md D20] -/
def Obligations.RandomDrawIsWithinBound : Prop :=
  ∀ (s : State) (r1 : Reg) (bound : Byte),
    ∃ t, exec (.rnd r1 bound) s = .next t ∧ (t.reg r1).toNat ≤ bound.toNat ∧ t.pc = after s.pc 3 ∧
      t.free = s.free + 1 ∧ OnlyRegs [r1] s { t with free := s.free }

/-- With the keyboard request pending, whatever the input collaborator answers: no key clears running and keeps the
request; a key is written whole to x[0] (D22, log 9), running is set and the request cleared. No flag, pc, sp, byte of
memory or other register changes. With nothing pending, or another id (D21, log 7), the state is unchanged; a locked
machine makes no check (D5, log 10). [R210, R202, R209, R212, R214, R222, 92_eei_decisions.md D5, D21, D22] -/
def Obligations.IntCheckServicesTheKeyboard : Prop :=
  ∀ (s : State) (k : Word),
    (s.isLocked = true → intCheckUnlessLocked s = s) ∧ (s.isLocked = false → intCheckUnlessLocked s = intCheck s) ∧
    (s.pending ≠ some keyboardId → intCheck s = s) ∧
    (s.pending = some keyboardId → intCheck s = serviceKeyboard (Config.keyAnswer s.free) { s with free := s.free + 1 }) ∧
    serviceKeyboard none s = { s with running := false } ∧
    (serviceKeyboard (some k) s).reg 0 = k ∧
    (∀ r, r ≠ 0 → (serviceKeyboard (some k) s).reg r = s.reg r) ∧
    serviceKeyboard (some k) s =
      { s with regs := (serviceKeyboard (some k) s).regs, running := true, pending := none }

/-- The slot is none or some id. int id completes with the slot holding id, over another request too (D34); no other
instruction that does not lock the machine changes it. IntCheck clears it exactly when the keyboard request is there
and a key is ready, and no other id ever (D21), the key going whole to x[0] (D22); it keeps the request when no key is
ready, and on that state IntCheck is again the keyboard's service, with the answer to a new query. Reset leaves none
(D24). [R209, R29, R196, R210, R212, 92_eei_decisions.md D21, D22, D24, D34] -/
def Obligations.PendingRequestIsKeptUntilServiced : Prop :=
  (∀ (s : State) (id : Byte), ∃ t, exec (.int id) s = .next t ∧ t.pending = some id) ∧
  (∀ (s t : State) (i : Instr), (∀ id, i ≠ .int id) → exec i s = .next t → t.isLocked = false → t.pending = s.pending) ∧
  (∀ s : State, (intCheck s).pending = s.pending ∨
    (s.pending = some keyboardId ∧ (intCheck s).pending = none ∧ Config.keyAnswer s.free = some ((intCheck s).reg 0))) ∧
  (∀ s : State, s.pending = some keyboardId →
    (Config.keyAnswer s.free = none ∧ (intCheck s).pending = some keyboardId ∧
      intCheck (intCheck s) = serviceKeyboard (Config.keyAnswer (s.free + 1)) (intCheck s).draw) ∨
    (Config.keyAnswer s.free = some ((intCheck s).reg 0) ∧ (intCheck s).pending = none)) ∧
  ∀ (o : Mnemonic → Byte) (image : List Byte) (b c : Block),
    hostCommand o (.reset image) b = .next c → c.core.pending = none

/-- A step over int KBD_ID ends past the instruction: with no key ready the machine waits, running false and the request
pending; with a key ready the key is in x[0], running true and nothing pending. From any state t that waits, a frame
tick of any budget executes nothing: with no key ready it leaves t waiting, with one ready the key is in x[0], running
true and nothing pending; pc and every other register stay. Which answer comes is the input collaborator's. [R196,
R209, R210, R211, R235, 92_eei_decisions.md D21, D26] -/
def Obligations.KeyboardRequestWaitsForAKey : Prop :=
  (∀ (o : Mnemonic → Byte) (s : State), Function.Injective o → s.isLocked = false → NextInstr o s (.int keyboardId) →
    ∃ t, stepWith o s = .next t ∧ t.pc = after s.pc 2 ∧ SameRegsBut [0] s t ∧
      ((Config.keyAnswer s.free = none ∧ WaitingForKey t ∧ t.reg 0 = s.reg 0) ∨
        (Config.keyAnswer s.free = some (t.reg 0) ∧ t.running = true ∧ t.pending = none))) ∧
  ∀ (o : Mnemonic → Byte) (t : State) (budget : Nat), WaitingForKey t →
    ∃ u, frameTick o budget t = .next u ∧ u.pc = t.pc ∧ SameRegsBut [0] t u ∧
      ((Config.keyAnswer t.free = none ∧ WaitingForKey u ∧ u.reg 0 = t.reg 0) ∨
        (Config.keyAnswer t.free = some (u.reg 0) ∧ u.running = true ∧ u.pending = none))

/-- If running is false and the machine is not locked, a frame tick with any budget is the one final IntCheck; if moreover
the keyboard's request is not pending, it changes nothing at all, which is so where the run has ended, with or without
a request outstanding (D31). [R211, R221, R235, R246, 92_eei_decisions.md D26, D31] -/
def Obligations.StoppedMachineOnlyChecksInterrupts : Prop :=
  ∀ (o : Mnemonic → Byte) (s : State) (budget : Nat), s.isLocked = false → s.running = false →
    frameTick o budget s = .next (intCheck s) ∧ (s.pending ≠ some keyboardId → frameTick o budget s = .next s) ∧
    (Ended s ∨ EndedWithRequest s → s.pending ≠ some keyboardId)

/-- For every block right after reset, under every opcode map, with any SPEED: the run (setRunning(true), then frame ticks
and nothing else, R246) has a block after every number of ticks, the first one running, so that no run has ended
before its first tick; a block that has ended, with or without a request outstanding (D31), or is locked stays the
same for ever; and the run has exactly one fate: it ends, waits for ever, runs for ever, locks, or stops with
UnknownOpcode latched, which R246 does not call an end and R247 leaves to the claim (log 31). If a frame tick takes a
machine that runs to a state that has ended, then steps lead from the first state to one in which halt is the next
instruction, and pc is the address after that halt. [R246, R247, R202, R203, R30, R101, R210, R235,
92_eei_decisions.md D26, D31, D35] -/
def Obligations.RunHasOneFate : Prop :=
  (∀ (o : Mnemonic → Byte) (b : Block), PostReset o b →
    (∀ k, ∃ c, RunAt o b k c ∧ c.speed = b.speed ∧ (k = 0 → c.core.running = true ∧ c.core.pc = 0)) ∧
    (∀ k c, RunAt o b k c → Ended c.core ∨ EndedWithRequest c.core ∨ c.core.isLocked = true →
      ∀ j, k ≤ j → RunAt o b j c) ∧
    ∃! f : Fate, HasFate o b f) ∧
  ∀ (o : Mnemonic → Byte) (s t : State) (budget : Nat), s.running = true → frameTick o budget s = .next t →
    Ended t ∨ EndedWithRequest t → ∃ u, Reaches o s u ∧ fetch o u = .ok .halt ∧ t.pc = adv u.pc 1

/-- For every budget and every injective opcode map: if the machine runs, is not locked, has no keyboard request pending,
pc is in memory and the opcode of nop stands at the next ceil(budget / 4) addresses the advance reaches from pc,
across the end of memory too, then the frame tick answers the same state with pc that many advances on. With budget 16
that is 4 instructions. [R235, R236, R237, R238, 92_eei_decisions.md D6, D26] -/
def Obligations.NopFrameRunsCeilingOfQuarterBudget : Prop :=
  ∀ (o : Mnemonic → Byte) (s : State) (budget : Nat), Function.Injective o → s.isLocked = false → s.running = true →
    s.pending ≠ some keyboardId → s.pc.toNat < Config.memSize →
    (∀ k, k < (budget + 3) / 4 → s.mem.get (after s.pc k).toNat = o .nop) →
    frameTick o budget s = .next { s with pc := after s.pc ((budget + 3) / 4) }

/-- If the machine runs, is not locked and has no keyboard request pending, then a frame tick with a budget above 0 over
halt, anywhere in memory, executes it and nothing more, leaving running false; over int of an id other than KBD_ID it
executes it and nothing more, leaving running true and the request latched and unserviced (D21); over int KBD_ID it
executes it and nothing more, whatever the budget: with a key ready at the check after it, the key is in x[0], running
is true and nothing is pending; with none ready there, the frame's last check asks once more, and the machine waits or
has that key in x[0], running true and nothing pending (D26). [R101, R196, R209, R210, R212, R235, R236,
92_eei_decisions.md D6, D21, D22, D26, D27] -/
def Obligations.HaltAndIntEndTheFrame : Prop :=
  ∀ (o : Mnemonic → Byte) (s : State) (budget : Nat), Function.Injective o → s.isLocked = false → s.running = true →
    s.pending ≠ some keyboardId → 0 < budget →
    (NextInstr o s .halt → frameTick o budget s = .next { s with pc := after s.pc 1, running := false }) ∧
    (∀ id, id ≠ keyboardId → NextInstr o s (.int id) →
      frameTick o budget s = .next { s with pc := after s.pc 2, pending := some id }) ∧
    (NextInstr o s (.int keyboardId) →
      ∃ t, frameTick o budget s = .next t ∧ t.pc = after s.pc 2 ∧ SameRegsBut [0] s t ∧ t.sp = s.sp ∧
        t.flags = s.flags ∧ t.mem = s.mem ∧ t.fault = s.fault ∧ t.locked = s.locked ∧
        ((Config.keyAnswer s.free = some (t.reg 0) ∧ t.running = true ∧ t.pending = none) ∨
          (Config.keyAnswer s.free = none ∧ Config.keyAnswer (s.free + 1) = some (t.reg 0) ∧ t.running = true ∧
            t.pending = none) ∨
          (Config.keyAnswer s.free = none ∧ Config.keyAnswer (s.free + 1) = none ∧ WaitingForKey t ∧
            t.reg 0 = s.reg 0)))

/-- costOf gives REST for halt and int alone and four cycles for every other mnemonic, and a Step under an injective
opcode map costs what its mnemonic does; a Step over an unknown opcode byte costs four cycles (D11, D27). [R236, R68,
92_eei_decisions.md D11, D27] -/
def Obligations.CycleCosts : Prop :=
  (∀ m : Mnemonic, costOf m = .rest ↔ (m = .halt ∨ m = .int)) ∧
    (∀ m : Mnemonic, m ≠ .halt → m ≠ .int → costOf m = .cycles 4) ∧
    (∀ (o : Mnemonic → Byte) (s : State) (m : Mnemonic), Function.Injective o → s.mem.get s.pc.toNat = o m →
      stepCost o s = costOf m) ∧
    ∀ (o : Mnemonic → Byte) (s : State), (∀ m, o m ≠ s.mem.get s.pc.toNat) → stepCost o s = .cycles 4

/-- On a machine that is not locked setRunning(b) answers the same block with running b, pending kept; a locked machine
ignores the command (D5, D35, log 21). If the request is the keyboard's and the host resumes the machine, then after
one instruction that neither locks it nor replaces the request comes the check (D26, log 12): with no key there
running is false again and the request kept; with a key there the key is in x[0] (D22, log 9), running is true and the
request cleared. [R242, R209, R210, R211, R222, R234, 92_eei_decisions.md D5, D22, D26, D35] -/
def Obligations.SetRunningChangesRunningOnly : Prop :=
  ∀ (o : Mnemonic → Byte) (b : Block) (r : Bool),
    (b.core.isLocked = false → hostCommand o (.setRunning r) b = .next { b with core := { b.core with running := r } }) ∧
    (b.core.isLocked = true → hostCommand o (.setRunning r) b = .next b) ∧
    (b.core.isLocked = false → b.core.pending = some keyboardId → ∀ c, hostCommand o (.setRunning true) b = .next c →
      c.core.running = true ∧ c.core.pending = some keyboardId ∧
      ∀ u, coreStep o c.core = .next u → u.isLocked = false → u.pending = some keyboardId →
        ∃ v, stepWith o c.core = .next v ∧
          ((Config.keyAnswer u.free = none ∧ v.running = false ∧ v.pending = some keyboardId) ∨
            (Config.keyAnswer u.free = some (v.reg 0) ∧ v.running = true ∧ v.pending = none)))

/-- On a machine that is not locked setSpeed(v) answers the same block with speed v, its core untouched; the cycle budget
is then floor(v * 1000000 / FRAME_RATE), whose rounding is decision D33 (log 14), and the next frame tick runs the
core with it; reset of an image that fits leaves speed as it was. A locked machine ignores setSpeed (D35). [R243,
R237, R234, R235, 92_eei_decisions.md D33, D35] -/
def Obligations.SetSpeedRecomputesTheBudget : Prop :=
  ∀ (o : Mnemonic → Byte) (b : Block) (v : Nat),
    (b.core.isLocked = true → hostCommand o (.setSpeed v) b = .next b) ∧
    (b.core.isLocked = false →
      ∃ c, hostCommand o (.setSpeed v) b = .next c ∧ c = { b with speed := v } ∧
        c.cycleBudget = v * 1000000 / Config.frameRate ∧
        hostCommand o .frameTick c = c.withCore (frameTick o (v * 1000000 / Config.frameRate) c.core) ∧
        ∀ image, image.length ≤ Config.memSize → ∃ d, hostCommand o (.reset image) c = .next d ∧ d.speed = v)

/-- For every instruction and every state, if the same instruction runs with other flags (for a branch: other C and V
only) and the first run does not lock the machine, the second run ends in the same state, with the other flags where
the instruction is no compare. [R28, R150] -/
def Obligations.OnlyBranchesReadFlags : Prop :=
  ∀ (i : Instr) (s t : State) (f : Flags), exec i s = .next t → t.isLocked = false →
    (isBranch i = true → f.zero = s.flags.zero ∧ f.negative = s.flags.negative) →
    exec i (s.setFlags f) = .next (if isCompare i then t else t.setFlags f)

/-- For every instruction and state, if exec answers a next state that is not locked: registers outside its destination
(and x[0] for the divisions) are unchanged; sp is unchanged unless it is push, pop, jsr, jsra or ret, which move it by
4; flags are unchanged unless it is cmp or cmpi; every byte outside the bytes it stores (at the address its meaning
uses) reads as before; running changes only by halt, pending only by int; the fault latch and the lock are unchanged.
[R28, R21, R23, R26, R29, R30, R43, 46_loads_stores.md, 47_stack.md] -/
def Obligations.InstructionFrame : Prop :=
  ∀ (i : Instr) (s t : State), exec i s = .next t → t.isLocked = false →
    SameRegsBut (writtenRegs i) s t ∧ (isCompare i = false → t.flags = s.flags) ∧ (movesStack i = false → t.sp = s.sp) ∧
    (t.sp = s.sp ∨ t.sp = s.sp - 4 ∨ t.sp = s.sp + 4) ∧
    SameMemoryOutside (storedBytes i s).1 (storedBytes i s).2 s t ∧
    (storesMemory i = false → SameMemory s t) ∧
    (i ≠ .halt → t.running = s.running) ∧ ((∀ id, i ≠ .int id) → t.pending = s.pending) ∧
    t.fault = s.fault ∧ t.locked = s.locked

/-- On a machine that is not locked, with canonical memory, a write of a byte below MEM_SIZE answers a next block with
that byte there, every other byte and field unchanged and memory canonical. If the byte is one of those of an
instruction where the next fetch reads it, under an injective opcode map, and the instruction's other bytes stood
there before, then the next step runs that instruction; if it is at pc and no opcode, the next Step latches
UnknownOpcode with it. An address at or above MEM_SIZE is refused by name (D30). [R245, R54, R67, 92_eei_decisions.md
D30] -/
def Obligations.HostMemoryWriteIsFetched : Prop :=
  ∀ (o : Mnemonic → Byte) (b : Block) (a : Nat) (v : Byte), Function.Injective o → b.core.isLocked = false →
    b.core.mem.wf = true →
    (a < Config.memSize → ∃ c, hostCommand o (.writeMemory a v) b = .next c ∧
      c = { b with core := { b.core with mem := c.core.mem } } ∧ c.core.mem.wf = true ∧
      c.core.mem.get a = v ∧ (∀ x, x ≠ a → c.core.mem.get x = b.core.mem.get x) ∧
      (∀ i : Instr, b.core.pc.toNat < Config.memSize →
        (∀ k, k < (encodeWith o i).length →
          (encodeWith o i).getD k 0 = storedOver b.core a [v] (fetchAddress i.mnemonic.format b.core.pc k)) →
        stepWith o c.core = thenIntCheck (exec i c.core)) ∧
      (b.core.pc.toNat = a → (∀ m, o m ≠ v) →
        ∃ t, coreStep o c.core = .next t ∧ t.fault = some (b.core.fault.getD (.unknownOpcode v b.core.pc)))) ∧
    (Config.memSize ≤ a → hostCommand o (.writeMemory a v) b = .refused .addressOutOfRange)
end

