-- ==== Sys2Proof/Laws/Decode.lean ====
section
/-! SUPPORT. What the decoder's and the encoder's parts do: the opcode byte, a register byte, a four-byte operand. -/

namespace Sys2Proof

/-- Every mnemonic is listed. -/
theorem Mnemonic.mem_all (m : Mnemonic) : m ∈ Mnemonic.all := by cases m <;> decide

/-- The opcode table of R66 is injective, which is all a statement may assume of a map. -/
theorem opc_injective : Function.Injective Config.opc := by
  intro a b h
  revert h
  cases a <;> cases b <;> decide

/-- What is decoded from an opcode byte has that byte. -/
theorem decodeOpcode_some {o : Mnemonic → Byte} {b : Byte} {m : Mnemonic} (h : decodeOpcode o b = some m) : o m = b := by
  simpa using List.find?_some h

/-- Under an injective map the opcode byte of a mnemonic decodes to it. -/
theorem decodeOpcode_of_injective {o : Mnemonic → Byte} (ho : Function.Injective o) (m : Mnemonic) :
    decodeOpcode o (o m) = some m := by
  cases h : decodeOpcode o (o m) with
  | some m' => rw [ho (decodeOpcode_some h)]
  | none => exact absurd (List.find?_eq_none.1 h m m.mem_all) (by simp)

/-- A byte that is no mnemonic's decodes to none, and only such a byte. -/
theorem decodeOpcode_eq_none {o : Mnemonic → Byte} {b : Byte} : decodeOpcode o b = none ↔ ∀ m, o m ≠ b := by
  simp [decodeOpcode, List.find?_eq_none, Mnemonic.mem_all]

@[simp] theorem registerOf_registerByte (r : Reg) : registerOf (registerByte r) = some r := by
  revert r; decide

/-- What a register byte decodes to has that byte. -/
theorem registerByte_of_registerOf {b : Byte} {r : Reg} (h : registerOf b = some r) : registerByte r = b := by
  unfold registerOf at h
  split at h
  · cases h
    exact BitVec.eq_of_toNat_eq (by simp [registerByte])
  · cases h

/-- A register byte above 15 names no register. -/
theorem registerOf_eq_none {b : Byte} : registerOf b = none ↔ 15 < b.toNat := by
  unfold registerOf
  split <;> simp <;> omega

/-- A four-byte operand is the value its bytes spell. -/
@[simp] theorem longOf_longBytes (v : Word) :
    longOf (v.extractLsb' 24 8) (v.extractLsb' 16 8) (v.extractLsb' 8 8) (v.extractLsb' 0 8) = v := by
  apply BitVec.eq_of_getLsbD_eq
  intro i hi
  simp only [longOf, BitVec.getLsbD_append, BitVec.getLsbD_extractLsb']
  by_cases h1 : i < 8
  · simp [h1]
  · by_cases h2 : i < 16
    · simp [h1, show i - 8 < 8 by omega, show 8 + (i - 8) = i by omega]
    · by_cases h3 : i < 24
      · simp [h1, show ¬ i - 8 < 8 by omega, show i - 8 - 8 < 8 by omega, show 16 + (i - 8 - 8) = i by omega]
      · simp [h1, show ¬ i - 8 < 8 by omega, show ¬ i - 8 - 8 < 8 by omega, show i - 8 - 8 - 8 < 8 by omega,
          show 24 + (i - 8 - 8 - 8) = i by omega]

/-- The bytes of the value four bytes spell are those four. -/
theorem longBytes_longOf (b0 b1 b2 b3 : Byte) : longBytes (longOf b0 b1 b2 b3) = [b0, b1, b2, b3] := by
  simp only [longBytes, List.cons.injEq, and_true]
  refine ⟨?_, ?_, ?_, ?_⟩
  all_goals
    apply BitVec.eq_of_getLsbD_eq
    intro i hi
    simp only [longOf, BitVec.getLsbD_append, BitVec.getLsbD_extractLsb', hi, decide_true, Bool.true_and]
  · simp [show ¬ 24 + i < 8 by omega, show ¬ 24 + i - 8 < 8 by omega, show ¬ 24 + i - 8 - 8 < 8 by omega,
      show 24 + i - 8 - 8 - 8 = i by omega]
  · simp only [show ¬ 16 + i < 8 by omega, show ¬ 16 + i - 8 < 8 by omega,
      show 16 + i - 8 - 8 = i by omega, if_true, if_false, hi]
  · simp [show ¬ 8 + i < 8 by omega, hi]
  · simp [hi]

@[simp] theorem length_longBytes (v : Word) : (longBytes v).length = 4 := rfl

end Sys2Proof
end

