-- ==== Sys2Proof/Laws/Memory.lean ====
section
/-! SUPPORT. What the memory operations do: one byte, a run of bytes, the canonical form, and the big-endian value of bytes. -/

namespace Sys2Proof.Machine

namespace Memory

@[simp] theorem lookup_nil (a : Nat) : lookup a [] = unlisted := rfl

theorem lookup_cons (a b : Nat) (v : Byte) (rest : List Host.Cell) :
    lookup a ((b, v) :: rest) = if a = b then v else lookup a rest := rfl

theorem cellsOk_cons {lo b : Nat} {v : Byte} {rest : List Host.Cell} :
    cellsOk lo ((b, v) :: rest) = true ↔
      lo ≤ b ∧ b < Config.memSize ∧ v ≠ unlisted ∧ cellsOk (b + 1) rest = true := by
  simp [cellsOk, and_assoc]

theorem cellsOk_mono {lo lo' : Nat} (h : lo' ≤ lo) : ∀ {cells : List Host.Cell}, cellsOk lo cells = true → cellsOk lo' cells = true
  | [], _ => rfl
  | (b, v) :: rest, hc => by
    rw [cellsOk_cons] at hc ⊢
    exact ⟨h.trans hc.1, hc.2⟩

/-- Below the first address a canonical list may hold, everything reads as unlisted. -/
theorem lookup_of_lt {lo a : Nat} (h : a < lo) : ∀ {cells : List Host.Cell}, cellsOk lo cells = true → lookup a cells = unlisted
  | [], _ => rfl
  | (b, v) :: rest, hc => by
    rw [cellsOk_cons] at hc
    rw [lookup_cons, if_neg (by omega)]
    exact lookup_of_lt (by omega) hc.2.2.2

/-- No byte stands at or above `MEM_SIZE`. -/
theorem lookup_of_memSize_le {a : Nat} (h : Config.memSize ≤ a) :
    ∀ {lo : Nat} {cells : List Host.Cell}, cellsOk lo cells = true → lookup a cells = unlisted
  | _, [], _ => rfl
  | _, (b, v) :: rest, hc => by
    rw [cellsOk_cons] at hc
    rw [lookup_cons, if_neg (by omega)]
    exact lookup_of_memSize_le h hc.2.2.2

/-- The address written reads as the value written. -/
theorem lookup_insert_self (a : Nat) (v : Byte) :
    ∀ {lo : Nat} {cells : List Host.Cell}, cellsOk lo cells = true → lookup a (insert a v cells) = v
  | _, [], _ => by
    by_cases hv : v = unlisted <;> simp [insert, hv, lookup_cons]
  | _, (b, w) :: rest, hc => by
    rw [cellsOk_cons] at hc
    obtain ⟨-, -, -, hrest⟩ := hc
    simp only [insert]
    split
    · rename_i hab
      split
      · rename_i hv
        rw [lookup_cons, if_neg (by omega), lookup_of_lt (by omega) hrest, hv]
      · simp [lookup_cons]
    · split
      · rename_i hab
        split
        · rename_i hv
          rw [lookup_of_lt (by omega) hrest, hv]
        · simp [lookup_cons]
      · rename_i hne
        rw [lookup_cons, if_neg hne]
        exact lookup_insert_self a v hrest

/-- Every other address reads as before. -/
theorem lookup_insert_of_ne {a c : Nat} (v : Byte) (h : c ≠ a) :
    ∀ {cells : List Host.Cell}, lookup c (insert a v cells) = lookup c cells
  | [] => by
    by_cases hv : v = unlisted <;> simp [insert, hv, lookup_cons, h]
  | (b, w) :: rest => by
    simp only [insert]
    split
    · split
      · rfl
      · rw [lookup_cons, if_neg h]
    · split
      · rename_i hab
        split
        · rw [lookup_cons, if_neg (by omega)]
        · rw [lookup_cons, if_neg h, lookup_cons, if_neg (by omega)]
      · rw [lookup_cons, lookup_cons, lookup_insert_of_ne v h]

theorem cellsOk_insert {a : Nat} (v : Byte) (ha : a < Config.memSize) :
    ∀ {lo : Nat} {cells : List Host.Cell}, lo ≤ a → cellsOk lo cells = true → cellsOk lo (insert a v cells) = true
  | lo, [], hlo, _ => by
    by_cases hv : v = unlisted <;> simp [insert, hv, cellsOk, hlo, ha]
  | lo, (b, w) :: rest, hlo, hc => by
    have hc' := hc
    rw [cellsOk_cons] at hc
    obtain ⟨h1, h2, h3, h4⟩ := hc
    simp only [insert]
    split
    · split
      · exact hc'
      · exact cellsOk_cons.2 ⟨hlo, ha, ‹_›, cellsOk_cons.2 ⟨by omega, h2, h3, h4⟩⟩
    · split
      · split
        · exact cellsOk_mono (by omega) h4
        · exact cellsOk_cons.2 ⟨hlo, ha, ‹_›, cellsOk_mono (by omega) h4⟩
      · exact cellsOk_cons.2 ⟨h1, h2, h3, cellsOk_insert v ha (by omega) h4⟩

@[simp] theorem empty_get (a : Nat) : empty.get a = 0 := rfl

@[simp] theorem empty_wf : empty.wf = true := rfl

theorem get_of_memSize_le {m : Memory} (h : m.wf = true) {a : Nat} (ha : Config.memSize ≤ a) : m.get a = unlisted :=
  lookup_of_memSize_le ha h

/-- A write of one byte keeps the canonical form. -/
theorem wf_set {m : Memory} (h : m.wf = true) (a : Nat) (v : Byte) : (m.set a v).wf = true := by
  unfold set
  split
  · exact cellsOk_insert v ‹_› (Nat.zero_le _) h
  · exact h

theorem get_set_self {m : Memory} (h : m.wf = true) {a : Nat} (ha : a < Config.memSize) (v : Byte) :
    (m.set a v).get a = v := by
  simp only [set, if_pos ha, get]
  exact lookup_insert_self a v h

@[simp] theorem get_set_of_ne {m : Memory} {a c : Nat} (v : Byte) (h : c ≠ a) : (m.set a v).get c = m.get c := by
  unfold set
  split
  · exact lookup_insert_of_ne v h
  · rfl

/-- A run of writes keeps the canonical form. -/
theorem wf_storeBytes : ∀ (bytes : List Byte) {m : Memory} (a : Nat), m.wf = true → (m.storeBytes a bytes).wf = true
  | [], _, _, h => h
  | b :: rest, _, a, h => wf_storeBytes rest (a + 1) (wf_set h a b)

@[simp] theorem storeBytes_nil (m : Memory) (a : Nat) : m.storeBytes a [] = m := rfl

theorem storeBytes_cons (m : Memory) (a : Nat) (b : Byte) (rest : List Byte) :
    m.storeBytes a (b :: rest) = (m.set a b).storeBytes (a + 1) rest := rfl

/-- A run of writes leaves every byte outside it. -/
theorem get_storeBytes_outside : ∀ (bytes : List Byte) (m : Memory) (a c : Nat),
    (c < a ∨ a + bytes.length ≤ c) → (m.storeBytes a bytes).get c = m.get c
  | [], _, _, _, _ => rfl
  | b :: rest, m, a, c, h => by
    simp only [List.length_cons] at h
    rw [storeBytes_cons, get_storeBytes_outside rest _ (a + 1) c (by omega), get_set_of_ne b (by omega)]

/-- A run of writes that fits in memory leaves its bytes there. -/
theorem get_storeBytes_inside : ∀ (bytes : List Byte) {m : Memory} (a k : Nat), m.wf = true →
    a + bytes.length ≤ Config.memSize → k < bytes.length → (m.storeBytes a bytes).get (a + k) = bytes.getD k 0
  | [], _, _, _, _, _, hk => absurd hk (Nat.not_lt_zero _)
  | b :: rest, m, a, k, h, hf, hk => by
    simp only [List.length_cons] at hf hk
    rw [storeBytes_cons]
    match k with
    | 0 =>
      rw [get_storeBytes_outside rest _ (a + 1) _ (by omega)]
      simpa using get_set_self h (by omega) b
    | k + 1 =>
      have := get_storeBytes_inside rest (a + 1) k (wf_set h a b) (by omega) (by omega)
      rw [show a + (k + 1) = a + 1 + k by omega, this]
      simp

@[simp] theorem length_loadBytes (m : Memory) : ∀ (n a : Nat), (m.loadBytes a n).length = n
  | 0, _ => rfl
  | n + 1, a => by simp [loadBytes, length_loadBytes m n]

/-- A run of bytes depends only on the bytes it covers. -/
theorem loadBytes_congr {m m' : Memory} : ∀ (n a : Nat), (∀ k, k < n → m.get (a + k) = m'.get (a + k)) →
    m.loadBytes a n = m'.loadBytes a n
  | 0, _, _ => rfl
  | n + 1, a, h => by
    have hrest : m.loadBytes (a + 1) n = m'.loadBytes (a + 1) n := loadBytes_congr n (a + 1) fun k hk => by
      have := h (k + 1) (by omega)
      rwa [show a + (k + 1) = a + 1 + k by omega] at this
    have hfirst : m.get a = m'.get a := h 0 (by omega)
    simp only [loadBytes, hrest, hfirst]

/-- A run of bytes is the list whose bytes memory holds there. -/
theorem loadBytes_eq {m : Memory} : ∀ (bytes : List Byte) (a : Nat),
    (∀ k, k < bytes.length → m.get (a + k) = bytes.getD k 0) → m.loadBytes a bytes.length = bytes
  | [], _, _ => rfl
  | b :: rest, a, h => by
    have hrest : m.loadBytes (a + 1) rest.length = rest := loadBytes_eq rest (a + 1) fun k hk => by
      have := h (k + 1) (by simpa using hk)
      rw [show a + (k + 1) = a + 1 + k by omega] at this
      simpa using this
    have hfirst : m.get a = b := by simpa using h 0 (by simp)
    simp only [List.length_cons, loadBytes, hrest, hfirst]

/-- What was stored is what is loaded from the same place. -/
theorem loadBytes_storeBytes {m : Memory} (h : m.wf = true) (bytes : List Byte) (a : Nat)
    (hf : a + bytes.length ≤ Config.memSize) : (m.storeBytes a bytes).loadBytes a bytes.length = bytes :=
  loadBytes_eq bytes a fun k hk => get_storeBytes_inside bytes a k h hf hk

/-- An installed image keeps the canonical form. -/
theorem wf_ofImage (image : List Byte) : (ofImage image).wf = true := wf_storeBytes image 0 empty_wf

end Memory

/-- The big-endian value of bytes is below what their number allows. -/
theorem beNat_lt : ∀ bytes : List Byte, beNat bytes < 256 ^ bytes.length
  | [] => by simp [beNat]
  | b :: rest => by
    have h1 := beNat_lt rest
    have h2 : b.toNat + 1 ≤ 256 := b.isLt
    calc beNat (b :: rest) < b.toNat * 256 ^ rest.length + 256 ^ rest.length := by
          simp only [beNat]; omega
      _ = (b.toNat + 1) * 256 ^ rest.length := by ring
      _ ≤ 256 * 256 ^ rest.length := Nat.mul_le_mul_right _ h2
      _ = 256 ^ (b :: rest).length := by rw [List.length_cons, pow_succ, mul_comm]

@[simp] theorem length_beBytes : ∀ (n v : Nat), (beBytes n v).length = n
  | 0, _ => rfl
  | n + 1, v => by simp [beBytes, length_beBytes n]

/-- The bytes of a value spell the value, cut to their number. -/
theorem beNat_beBytes : ∀ (n v : Nat), beNat (beBytes n v) = v % 256 ^ n
  | 0, v => by simp [beNat, beBytes, Nat.mod_one]
  | n + 1, v => by
    simp only [beBytes, beNat, length_beBytes, beNat_beBytes n v, BitVec.toNat_ofNat]
    rw [show (2 : Nat) ^ 8 = 256 by norm_num, pow_succ, Nat.mod_mul]
    ring

end Sys2Proof.Machine
end

