-- ==== Sys2Proof/Laws/State.lean ====
section
/-! SUPPORT. What each update of a state leaves in each field, so that no proof unfolds a record update. The
proofs are written `(rfl)`, so that `simp` uses the lemmas as rewrites: a definitional step through an update makes the
kernel compare every field, and that of `pc` can be a large term. -/

namespace Sys2Proof.Machine

@[simp] theorem State.setReg_pc (s : State) (r : Reg) (v : Word) : (s.setReg r v).pc = s.pc := (rfl)
@[simp] theorem State.setReg_sp (s : State) (r : Reg) (v : Word) : (s.setReg r v).sp = s.sp := (rfl)
@[simp] theorem State.setReg_flags (s : State) (r : Reg) (v : Word) : (s.setReg r v).flags = s.flags := (rfl)
@[simp] theorem State.setReg_mem (s : State) (r : Reg) (v : Word) : (s.setReg r v).mem = s.mem := (rfl)
@[simp] theorem State.setReg_pending (s : State) (r : Reg) (v : Word) : (s.setReg r v).pending = s.pending := (rfl)
@[simp] theorem State.setReg_running (s : State) (r : Reg) (v : Word) : (s.setReg r v).running = s.running := (rfl)
@[simp] theorem State.setReg_fault (s : State) (r : Reg) (v : Word) : (s.setReg r v).fault = s.fault := (rfl)
@[simp] theorem State.setReg_locked (s : State) (r : Reg) (v : Word) : (s.setReg r v).locked = s.locked := (rfl)
@[simp] theorem State.setReg_free (s : State) (r : Reg) (v : Word) : (s.setReg r v).free = s.free := (rfl)

@[simp] theorem State.setPc_pc (s : State) (p : Word) : (s.setPc p).pc = p := (rfl)
@[simp] theorem State.setPc_sp (s : State) (p : Word) : (s.setPc p).sp = s.sp := (rfl)
@[simp] theorem State.setPc_flags (s : State) (p : Word) : (s.setPc p).flags = s.flags := (rfl)
@[simp] theorem State.setPc_mem (s : State) (p : Word) : (s.setPc p).mem = s.mem := (rfl)
@[simp] theorem State.setPc_pending (s : State) (p : Word) : (s.setPc p).pending = s.pending := (rfl)
@[simp] theorem State.setPc_running (s : State) (p : Word) : (s.setPc p).running = s.running := (rfl)
@[simp] theorem State.setPc_fault (s : State) (p : Word) : (s.setPc p).fault = s.fault := (rfl)
@[simp] theorem State.setPc_locked (s : State) (p : Word) : (s.setPc p).locked = s.locked := (rfl)
@[simp] theorem State.setPc_free (s : State) (p : Word) : (s.setPc p).free = s.free := (rfl)
@[simp] theorem State.setPc_reg (s : State) (p : Word) (q : Reg) : (s.setPc p).reg q = s.reg q := (rfl)

@[simp] theorem State.setSp_pc (s : State) (v : Word) : (s.setSp v).pc = s.pc := (rfl)
@[simp] theorem State.setSp_sp (s : State) (v : Word) : (s.setSp v).sp = v := (rfl)
@[simp] theorem State.setSp_flags (s : State) (v : Word) : (s.setSp v).flags = s.flags := (rfl)
@[simp] theorem State.setSp_mem (s : State) (v : Word) : (s.setSp v).mem = s.mem := (rfl)
@[simp] theorem State.setSp_pending (s : State) (v : Word) : (s.setSp v).pending = s.pending := (rfl)
@[simp] theorem State.setSp_running (s : State) (v : Word) : (s.setSp v).running = s.running := (rfl)
@[simp] theorem State.setSp_fault (s : State) (v : Word) : (s.setSp v).fault = s.fault := (rfl)
@[simp] theorem State.setSp_locked (s : State) (v : Word) : (s.setSp v).locked = s.locked := (rfl)
@[simp] theorem State.setSp_free (s : State) (v : Word) : (s.setSp v).free = s.free := (rfl)
@[simp] theorem State.setSp_reg (s : State) (v : Word) (q : Reg) : (s.setSp v).reg q = s.reg q := (rfl)

@[simp] theorem State.setMem_pc (s : State) (m : Memory) : (s.setMem m).pc = s.pc := (rfl)
@[simp] theorem State.setMem_sp (s : State) (m : Memory) : (s.setMem m).sp = s.sp := (rfl)
@[simp] theorem State.setMem_flags (s : State) (m : Memory) : (s.setMem m).flags = s.flags := (rfl)
@[simp] theorem State.setMem_mem (s : State) (m : Memory) : (s.setMem m).mem = m := (rfl)
@[simp] theorem State.setMem_pending (s : State) (m : Memory) : (s.setMem m).pending = s.pending := (rfl)
@[simp] theorem State.setMem_running (s : State) (m : Memory) : (s.setMem m).running = s.running := (rfl)
@[simp] theorem State.setMem_fault (s : State) (m : Memory) : (s.setMem m).fault = s.fault := (rfl)
@[simp] theorem State.setMem_locked (s : State) (m : Memory) : (s.setMem m).locked = s.locked := (rfl)
@[simp] theorem State.setMem_free (s : State) (m : Memory) : (s.setMem m).free = s.free := (rfl)
@[simp] theorem State.setMem_reg (s : State) (m : Memory) (q : Reg) : (s.setMem m).reg q = s.reg q := (rfl)

@[simp] theorem State.setRunning_pc (s : State) (b : Bool) : (s.setRunning b).pc = s.pc := (rfl)
@[simp] theorem State.setRunning_sp (s : State) (b : Bool) : (s.setRunning b).sp = s.sp := (rfl)
@[simp] theorem State.setRunning_flags (s : State) (b : Bool) : (s.setRunning b).flags = s.flags := (rfl)
@[simp] theorem State.setRunning_mem (s : State) (b : Bool) : (s.setRunning b).mem = s.mem := (rfl)
@[simp] theorem State.setRunning_pending (s : State) (b : Bool) : (s.setRunning b).pending = s.pending := (rfl)
@[simp] theorem State.setRunning_running (s : State) (b : Bool) : (s.setRunning b).running = b := (rfl)
@[simp] theorem State.setRunning_fault (s : State) (b : Bool) : (s.setRunning b).fault = s.fault := (rfl)
@[simp] theorem State.setRunning_locked (s : State) (b : Bool) : (s.setRunning b).locked = s.locked := (rfl)
@[simp] theorem State.setRunning_free (s : State) (b : Bool) : (s.setRunning b).free = s.free := (rfl)
@[simp] theorem State.setRunning_reg (s : State) (b : Bool) (q : Reg) : (s.setRunning b).reg q = s.reg q := (rfl)

@[simp] theorem State.setPending_pc (s : State) (p : Option Byte) : (s.setPending p).pc = s.pc := (rfl)
@[simp] theorem State.setPending_sp (s : State) (p : Option Byte) : (s.setPending p).sp = s.sp := (rfl)
@[simp] theorem State.setPending_flags (s : State) (p : Option Byte) : (s.setPending p).flags = s.flags := (rfl)
@[simp] theorem State.setPending_mem (s : State) (p : Option Byte) : (s.setPending p).mem = s.mem := (rfl)
@[simp] theorem State.setPending_pending (s : State) (p : Option Byte) : (s.setPending p).pending = p := (rfl)
@[simp] theorem State.setPending_running (s : State) (p : Option Byte) : (s.setPending p).running = s.running := (rfl)
@[simp] theorem State.setPending_fault (s : State) (p : Option Byte) : (s.setPending p).fault = s.fault := (rfl)
@[simp] theorem State.setPending_locked (s : State) (p : Option Byte) : (s.setPending p).locked = s.locked := (rfl)
@[simp] theorem State.setPending_free (s : State) (p : Option Byte) : (s.setPending p).free = s.free := (rfl)
@[simp] theorem State.setPending_reg (s : State) (p : Option Byte) (q : Reg) : (s.setPending p).reg q = s.reg q := (rfl)

@[simp] theorem State.setFlags_pc (s : State) (f : Flags) : (s.setFlags f).pc = s.pc := (rfl)
@[simp] theorem State.setFlags_sp (s : State) (f : Flags) : (s.setFlags f).sp = s.sp := (rfl)
@[simp] theorem State.setFlags_flags (s : State) (f : Flags) : (s.setFlags f).flags = f := (rfl)
@[simp] theorem State.setFlags_mem (s : State) (f : Flags) : (s.setFlags f).mem = s.mem := (rfl)
@[simp] theorem State.setFlags_pending (s : State) (f : Flags) : (s.setFlags f).pending = s.pending := (rfl)
@[simp] theorem State.setFlags_running (s : State) (f : Flags) : (s.setFlags f).running = s.running := (rfl)
@[simp] theorem State.setFlags_fault (s : State) (f : Flags) : (s.setFlags f).fault = s.fault := (rfl)
@[simp] theorem State.setFlags_locked (s : State) (f : Flags) : (s.setFlags f).locked = s.locked := (rfl)
@[simp] theorem State.setFlags_free (s : State) (f : Flags) : (s.setFlags f).free = s.free := (rfl)
@[simp] theorem State.setFlags_reg (s : State) (f : Flags) (q : Reg) : (s.setFlags f).reg q = s.reg q := (rfl)

@[simp] theorem State.advance_pc (s : State) (n : Nat) : (s.advance n).pc = adv s.pc n := (rfl)
@[simp] theorem State.advance_sp (s : State) (n : Nat) : (s.advance n).sp = s.sp := (rfl)
@[simp] theorem State.advance_flags (s : State) (n : Nat) : (s.advance n).flags = s.flags := (rfl)
@[simp] theorem State.advance_mem (s : State) (n : Nat) : (s.advance n).mem = s.mem := (rfl)
@[simp] theorem State.advance_pending (s : State) (n : Nat) : (s.advance n).pending = s.pending := (rfl)
@[simp] theorem State.advance_running (s : State) (n : Nat) : (s.advance n).running = s.running := (rfl)
@[simp] theorem State.advance_fault (s : State) (n : Nat) : (s.advance n).fault = s.fault := (rfl)
@[simp] theorem State.advance_locked (s : State) (n : Nat) : (s.advance n).locked = s.locked := (rfl)
@[simp] theorem State.advance_free (s : State) (n : Nat) : (s.advance n).free = s.free := (rfl)
@[simp] theorem State.advance_reg (s : State) (n : Nat) (q : Reg) : (s.advance n).reg q = s.reg q := (rfl)

@[simp] theorem State.latch_pc (s : State) (f : FaultRecord) : (s.latch f).pc = s.pc := (rfl)
@[simp] theorem State.latch_sp (s : State) (f : FaultRecord) : (s.latch f).sp = s.sp := (rfl)
@[simp] theorem State.latch_flags (s : State) (f : FaultRecord) : (s.latch f).flags = s.flags := (rfl)
@[simp] theorem State.latch_mem (s : State) (f : FaultRecord) : (s.latch f).mem = s.mem := (rfl)
@[simp] theorem State.latch_pending (s : State) (f : FaultRecord) : (s.latch f).pending = s.pending := (rfl)
@[simp] theorem State.latch_running (s : State) (f : FaultRecord) : (s.latch f).running = s.running := (rfl)
@[simp] theorem State.latch_fault (s : State) (f : FaultRecord) : (s.latch f).fault = some (s.fault.getD f) := (rfl)
@[simp] theorem State.latch_locked (s : State) (f : FaultRecord) : (s.latch f).locked = s.locked := (rfl)
@[simp] theorem State.latch_free (s : State) (f : FaultRecord) : (s.latch f).free = s.free := (rfl)
@[simp] theorem State.latch_reg (s : State) (f : FaultRecord) (q : Reg) : (s.latch f).reg q = s.reg q := (rfl)

@[simp] theorem State.draw_pc (s : State) : (s.draw).pc = s.pc := (rfl)
@[simp] theorem State.draw_sp (s : State) : (s.draw).sp = s.sp := (rfl)
@[simp] theorem State.draw_flags (s : State) : (s.draw).flags = s.flags := (rfl)
@[simp] theorem State.draw_mem (s : State) : (s.draw).mem = s.mem := (rfl)
@[simp] theorem State.draw_pending (s : State) : (s.draw).pending = s.pending := (rfl)
@[simp] theorem State.draw_running (s : State) : (s.draw).running = s.running := (rfl)
@[simp] theorem State.draw_fault (s : State) : (s.draw).fault = s.fault := (rfl)
@[simp] theorem State.draw_locked (s : State) : (s.draw).locked = s.locked := (rfl)
@[simp] theorem State.draw_free (s : State) : (s.draw).free = s.free + 1 := (rfl)
@[simp] theorem State.draw_reg (s : State) (q : Reg) : (s.draw).reg q = s.reg q := (rfl)

@[simp] theorem State.opcodeFetched_pc (s : State) : (s.opcodeFetched).pc = adv s.pc 1 := (rfl)
@[simp] theorem State.opcodeFetched_sp (s : State) : (s.opcodeFetched).sp = s.sp := (rfl)
@[simp] theorem State.opcodeFetched_flags (s : State) : (s.opcodeFetched).flags = s.flags := (rfl)
@[simp] theorem State.opcodeFetched_mem (s : State) : (s.opcodeFetched).mem = s.mem := (rfl)
@[simp] theorem State.opcodeFetched_pending (s : State) : (s.opcodeFetched).pending = s.pending := (rfl)
@[simp] theorem State.opcodeFetched_running (s : State) : (s.opcodeFetched).running = s.running := (rfl)
@[simp] theorem State.opcodeFetched_fault (s : State) : (s.opcodeFetched).fault = s.fault := (rfl)
@[simp] theorem State.opcodeFetched_locked (s : State) : (s.opcodeFetched).locked = s.locked := (rfl)
@[simp] theorem State.opcodeFetched_free (s : State) : (s.opcodeFetched).free = s.free := (rfl)
@[simp] theorem State.opcodeFetched_reg (s : State) (q : Reg) : (s.opcodeFetched).reg q = s.reg q := (rfl)

@[simp] theorem State.byteFetched_pc (s : State) : (s.byteFetched).pc = adv s.pc 1 := (rfl)
@[simp] theorem State.byteFetched_sp (s : State) : (s.byteFetched).sp = s.sp := (rfl)
@[simp] theorem State.byteFetched_flags (s : State) : (s.byteFetched).flags = s.flags := (rfl)
@[simp] theorem State.byteFetched_mem (s : State) : (s.byteFetched).mem = s.mem := (rfl)
@[simp] theorem State.byteFetched_pending (s : State) : (s.byteFetched).pending = s.pending := (rfl)
@[simp] theorem State.byteFetched_running (s : State) : (s.byteFetched).running = s.running := (rfl)
@[simp] theorem State.byteFetched_fault (s : State) : (s.byteFetched).fault = s.fault := (rfl)
@[simp] theorem State.byteFetched_locked (s : State) : (s.byteFetched).locked = s.locked := (rfl)
@[simp] theorem State.byteFetched_free (s : State) : (s.byteFetched).free = s.free := (rfl)
@[simp] theorem State.byteFetched_reg (s : State) (q : Reg) : (s.byteFetched).reg q = s.reg q := (rfl)

@[simp] theorem State.fetchedR_pc (s : State) : (s.fetchedR).pc = adv (adv s.pc 1) 1 := (rfl)
@[simp] theorem State.fetchedR_sp (s : State) : (s.fetchedR).sp = s.sp := (rfl)
@[simp] theorem State.fetchedR_flags (s : State) : (s.fetchedR).flags = s.flags := (rfl)
@[simp] theorem State.fetchedR_mem (s : State) : (s.fetchedR).mem = s.mem := (rfl)
@[simp] theorem State.fetchedR_pending (s : State) : (s.fetchedR).pending = s.pending := (rfl)
@[simp] theorem State.fetchedR_running (s : State) : (s.fetchedR).running = s.running := (rfl)
@[simp] theorem State.fetchedR_fault (s : State) : (s.fetchedR).fault = s.fault := (rfl)
@[simp] theorem State.fetchedR_locked (s : State) : (s.fetchedR).locked = s.locked := (rfl)
@[simp] theorem State.fetchedR_free (s : State) : (s.fetchedR).free = s.free := (rfl)
@[simp] theorem State.fetchedR_reg (s : State) (q : Reg) : (s.fetchedR).reg q = s.reg q := (rfl)

@[simp] theorem State.fetchedRR_pc (s : State) : (s.fetchedRR).pc = adv (adv (adv s.pc 1) 1) 1 := (rfl)
@[simp] theorem State.fetchedRR_sp (s : State) : (s.fetchedRR).sp = s.sp := (rfl)
@[simp] theorem State.fetchedRR_flags (s : State) : (s.fetchedRR).flags = s.flags := (rfl)
@[simp] theorem State.fetchedRR_mem (s : State) : (s.fetchedRR).mem = s.mem := (rfl)
@[simp] theorem State.fetchedRR_pending (s : State) : (s.fetchedRR).pending = s.pending := (rfl)
@[simp] theorem State.fetchedRR_running (s : State) : (s.fetchedRR).running = s.running := (rfl)
@[simp] theorem State.fetchedRR_fault (s : State) : (s.fetchedRR).fault = s.fault := (rfl)
@[simp] theorem State.fetchedRR_locked (s : State) : (s.fetchedRR).locked = s.locked := (rfl)
@[simp] theorem State.fetchedRR_free (s : State) : (s.fetchedRR).free = s.free := (rfl)
@[simp] theorem State.fetchedRR_reg (s : State) (q : Reg) : (s.fetchedRR).reg q = s.reg q := (rfl)

/-- A register reads as what was last written to it, and a write to one leaves the others. -/
theorem State.setReg_reg (s : State) (r q : Reg) (v : Word) :
    (s.setReg r v).reg q = if q = r then v else s.reg q := by
  simp only [State.setReg, State.reg, Vector.get_eq_getElem, Vector.getElem_set, Fin.ext_iff (a := q)]
  simp only [eq_comm]

@[simp] theorem State.setReg_reg_self (s : State) (r : Reg) (v : Word) : (s.setReg r v).reg r = v := by
  simp [State.setReg_reg]

theorem State.setReg_reg_of_ne (s : State) {r q : Reg} (v : Word) (h : q ≠ r) : (s.setReg r v).reg q = s.reg q := by
  simp [State.setReg_reg, h]

@[simp] theorem State.afterReset_reg (m : Memory) (f : Flags) (n : Nat) (r : Reg) :
    (State.afterReset m f n).reg r = 0 := by
  simp [State.afterReset, State.reg, Vector.get_eq_getElem]

@[simp] theorem State.afterReset_pc (m : Memory) (f : Flags) (n : Nat) : (State.afterReset m f n).pc = 0 := (rfl)
@[simp] theorem State.afterReset_sp (m : Memory) (f : Flags) (n : Nat) : (State.afterReset m f n).sp = Config.spReset := (rfl)
@[simp] theorem State.afterReset_flags (m : Memory) (f : Flags) (n : Nat) : (State.afterReset m f n).flags = f := (rfl)
@[simp] theorem State.afterReset_mem (m : Memory) (f : Flags) (n : Nat) : (State.afterReset m f n).mem = m := (rfl)
@[simp] theorem State.afterReset_pending (m : Memory) (f : Flags) (n : Nat) : (State.afterReset m f n).pending = none := (rfl)
@[simp] theorem State.afterReset_running (m : Memory) (f : Flags) (n : Nat) : (State.afterReset m f n).running = false := (rfl)
@[simp] theorem State.afterReset_fault (m : Memory) (f : Flags) (n : Nat) : (State.afterReset m f n).fault = none := (rfl)
@[simp] theorem State.afterReset_locked (m : Memory) (f : Flags) (n : Nat) : (State.afterReset m f n).locked = false := (rfl)
@[simp] theorem State.afterReset_free (m : Memory) (f : Flags) (n : Nat) : (State.afterReset m f n).free = n := (rfl)

@[simp] theorem State.lock_fault (s : State) : s.lock.fault = s.fault := (rfl)
@[simp] theorem State.lock_locked (s : State) : s.lock.locked = true := (rfl)
@[simp] theorem State.lock_free (s : State) : s.lock.free = s.free + 1 := (rfl)
@[simp] theorem State.lock_mem (s : State) : s.lock.mem = Memory.ofImage (Config.lockedBytes s.free) := (rfl)

end Sys2Proof.Machine
end

