-- ==== Sys2Proof/Laws/Ops.lean ====
section
/-! SUPPORT. What each shared operation can do, said once: when it goes on and with what, and the fault it raises otherwise. -/

namespace Sys2Proof.Machine

@[simp] theorem inRange_iff {a n : Nat} : inRange a n = true ↔ a + n ≤ Config.memSize := by simp [inRange]

theorem inRange_eq_false {a n : Nat} : inRange a n = false ↔ Config.memSize < a + n := by simp [inRange]

/-- A `Word` has the width `XLEN` of the configuration (R6). -/
theorem word_width : Word = BitVec Config.xlen := rfl

/-- There are `NREG` register indices (R6). -/
theorem reg_count : Reg = Fin Config.nreg := rfl

/-- The default of the configuration: the quotient is unsigned (R121). -/
@[simp] theorem divRem_fst_toNat (a b : Word) : (divRem a b).1.toNat = a.toNat / b.toNat :=
  (BitVec.toNat_ofNat _ _).trans (Nat.mod_eq_of_lt ((Nat.div_le_self _ _).trans_lt a.isLt))

/-- The default of the configuration: the remainder is unsigned (R121). -/
@[simp] theorem divRem_snd_toNat (a b : Word) : (divRem a b).2.toNat = a.toNat % b.toNat :=
  (BitVec.toNat_ofNat _ _).trans (Nat.mod_eq_of_lt ((Nat.mod_le _ _).trans_lt a.isLt))

/-- The default of the configuration: unsigned order (R145). -/
@[simp] theorem less_unsigned (a b : Word) : less a b = decide (a.toNat < b.toNat) := rfl

@[simp] theorem greater_unsigned (a b : Word) : greater a b = decide (b.toNat < a.toNat) := rfl

/-- The reset value of the stack pointer is `VIDEO_BASE`, whatever `VIDEO_SIZE` is. -/
theorem spReset_toNat : Config.spReset.toNat = Config.videoBase := by
  have h : Config.videoBase < 2 ^ 32 := by simp only [Config.videoBase, Config.memSize]; omega
  rw [Config.spReset, BitVec.toNat_ofNat, Nat.mod_eq_of_lt h]

theorem videoSize_le : Config.videoSize ≤ Config.memSize := Nat.min_le_right _ _

/-- After an advance the program counter is below the end of memory (R25). -/
theorem adv_lt (p : Word) (n : Nat) : (adv p n).toNat < Config.memSize := by
  unfold adv
  split
  · simp [Config.memSize]
  · have h : Config.memSize < 2 ^ 32 := by norm_num [Config.memSize]
    rw [BitVec.toNat_ofNat, Nat.mod_eq_of_lt (by omega)]
    omega

/-- An advance that stays in memory is an addition. -/
theorem adv_toNat {p : Word} {n : Nat} (h : p.toNat + n < Config.memSize) : (adv p n).toNat = p.toNat + n := by
  have h' : Config.memSize < 2 ^ 32 := by norm_num [Config.memSize]
  rw [adv, if_neg (by omega), BitVec.toNat_ofNat, Nat.mod_eq_of_lt (by omega)]

/-- An advance that reaches the end of memory wraps to 0 exactly. -/
theorem adv_wrap {p : Word} {n : Nat} (h : Config.memSize ≤ p.toNat + n) : adv p n = 0 := by rw [adv, if_pos h]

section Raise

/-- Whatever is raised, the latch then holds the first fault since reset. -/
@[simp] theorem State.raise_fault (s : State) (f : FaultRecord) : (s.raise f).fault = some (s.fault.getD f) := by
  unfold State.raise
  split <;> rfl

/-- A fatal fault locks the machine. -/
theorem State.raise_locked {f : FaultRecord} (h : f.isFatal = true) (s : State) : (s.raise f).locked = true := by
  simp [State.raise, h]

theorem State.raise_isLocked {f : FaultRecord} (h : f.isFatal = true) (s : State) : (s.raise f).isLocked = true := by
  simp [State.isLocked, State.raise_locked h]

/-- A fault that is not fatal changes the latch alone. -/
theorem State.raise_of_not_fatal {f : FaultRecord} (h : f.isFatal = false) (s : State) : s.raise f = s.latch f := by
  simp [State.raise, h]

/-- Raising keeps the canonical form of memory. -/
theorem State.raise_mem_wf {s : State} (h : s.mem.wf = true) (f : FaultRecord) : (s.raise f).mem.wf = true := by
  unfold State.raise
  split
  · exact Memory.wf_ofImage _
  · exact h

end Raise

section Access

/-- A read in range gives the big-endian value of its bytes. -/
theorem Memory.read_of_inRange {a n : Nat} (h : a + n ≤ Config.memSize) (m : Memory) :
    m.read a n = some (beNat (m.loadBytes a n)) := by simp [Memory.read, h]

theorem Memory.read_of_outOfRange {a n : Nat} (h : Config.memSize < a + n) (m : Memory) : m.read a n = none := by
  simp [Memory.read, h]

theorem Memory.write_of_inRange {a n : Nat} (h : a + n ≤ Config.memSize) (m : Memory) (v : Nat) :
    m.write a n v = some (m.storeBytes a (beBytes n v)) := by simp [Memory.write, h]

theorem Memory.write_of_outOfRange {a n : Nat} (h : Config.memSize < a + n) (m : Memory) (v : Nat) : m.write a n v = none := by
  simp [Memory.write, h]

theorem State.load4_of_inRange {s : State} {a : Word} (h : a.toNat + 4 ≤ Config.memSize) (k : Word → State) :
    s.load4 a k = k (BitVec.ofNat 32 (beNat (s.mem.loadBytes a.toNat 4))) := by
  simp [State.load4, Memory.read_of_inRange h]

theorem State.load4_of_outOfRange {s : State} {a : Word} (h : Config.memSize < a.toNat + 4) (k : Word → State) :
    s.load4 a k = s.raise (.memoryFault a) := by
  simp [State.load4, Memory.read_of_outOfRange h]

theorem State.store_of_inRange {s : State} {a : Word} {n v : Nat} (h : a.toNat + n ≤ Config.memSize) (k : State → State) :
    s.store a n v k = k (s.setMem (s.mem.storeBytes a.toNat (beBytes n v))) := by
  simp [State.store, Memory.write_of_inRange h]

theorem State.store_of_outOfRange {s : State} {a : Word} {n v : Nat} (h : Config.memSize < a.toNat + n) (k : State → State) :
    s.store a n v k = s.raise (.memoryFault a) := by
  simp [State.store, Memory.write_of_outOfRange h]

/-- A push that fits: the stack pointer is four lower and the value stands there. -/
theorem State.push_of_inRange {s : State} {v : Word} (h : (s.sp - 4).toNat + 4 ≤ Config.memSize) (k : State → State) :
    s.push v k = k ((s.setSp (s.sp - 4)).setMem (s.mem.storeBytes (s.sp - 4).toNat (beBytes 4 v.toNat))) := by
  simp only [State.push, State.store_of_inRange h, State.setSp_mem]

theorem State.push_of_outOfRange {s : State} {v : Word} (h : Config.memSize < (s.sp - 4).toNat + 4) (k : State → State) :
    s.push v k = (s.setSp (s.sp - 4)).raise (.memoryFault (s.sp - 4)) := by
  simp only [State.push, State.store_of_outOfRange h]

/-- A pop that fits: the value at the stack pointer, which is then four higher. -/
theorem State.pop_of_inRange {s : State} (h : s.sp.toNat + 4 ≤ Config.memSize) (k : Word → State → State) :
    s.pop k = k (BitVec.ofNat 32 (beNat (s.mem.loadBytes s.sp.toNat 4))) (s.setSp (s.sp + 4)) := by
  simp only [State.pop, State.load4_of_inRange h]

theorem State.pop_of_outOfRange {s : State} (h : Config.memSize < s.sp.toNat + 4) (k : Word → State → State) :
    s.pop k = s.raise (.memoryFault s.sp) := by
  simp only [State.pop, State.load4_of_outOfRange h]

theorem State.longFetched_of_inRange {s : State} (h : s.pc.toNat + 4 ≤ Config.memSize) (k : State → State) :
    s.longFetched k = k (s.advance 4) := by simp [State.longFetched, h]

theorem State.longFetched_of_outOfRange {s : State} (h : Config.memSize < s.pc.toNat + 4) (k : State → State) :
    s.longFetched k = s.raise (.memoryFault s.pc) := by
  simp [State.longFetched, h]

end Access

section Inversion

/-- What a load can end in: the rest of the instruction with the value read, or the fault. -/
theorem State.load4_cases (s : State) (a : Word) (k : Word → State) :
    (∃ v, a.toNat + 4 ≤ Config.memSize ∧ s.load4 a k = k v) ∨ s.load4 a k = s.raise (.memoryFault a) := by
  by_cases hr : a.toNat + 4 ≤ Config.memSize
  · exact .inl ⟨_, hr, State.load4_of_inRange hr k⟩
  · exact .inr (State.load4_of_outOfRange (by omega) k)

/-- What a store can end in: the rest of the instruction on the state with the bytes stored, or the fault. -/
theorem State.store_cases (s : State) (a : Word) (n v : Nat) (k : State → State) :
    (a.toNat + n ≤ Config.memSize ∧ s.store a n v k = k (s.setMem (s.mem.storeBytes a.toNat (beBytes n v)))) ∨
      s.store a n v k = s.raise (.memoryFault a) := by
  by_cases hr : a.toNat + n ≤ Config.memSize
  · exact .inl ⟨hr, State.store_of_inRange hr k⟩
  · exact .inr (State.store_of_outOfRange (by omega) k)

/-- What a push can end in: the rest of the instruction with the value in its slot, or the fault. -/
theorem State.push_cases (s : State) (v : Word) (k : State → State) :
    ((s.sp - 4).toNat + 4 ≤ Config.memSize ∧
        s.push v k = k ((s.setSp (s.sp - 4)).setMem (s.mem.storeBytes (s.sp - 4).toNat (beBytes 4 v.toNat)))) ∨
      s.push v k = (s.setSp (s.sp - 4)).raise (.memoryFault (s.sp - 4)) := by
  by_cases hr : (s.sp - 4).toNat + 4 ≤ Config.memSize
  · exact .inl ⟨hr, State.push_of_inRange hr k⟩
  · exact .inr (State.push_of_outOfRange (by omega) k)

/-- What a pop can end in: the rest of the instruction with the value popped, or the fault. -/
theorem State.pop_cases (s : State) (k : Word → State → State) :
    (∃ v, s.sp.toNat + 4 ≤ Config.memSize ∧ s.pop k = k v (s.setSp (s.sp + 4))) ∨
      s.pop k = s.raise (.memoryFault s.sp) := by
  by_cases hr : s.sp.toNat + 4 ≤ Config.memSize
  · exact .inl ⟨_, hr, State.pop_of_inRange hr k⟩
  · exact .inr (State.pop_of_outOfRange (by omega) k)

/-- What the fetch of a four-byte operand can end in. -/
theorem State.longFetched_cases (s : State) (k : State → State) :
    (s.pc.toNat + 4 ≤ Config.memSize ∧ s.longFetched k = k (s.advance 4)) ∨
      s.longFetched k = s.raise (.memoryFault s.pc) := by
  by_cases hr : s.pc.toNat + 4 ≤ Config.memSize
  · exact .inl ⟨hr, State.longFetched_of_inRange hr k⟩
  · exact .inr (State.longFetched_of_outOfRange (by omega) k)

/-- What a division can end in: the two writes, or the fault. -/
theorem divideInto_cases (r1 : Reg) (a b a0 : Word) (s : State) :
    (b ≠ 0 ∧ divideInto r1 a b a0 s = (s.setReg r1 (divRem a b).1).setReg 0 (divRem a b).2) ∨
      (b = 0 ∧ divideInto r1 a b a0 s = s.raise (.divideByZero a0)) := by
  by_cases hb : b = 0
  · exact .inr ⟨hb, if_pos hb⟩
  · exact .inl ⟨hb, if_neg hb⟩

/-- A taken branch fetches its operand and goes to it. -/
theorem branch_taken {c : Bool} (hc : c = true) (addr : Word) (s : State) :
    branch c addr s = s.opcodeFetched.longFetched fun s' => s'.setPc addr := by subst hc; rfl

/-- A branch that is not taken advances past its operand. -/
theorem branch_notTaken {c : Bool} (hc : c = false) (addr : Word) (s : State) :
    branch c addr s = s.opcodeFetched.advance 4 := by subst hc; rfl

/-- What a branch can end in: not taken, taken, or the fault of a taken branch's operand. -/
theorem branch_cases (c : Bool) (addr : Word) (s : State) :
    (c = false ∧ branch c addr s = s.opcodeFetched.advance 4) ∨
      (c = true ∧ branch c addr s = (s.opcodeFetched.advance 4).setPc addr) ∨
      (c = true ∧ branch c addr s = s.opcodeFetched.raise (.memoryFault s.opcodeFetched.pc)) := by
  cases c with
  | false => exact .inl ⟨rfl, branch_notTaken rfl addr s⟩
  | true =>
    rw [branch_taken rfl]
    rcases s.opcodeFetched.longFetched_cases fun s' => s'.setPc addr with ⟨-, h⟩ | h
    · exact .inr (.inl ⟨rfl, h⟩)
    · exact .inr (.inr ⟨rfl, h⟩)

/-- What `IntCheck` can do: nothing, stop the machine, or deliver a key. -/
theorem intCheck_cases (s : State) :
    (s.pending ≠ some keyboardId ∧ intCheck s = s) ∨
      (s.pending = some keyboardId ∧ Config.keyAnswer s.free = none ∧ intCheck s = s.draw.setRunning false) ∨
      (s.pending = some keyboardId ∧ ∃ k, Config.keyAnswer s.free = some k ∧
        intCheck s = ((s.draw.setReg 0 k).setRunning true).setPending none) := by
  by_cases hp : s.pending = some keyboardId
  · cases hk : Config.keyAnswer s.free with
    | none => exact .inr (.inl ⟨hp, rfl, by simp [intCheck, hp, hk, serviceKeyboard]⟩)
    | some k => exact .inr (.inr ⟨hp, k, rfl, by simp [intCheck, hp, hk, serviceKeyboard]⟩)
  · exact .inl ⟨hp, by simp [intCheck, hp]⟩

end Inversion

/-- The value of a word is what its four bytes spell. -/
@[simp] theorem beNat_beBytes_word (v : Word) : beNat (beBytes 4 v.toNat) = v.toNat := by
  rw [beNat_beBytes, Nat.mod_eq_of_lt (by simpa using v.isLt)]

end Sys2Proof.Machine
end

