-- ==== Sys2Proof/Laws/PerInstr.lean ====
section
/-! SUPPORT. Statements made per instruction. `LaidOut`: the bytes the encoder gives an instruction are laid out as its
mnemonic's format says (spec 30_encoding R61), as many as the format has and a register's index at each register position. -/

namespace Sys2Proof.Laws.LaidOut

/-- The encoding of an instruction has the layout of its format. -/
def Statement (i : Instr) : Prop := WellFormed.laidOutAs i.mnemonic (encode i) = true

theorem registerByte_ok (r : Reg) : WellFormed.registerByteOk (registerByte r) = true := by revert r; decide

theorem layout_R (r1 : Reg) {i : Instr} (hf : i.mnemonic.format = .R) (hb : operandBytes i = [registerByte r1]) : Statement i := by
  simp [Statement, WellFormed.laidOutAs, encode, encodeWith, hf, hb, Format.length, Format.registerPositions, registerByte_ok]

theorem layout_RR (r1 r2 : Reg) {i : Instr} (hf : i.mnemonic.format = .RR) (hb : operandBytes i = [registerByte r1, registerByte r2]) : Statement i := by
  simp [Statement, WellFormed.laidOutAs, encode, encodeWith, hf, hb, Format.length, Format.registerPositions, registerByte_ok]

theorem layout_RI (r1 : Reg) (v : Word) {i : Instr} (hf : i.mnemonic.format = .RI) (hb : operandBytes i = registerByte r1 :: longBytes v) : Statement i := by
  simp [Statement, WellFormed.laidOutAs, encode, encodeWith, hf, hb, Format.length, Format.registerPositions, longBytes, registerByte_ok]

theorem layout_A (v : Word) {i : Instr} (hf : i.mnemonic.format = .A) (hb : operandBytes i = longBytes v) : Statement i := by
  simp [Statement, WellFormed.laidOutAs, encode, encodeWith, hf, hb, Format.length, Format.registerPositions, longBytes]

theorem layout_RB (r1 : Reg) (n : Byte) {i : Instr} (hf : i.mnemonic.format = .RB) (hb : operandBytes i = [registerByte r1, n]) : Statement i := by
  simp [Statement, WellFormed.laidOutAs, encode, encodeWith, hf, hb, Format.length, Format.registerPositions, registerByte_ok]

theorem layout_B (n : Byte) {i : Instr} (hf : i.mnemonic.format = .B) (hb : operandBytes i = [n]) : Statement i := by
  simp [Statement, WellFormed.laidOutAs, encode, encodeWith, hf, hb, Format.length, Format.registerPositions]

theorem nop : Statement (.nop) := rfl
theorem halt : Statement (.halt) := rfl
theorem add (r1 r2 : Reg) : Statement (.add r1 r2) := layout_RR r1 r2 rfl rfl
theorem sub (r1 r2 : Reg) : Statement (.sub r1 r2) := layout_RR r1 r2 rfl rfl
theorem mul (r1 r2 : Reg) : Statement (.mul r1 r2) := layout_RR r1 r2 rfl rfl
theorem mulu (r1 r2 : Reg) : Statement (.mulu r1 r2) := layout_RR r1 r2 rfl rfl
theorem div (r1 r2 : Reg) : Statement (.div r1 r2) := layout_RR r1 r2 rfl rfl
theorem divu (r1 r2 : Reg) : Statement (.divu r1 r2) := layout_RR r1 r2 rfl rfl
theorem and (r1 r2 : Reg) : Statement (.and r1 r2) := layout_RR r1 r2 rfl rfl
theorem or (r1 r2 : Reg) : Statement (.or r1 r2) := layout_RR r1 r2 rfl rfl
theorem xor (r1 r2 : Reg) : Statement (.xor r1 r2) := layout_RR r1 r2 rfl rfl
theorem addi (r1 : Reg) (v : Word) : Statement (.addi r1 v) := layout_RI r1 v rfl rfl
theorem subi (r1 : Reg) (v : Word) : Statement (.subi r1 v) := layout_RI r1 v rfl rfl
theorem muli (r1 : Reg) (v : Word) : Statement (.muli r1 v) := layout_RI r1 v rfl rfl
theorem divi (r1 : Reg) (v : Word) : Statement (.divi r1 v) := layout_RI r1 v rfl rfl
theorem andi (r1 : Reg) (v : Word) : Statement (.andi r1 v) := layout_RI r1 v rfl rfl
theorem ori (r1 : Reg) (v : Word) : Statement (.ori r1 v) := layout_RI r1 v rfl rfl
theorem xori (r1 : Reg) (v : Word) : Statement (.xori r1 v) := layout_RI r1 v rfl rfl
theorem neg (r1 : Reg) : Statement (.neg r1) := layout_R r1 rfl rfl
theorem not (r1 : Reg) : Statement (.not r1) := layout_R r1 rfl rfl
theorem cmp (r1 r2 : Reg) : Statement (.cmp r1 r2) := layout_RR r1 r2 rfl rfl
theorem cmpi (r1 : Reg) (v : Word) : Statement (.cmpi r1 v) := layout_RI r1 v rfl rfl
theorem beq (addr : Word) : Statement (.beq addr) := layout_A addr rfl rfl
theorem bne (addr : Word) : Statement (.bne addr) := layout_A addr rfl rfl
theorem bge (addr : Word) : Statement (.bge addr) := layout_A addr rfl rfl
theorem bgeu (addr : Word) : Statement (.bgeu addr) := layout_A addr rfl rfl
theorem bgt (addr : Word) : Statement (.bgt addr) := layout_A addr rfl rfl
theorem bgtu (addr : Word) : Statement (.bgtu addr) := layout_A addr rfl rfl
theorem ble (addr : Word) : Statement (.ble addr) := layout_A addr rfl rfl
theorem bleu (addr : Word) : Statement (.bleu addr) := layout_A addr rfl rfl
theorem blt (addr : Word) : Statement (.blt addr) := layout_A addr rfl rfl
theorem bltu (addr : Word) : Statement (.bltu addr) := layout_A addr rfl rfl
theorem ld (r1 : Reg) (v : Word) : Statement (.ld r1 v) := layout_RI r1 v rfl rfl
theorem lda (r1 : Reg) (v : Word) : Statement (.lda r1 v) := layout_RI r1 v rfl rfl
theorem ldi (r1 : Reg) (v : Word) : Statement (.ldi r1 v) := layout_RI r1 v rfl rfl
theorem ldr (r1 r2 : Reg) : Statement (.ldr r1 r2) := layout_RR r1 r2 rfl rfl
theorem stb (r1 r2 : Reg) : Statement (.stb r1 r2) := layout_RR r1 r2 rfl rfl
theorem sta (r1 : Reg) (v : Word) : Statement (.sta r1 v) := layout_RI r1 v rfl rfl
theorem push (r1 : Reg) : Statement (.push r1) := layout_R r1 rfl rfl
theorem pop (r1 : Reg) : Statement (.pop r1) := layout_R r1 rfl rfl
theorem jmp (r1 : Reg) : Statement (.jmp r1) := layout_R r1 rfl rfl
theorem jmpa (addr : Word) : Statement (.jmpa addr) := layout_A addr rfl rfl
theorem jsr (r1 : Reg) : Statement (.jsr r1) := layout_R r1 rfl rfl
theorem jsra (addr : Word) : Statement (.jsra addr) := layout_A addr rfl rfl
theorem ret : Statement (.ret) := rfl
theorem rnd (r1 : Reg) (bound : Byte) : Statement (.rnd r1 bound) := layout_RB r1 bound rfl rfl
theorem int (id : Byte) : Statement (.int id) := layout_B id rfl rfl

end Sys2Proof.Laws.LaidOut
end

