-- ==== Sys2Proof/Laws/Step.lean ====
section
/-! SUPPORT. What a fetch, the interrupt check, a step, a frame and a command of the host can do. -/

namespace Sys2Proof.Machine

/-- A fetch without an instruction ends in a fatal fault of the state as it was, or past an unknown opcode. -/
theorem fetch_error {o : Mnemonic → Byte} {s t : State} (h : fetch o s = .error t) :
    (∃ f : FaultRecord, f.isFatal = true ∧ t = s.raise f) ∨
      ∃ op, t = (s.advance 1).latch (.unknownOpcode op s.pc) := by
  unfold fetch at h
  split at h
  · split at h
    · cases h
    · rename_i e _
      cases h
      cases e with
      | unknownOpcode op => exact .inr ⟨op, rfl⟩
      | invalidRegister p b => exact .inl ⟨_, rfl, rfl⟩
      | truncated p => exact .inl ⟨_, rfl, rfl⟩
  · cases h
    exact .inl ⟨_, rfl, rfl⟩

section IntCheck

@[simp] theorem intCheck_mem (s : State) : (intCheck s).mem = s.mem := by
  rcases intCheck_cases s with ⟨_, h⟩ | ⟨_, _, h⟩ | ⟨_, _, _, h⟩ <;> simp [h]

@[simp] theorem intCheck_pc (s : State) : (intCheck s).pc = s.pc := by
  rcases intCheck_cases s with ⟨_, h⟩ | ⟨_, _, h⟩ | ⟨_, _, _, h⟩ <;> simp [h]

@[simp] theorem intCheck_sp (s : State) : (intCheck s).sp = s.sp := by
  rcases intCheck_cases s with ⟨_, h⟩ | ⟨_, _, h⟩ | ⟨_, _, _, h⟩ <;> simp [h]

@[simp] theorem intCheck_flags (s : State) : (intCheck s).flags = s.flags := by
  rcases intCheck_cases s with ⟨_, h⟩ | ⟨_, _, h⟩ | ⟨_, _, _, h⟩ <;> simp [h]

@[simp] theorem intCheck_fault (s : State) : (intCheck s).fault = s.fault := by
  rcases intCheck_cases s with ⟨_, h⟩ | ⟨_, _, h⟩ | ⟨_, _, _, h⟩ <;> simp [h]

@[simp] theorem intCheck_locked (s : State) : (intCheck s).locked = s.locked := by
  rcases intCheck_cases s with ⟨_, h⟩ | ⟨_, _, h⟩ | ⟨_, _, _, h⟩ <;> simp [h]

@[simp] theorem intCheck_isLocked (s : State) : (intCheck s).isLocked = s.isLocked := by simp [State.isLocked]

/-- The check after a `Step` is made, or skipped on a locked machine. -/
theorem intCheckUnlessLocked_cases (s : State) :
    (s.isLocked = true ∧ intCheckUnlessLocked s = s) ∨ (s.isLocked = false ∧ intCheckUnlessLocked s = intCheck s) := by
  cases h : s.isLocked <;> simp [intCheckUnlessLocked, h]

end IntCheck

section Step

/-- The step of the machine is the one under the spec's opcode table. -/
theorem step_eq_stepWith (s : State) : step s = stepWith Config.opc s := rfl

/-- An instruction whose bytes are in the fetch window is fetched. -/
theorem fetch_of_decode {o : Mnemonic → Byte} {s : State} {i : Instr} (hp : s.pc.toNat < Config.memSize)
    (hd : decodeWith o (fetchWindow s.mem s.pc) = .ok i) : fetch o s = .ok i := by
  have hr : inRange s.pc.toNat 1 = true := inRange_iff.2 hp
  simp [fetch, hr, hd]

/-- An instruction always ends in a next state. -/
theorem exec_next (i : Instr) (s : State) : ∃ t, exec i s = .next t := by cases i <;> exact ⟨_, rfl⟩

theorem coreStep_of_locked {s : State} (h : s.isLocked = true) (o : Mnemonic → Byte) : coreStep o s = .fault .locked := by
  simp [coreStep, h]

/-- On a machine that is not locked, a `Step` is the fetched instruction's. -/
theorem coreStep_of_fetch {o : Mnemonic → Byte} {s : State} (hl : s.isLocked = false) {i : Instr} (hf : fetch o s = .ok i) :
    coreStep o s = exec i s := by simp [coreStep, hl, hf]

theorem coreStep_of_error {o : Mnemonic → Byte} {s t : State} (hl : s.isLocked = false) (hf : fetch o s = .error t) :
    coreStep o s = .next t := by simp [coreStep, hl, hf]

/-- A machine that is not locked has a `Step`. -/
theorem coreStep_next {s : State} (hl : s.isLocked = false) (o : Mnemonic → Byte) : ∃ t, coreStep o s = .next t := by
  cases hf : fetch o s with
  | ok i => rw [coreStep_of_fetch hl hf]; exact exec_next i s
  | error t => exact ⟨t, coreStep_of_error hl hf⟩

theorem stepWith_of_locked {s : State} (h : s.isLocked = true) (o : Mnemonic → Byte) : stepWith o s = .fault .locked := by
  simp [stepWith, coreStep_of_locked h, thenIntCheck]

/-- A step is a `Step`, followed by the check. -/
theorem stepWith_of_coreStep {o : Mnemonic → Byte} {s u : State} (h : coreStep o s = .next u) :
    stepWith o s = .next (intCheckUnlessLocked u) := by simp [stepWith, h, thenIntCheck]

/-- A step with a next state is a `Step` with one, followed by the check. -/
theorem stepWith_next {o : Mnemonic → Byte} {s t : State} (h : stepWith o s = .next t) :
    s.isLocked = false ∧ ∃ u, coreStep o s = .next u ∧ t = intCheckUnlessLocked u := by
  cases hl : s.isLocked with
  | true => simp [stepWith_of_locked hl] at h
  | false =>
    obtain ⟨u, hu⟩ := coreStep_next hl o
    rw [stepWith_of_coreStep hu] at h
    exact ⟨rfl, u, hu, (Host.Outcome.next.inj h).symm⟩

end Step

section Frame

/-- The frame loop ends when the machine is stopped, out of budget or locked. -/
theorem frameLoop_stop {s : State} {left : Nat} (h : s.running = false ∨ left = 0 ∨ s.isLocked = true)
    (o : Mnemonic → Byte) (turns : Nat) : frameLoop o turns left s = .next s := by
  cases turns with
  | zero => rfl
  | succ n => rcases h with h | h | h <;> simp [frameLoop, h]

/-- A turn of the frame loop: one step, and its cost taken off what is left. -/
theorem frameLoop_turn {o : Mnemonic → Byte} {s t : State} {left : Nat} (hr : s.running = true) (hb : 0 < left)
    (hl : s.isLocked = false) (hs : stepWith o s = .next t) (turns : Nat) :
    frameLoop o (turns + 1) left s = frameLoop o turns (leftAfter left (stepCost o s)) t := by
  simp [frameLoop, hr, hb, hl, hs]

/-- What every step keeps, the loop of a frame keeps, and it always has a next state. -/
theorem frameLoop_induction {o : Mnemonic → Byte} {P : State → Prop}
    (hP : ∀ s t, P s → s.running = true → stepWith o s = .next t → P t) (turns : Nat) :
    ∀ (left : Nat) (s : State), P s → ∃ t, frameLoop o turns left s = .next t ∧ P t := by
  induction turns with
  | zero => exact fun _ s h => ⟨s, rfl, h⟩
  | succ n ih =>
    intro left s h
    by_cases hgo : s.running = true ∧ 0 < left ∧ s.isLocked = false
    · obtain ⟨hr, hb, hl⟩ := hgo
      obtain ⟨u, hu⟩ := coreStep_next hl o
      have hs := stepWith_of_coreStep hu
      obtain ⟨t, ht, hp⟩ := ih (leftAfter left (stepCost o s)) _ (hP _ _ h hr hs)
      exact ⟨t, by rw [frameLoop_turn hr hb hl hs, ht], hp⟩
    · refine ⟨s, frameLoop_stop ?_ o _, h⟩
      cases hr : s.running <;> cases hl : s.isLocked <;> simp_all

/-- What every step and the interrupt check keep, a frame tick keeps, and it always has a next state. -/
theorem frameTick_induction {o : Mnemonic → Byte} {P : State → Prop}
    (hP : ∀ s t, P s → s.running = true → stepWith o s = .next t → P t)
    (hc : ∀ s, P s → s.isLocked = false → P (intCheck s)) (budget : Nat) {s : State} (h : P s) :
    ∃ t, frameTick o budget s = .next t ∧ P t := by
  obtain ⟨u, hu, hp⟩ := frameLoop_induction hP budget budget s h
  refine ⟨intCheckUnlessLocked u, by rw [frameTick, hu]; rfl, ?_⟩
  rcases intCheckUnlessLocked_cases u with ⟨-, h⟩ | ⟨hl, h⟩ <;> rw [h]
  · exact hp
  · exact hc u hp hl

/-- A frame tick of a locked machine does nothing. -/
theorem frameTick_of_locked {s : State} (h : s.isLocked = true) (o : Mnemonic → Byte) (budget : Nat) :
    frameTick o budget s = .next s := by
  simp [frameTick, frameLoop_stop (.inr (.inr h)), thenIntCheck, intCheckUnlessLocked, h]

/-- A frame tick of a stopped machine is one check. -/
theorem frameTick_of_stopped {s : State} (hl : s.isLocked = false) (h : s.running = false) (o : Mnemonic → Byte)
    (budget : Nat) : frameTick o budget s = .next (intCheck s) := by
  simp [frameTick, frameLoop_stop (.inl h), thenIntCheck, intCheckUnlessLocked, hl]

end Frame

section Host

@[simp] theorem Block.withCore_next (b : Block) (t : State) : b.withCore (.next t) = .next { b with core := t } := rfl

theorem Block.unlessLocked_of_locked {b : Block} (h : b.core.isLocked = true) (out : Host.Outcome Block Fault Refusal) :
    b.unlessLocked out = .next b := if_pos h

theorem Block.unlessLocked_of_unlocked {b : Block} (h : b.core.isLocked = false) (out : Host.Outcome Block Fault Refusal) :
    b.unlessLocked out = out := if_neg (by simp [h])

/-- A frame tick commanded by the host always has a next block, which differs in the core alone. -/
theorem hostCommand_frameTick (o : Mnemonic → Byte) (b : Block) :
    ∃ t, frameTick o b.cycleBudget b.core = .next t ∧ hostCommand o .frameTick b = .next { b with core := t } := by
  obtain ⟨t, ht, -⟩ := frameTick_induction (o := o) (P := fun _ => True) (fun _ _ _ _ _ => trivial)
    (fun _ _ _ => trivial) b.cycleBudget (s := b.core) trivial
  refine ⟨t, ht, ?_⟩
  cases hl : b.core.isLocked with
  | true =>
    rw [frameTick_of_locked hl] at ht
    cases ht
    simp [hostCommand, Block.unlessLocked_of_locked hl]
  | false => simp [hostCommand, Block.unlessLocked_of_unlocked hl, ht]

end Host

end Sys2Proof.Machine
end

