-- ==== Sys2Proof/Tests/Slice0.lean ====
section
/-! SUPPORT. Tests on fixed values and witnesses. The expected results are those of spec/95_test_vectors.md (the row is
named in each docstring) or are worked by hand from the rule named; the words are written out from the opcode table. A
theorem `witness_<Name>` shows values that meet the hypotheses of the obligation of that name. -/

namespace Sys2Proof.Tests

open Sys2Proof.Machine Sys2Proof.Safety

/-- The default state of 95_test_vectors section 2, whose `sp` is that of its own instantiation of `VIDEO_SIZE`, with `pc` and
bytes at `pc`. -/
def start (a : Nat) (bytes : List Byte) : State :=
  { State.reset with pc := BitVec.ofNat 32 a, sp := 0xF0000, running := true, mem := Memory.empty.storeBytes a bytes }

/-- More bytes in memory. -/
def withBytes (s : State) (a : Nat) (bytes : List Byte) : State := s.setMem (s.mem.storeBytes a bytes)

/-- The four flags `Z`, `C`, `V`, `N`. -/
def flags (z c v n : Bool) : Flags := ⟨z, c, v, n⟩

/-- The next state of an outcome, and the given state where there is none. -/
def nextOr (s : State) : Host.Outcome State Fault Refusal → State
  | .next t => t
  | .fault _ => s
  | .refused _ => s

/-- The state after one `Step`, with no interrupt check, as the vectors have it. -/
def ran (s : State) : State := nextOr State.reset (coreStep Config.opc s)

/-- A block with a core and some speed. -/
def block (s : State) : Block := ⟨s, 7⟩

/-- The bytes decode to the instruction. -/
def decodesTo (bytes : List Byte) (i : Instr) : Bool :=
  match decode bytes with
  | .ok j => decide (j = i)
  | .error _ => false

/-- Decoding refuses the bytes for the given reason. -/
def rejects (bytes : List Byte) (e : DecodeError) : Bool :=
  match decode bytes with
  | .ok _ => false
  | .error d => decide (d = e)

/-! ### Well-formedness: an ill-formed string for each check -/

/-- Every format has a string that is accepted (R72). -/
theorem test_wellFormed_accepts :
    ([[0x2C], [0x26, 0x02], [0x02, 0x00, 0x00], [0x22, 0x00, 0x00, 0x00, 0x00, 0x2A], [0x2B, 0x00, 0x00, 0x00, 0x20],
      [0x2D, 0x03, 0x09], [0x2E, 0x01]].all (WellFormed.bytesOk Config.opc)) = true := by decide

/-- 0x2F is no opcode (R68, D8). -/
theorem test_wellFormed_refuses_unknown_opcode :
    WellFormed.bytesOk Config.opc [0x2F] = false := by decide

/-- No bytes are no instruction. -/
theorem test_wellFormed_refuses_empty :
    WellFormed.bytesOk Config.opc [] = false := by decide

/-- `add` has three bytes, neither two nor four (R61). -/
theorem test_wellFormed_refuses_wrong_length :
    WellFormed.bytesOk Config.opc [0x02, 0x00] = false ∧ WellFormed.bytesOk Config.opc [0x02, 0x00, 0x00, 0x00] = false := by decide

/-- A register byte above 15 in either position (R63); the bound of `rnd` is none (R65). -/
theorem test_wellFormed_refuses_register_byte :
    WellFormed.bytesOk Config.opc [0x02, 0x10, 0x00] = false ∧ WellFormed.bytesOk Config.opc [0x02, 0x00, 0xFF] = false ∧
      WellFormed.bytesOk Config.opc [0x2D, 0x03, 0xFF] = true := by decide

/-! ### Decoding: every constructor, by bytes written out from the opcode table -/

/-- Format `Z`. -/
theorem test_decode_formatZ :
    decodesTo [0x00] .nop = true ∧
      decodesTo [0x01] .halt = true ∧
      decodesTo [0x2C] .ret = true := by decide

/-- Format `RR`, `r1` first (R62). -/
theorem test_decode_register_arithmetic :
    decodesTo [0x02, 0x01, 0x0E] (.add 1 14) = true ∧
      decodesTo [0x03, 0x01, 0x0E] (.sub 1 14) = true ∧
      decodesTo [0x04, 0x01, 0x0E] (.mul 1 14) = true ∧
      decodesTo [0x05, 0x01, 0x0E] (.mulu 1 14) = true ∧
      decodesTo [0x06, 0x01, 0x0E] (.div 1 14) = true ∧
      decodesTo [0x07, 0x01, 0x0E] (.divu 1 14) = true ∧
      decodesTo [0x08, 0x01, 0x0E] (.and 1 14) = true ∧
      decodesTo [0x09, 0x01, 0x0E] (.or 1 14) = true ∧
      decodesTo [0x0A, 0x01, 0x0E] (.xor 1 14) = true := by decide

/-- Format `RI`, the immediate most significant byte first (R64). -/
theorem test_decode_immediate_arithmetic :
    decodesTo [0x0B, 0x0F, 0x12, 0x34, 0x56, 0x78] (.addi 15 0x12345678) = true ∧
      decodesTo [0x0C, 0x0F, 0x12, 0x34, 0x56, 0x78] (.subi 15 0x12345678) = true ∧
      decodesTo [0x0D, 0x0F, 0x12, 0x34, 0x56, 0x78] (.muli 15 0x12345678) = true ∧
      decodesTo [0x0E, 0x0F, 0x12, 0x34, 0x56, 0x78] (.divi 15 0x12345678) = true ∧
      decodesTo [0x0F, 0x0F, 0x12, 0x34, 0x56, 0x78] (.andi 15 0x12345678) = true ∧
      decodesTo [0x10, 0x0F, 0x12, 0x34, 0x56, 0x78] (.ori 15 0x12345678) = true ∧
      decodesTo [0x11, 0x0F, 0x12, 0x34, 0x56, 0x78] (.xori 15 0x12345678) = true := by decide

/-- Formats `R`, `RR` and `RI`. -/
theorem test_decode_unary_and_compare :
    decodesTo [0x12, 0x0F] (.neg 15) = true ∧
      decodesTo [0x13, 0x00] (.not 0) = true ∧
      decodesTo [0x14, 0x03, 0x04] (.cmp 3 4) = true ∧
      decodesTo [0x15, 0x02, 0x80, 0x00, 0x00, 0x00] (.cmpi 2 0x80000000) = true := by decide

/-- Format `A`. -/
theorem test_decode_branches :
    decodesTo [0x16, 0x00, 0x20, 0x00, 0x01] (.beq 0x200001) = true ∧
      decodesTo [0x17, 0x00, 0x20, 0x00, 0x01] (.bne 0x200001) = true ∧
      decodesTo [0x18, 0x00, 0x20, 0x00, 0x01] (.bge 0x200001) = true ∧
      decodesTo [0x19, 0x00, 0x20, 0x00, 0x01] (.bgeu 0x200001) = true ∧
      decodesTo [0x1A, 0x00, 0x20, 0x00, 0x01] (.bgt 0x200001) = true ∧
      decodesTo [0x1B, 0x00, 0x20, 0x00, 0x01] (.bgtu 0x200001) = true ∧
      decodesTo [0x1C, 0x00, 0x20, 0x00, 0x01] (.ble 0x200001) = true ∧
      decodesTo [0x1D, 0x00, 0x20, 0x00, 0x01] (.bleu 0x200001) = true ∧
      decodesTo [0x1E, 0x00, 0x20, 0x00, 0x01] (.blt 0x200001) = true ∧
      decodesTo [0x1F, 0x00, 0x20, 0x00, 0x01] (.bltu 0x200001) = true := by decide

/-- `stb` has the data register first (R174). -/
theorem test_decode_loads_stores :
    decodesTo [0x20, 0x03, 0x00, 0x00, 0x01, 0x01] (.ld 3 0x101) = true ∧
      decodesTo [0x21, 0x04, 0x00, 0x00, 0x00, 0x40] (.lda 4 0x40) = true ∧
      decodesTo [0x22, 0x00, 0x00, 0x00, 0x00, 0x2A] (.ldi 0 0x2A) = true ∧
      decodesTo [0x23, 0x04, 0x03] (.ldr 4 3) = true ∧
      decodesTo [0x24, 0x01, 0x02] (.stb 1 2) = true ∧
      decodesTo [0x25, 0x01, 0x00, 0x0F, 0xFF, 0xFD] (.sta 1 0xFFFFD) = true := by decide

/-- Formats `R` and `A`. -/
theorem test_decode_stack_and_control :
    decodesTo [0x26, 0x02] (.push 2) = true ∧
      decodesTo [0x27, 0x0A] (.pop 10) = true ∧
      decodesTo [0x28, 0x05] (.jmp 5) = true ∧
      decodesTo [0x29, 0x00, 0x00, 0x00, 0x0C] (.jmpa 0xC) = true ∧
      decodesTo [0x2A, 0x07] (.jsr 7) = true ∧
      decodesTo [0x2B, 0x00, 0x00, 0x00, 0x20] (.jsra 0x20) = true := by decide

/-- Formats `RB` and `B`: the last byte is a number (R65). -/
theorem test_decode_random_interrupt :
    decodesTo [0x2D, 0x03, 0xFF] (.rnd 3 0xFF) = true ∧
      decodesTo [0x2E, 0x07] (.int 7) = true := by decide

/-- Words bit by bit as the opcode table numbers them, byte 0 in bits 7 to 0, one of each format: `ret`, `push r2`, `stb r1, r2`,
`ldi r0, 0x2A`, `jsra 0x20`, `rnd r3, 9`, `int 1`. -/
theorem test_decode_table_words :
    decodeTableWord 8 0b00101100 = some .ret ∧
      decodeTableWord 16 0b00000010_00100110 = some (.push 2) ∧
      decodeTableWord 24 0b00000010_00000001_00100100 = some (.stb 1 2) ∧
      decodeTableWord 48 0b00101010_00000000_00000000_00000000_00000000_00100010 = some (.ldi 0 0x2A) ∧
      decodeTableWord 40 0b00100000_00000000_00000000_00000000_00101011 = some (.jsra 0x20) ∧
      decodeTableWord 24 0b00001001_00000011_00101101 = some (.rnd 3 9) ∧
      decodeTableWord 16 0b00000001_00101110 = some (.int 1) := by decide

/-- Refusals by name: an unknown opcode, a register byte in each position, too few bytes (R63, R68). -/
theorem test_decode_rejects :
    rejects [0x2F] (.unknownOpcode 0x2F) = true ∧ rejects [0xFF, 0x01, 0x02] (.unknownOpcode 0xFF) = true ∧
      rejects [0x02, 0xFF, 0x01] (.invalidRegister 1 0xFF) = true ∧ rejects [0x02, 0x01, 0x10] (.invalidRegister 2 0x10) = true ∧
      rejects [0x22, 0x01, 0x00, 0x00] (.truncated 2) = true ∧ rejects [] (.truncated 0) = true := by decide

/-- The encoder writes the bytes of R72. -/
theorem test_encode_bytes :
    encode (.ldi 0 0x2A) = [0x22, 0x00, 0x00, 0x00, 0x00, 0x2A] ∧ encode (.jsra 0x20) = [0x2B, 0x00, 0x00, 0x00, 0x20] ∧
      encode (.rnd 3 9) = [0x2D, 0x03, 0x09] ∧ encode (.stb 1 2) = [0x24, 0x01, 0x02] := by decide

/-- The opcode map is injective (R66). -/
theorem test_opc_injective :
    Mnemonic.all.Pairwise fun m n => Config.opc m ≠ Config.opc n := by decide

/-- The placed instruction is the very next one run, from reset (`ldi r0, 0x2A`). -/
theorem test_withFetchWord_runs_the_word :
    (nextOr State.reset (step (State.reset.withFetchWord 48 0x2A0000000022))).reg 0 = 0x2A := by decide

/-! ### One step of each instruction -/

/-- V30.1: not fatal. -/
theorem test_unknownOpcode :
    let t := ran ((start 0x10 [0x2F]).setReg 1 5)
    t.pc = 0x11 ∧ t.fault = some (.unknownOpcode 0x2F 0x10) ∧ t.isLocked = false ∧ t.reg 1 = 5 := by decide

/-- V30.4. -/
theorem test_operand_crossing_the_end :
    let t := ran (start 0xFFFFC [0x22, 0x01, 0x00, 0x00])
    t.fault = some (.memoryFault 0xFFFFE) ∧ t.isLocked = true := by decide

/-- V30.5. -/
theorem test_pc_wraps :
    let t := ran (((start 0xFFFFD [0x02, 0x01, 0x02]).setReg 1 1).setReg 2 2)
    t.reg 1 = 3 ∧ t.pc = 0 := by decide

/-- V30.6. -/
theorem test_opcode_fetch_out_of_range :
    let t := ran (start 0x100000 [])
    t.fault = some (.memoryFault 0x100000) ∧ t.isLocked = true := by decide

/-- V30.7. -/
theorem test_invalidRegister :
    let t := ran ((start 0x10 [0x02, 0x01, 0x10]).setReg 1 1)
    t.fault = some (.invalidRegister 0x10 0x12) ∧ t.isLocked = true := by decide

/-- V30.8. -/
theorem test_invalidRegister_first :
    let t := ran ((start 0x10 [0x02, 0xFF, 0x01]).setReg 1 1)
    t.fault = some (.invalidRegister 0xFF 0x11) ∧ t.isLocked = true := by decide

/-- V40.2. -/
theorem test_nop :
    let t := ran (start 0xFFFFF [0x00])
    t.pc = 0 ∧ t.running = true := by decide

/-- V40.3. -/
theorem test_halt :
    let t := ran (start 0x26 [0x01])
    t.pc = 0x27 ∧ t.running = false := by decide

/-- V41.1. -/
theorem test_add :
    let t := ran (((start 0x10 [0x02, 0x01, 0x02]).setReg 1 0xFFFFFFFF).setReg 2 2)
    t.reg 1 = 1 ∧ t.pc = 0x13 := by decide

/-- V41.2. -/
theorem test_add_self :
    let t := ran ((start 0x10 [0x02, 0x00, 0x00]).setReg 0 0x2A)
    t.reg 0 = 0x54 := by decide

/-- V41.3. -/
theorem test_sub :
    let t := ran (((start 0x10 [0x03, 0x01, 0x02]).setReg 1 0).setReg 2 1)
    t.reg 1 = 0xFFFFFFFF ∧ t.reg 2 = 1 := by decide

/-- V41.5. -/
theorem test_mul :
    let t := ran (((start 0x10 [0x04, 0x01, 0x02]).setReg 1 0xFFFFFFFF).setReg 2 0xFFFFFFFF)
    t.reg 1 = 1 := by decide

/-- V41.6. -/
theorem test_mulu :
    let t := ran (((start 0x10 [0x05, 0x01, 0x02]).setReg 1 0xFFFFFFFF).setReg 2 0xFFFFFFFF)
    t.reg 1 = 1 := by decide

/-- V41.12: unsigned. -/
theorem test_div :
    let t := ran ((((start 0x10 [0x06, 0x01, 0x02]).setReg 1 0xFFFFFFF6).setReg 2 3).setReg 0 0x99)
    t.reg 0 = 0 ∧ t.reg 1 = 0x55555552 ∧ t.pc = 0x13 := by decide

/-- V41.11. -/
theorem test_div_by_old_r0 :
    let t := ran (((start 0x10 [0x06, 0x01, 0x00]).setReg 1 0x64).setReg 0 7)
    t.reg 0 = 2 ∧ t.reg 1 = 0xE := by decide

/-- V41.9. -/
theorem test_divu :
    let t := ran ((((start 0x10 [0x07, 0x01, 0x02]).setReg 1 0xA).setReg 2 3).setReg 0 0x99)
    t.reg 0 = 1 ∧ t.reg 1 = 3 := by decide

/-- V41.16. -/
theorem test_divu_by_zero :
    let t := ran ((start 0x10 [0x07, 0x01, 0x02]).setReg 1 5)
    t.fault = some (.divideByZero 0x10) ∧ t.isLocked = true := by decide

/-- V41.18. -/
theorem test_and :
    let t := ran (((start 0x10 [0x08, 0x01, 0x02]).setReg 1 0xFF00FF00).setReg 2 0x0FF00FF0)
    t.reg 1 = 0x0F000F00 := by decide

/-- V41.19. -/
theorem test_or :
    let t := ran (((start 0x10 [0x09, 0x01, 0x02]).setReg 1 0xFF00FF00).setReg 2 0x0FF00FF0)
    t.reg 1 = 0xFFF0FFF0 := by decide

/-- V41.20. -/
theorem test_xor :
    let t := ran (((start 0x10 [0x0A, 0x01, 0x02]).setReg 1 0xFF00FF00).setReg 2 0x0FF00FF0)
    t.reg 1 = 0xF0F0F0F0 := by decide

/-- V42.2. -/
theorem test_addi :
    let t := ran ((start 0x10 [0x0B, 0x02, 0xFF, 0xFF, 0xFF, 0xFF]).setReg 2 0x300)
    t.reg 2 = 0x2FF ∧ t.pc = 0x16 := by decide

/-- V42.3. -/
theorem test_subi :
    let t := ran (start 0x10 [0x0C, 0x02, 0x00, 0x00, 0x00, 0x01])
    t.reg 2 = 0xFFFFFFFF := by decide

/-- V42.5. -/
theorem test_muli :
    let t := ran ((start 0x10 [0x0D, 0x03, 0xFF, 0xFF, 0xFF, 0xFF]).setReg 3 5)
    t.reg 3 = 0xFFFFFFFB := by decide

/-- V42.7: the remainder survives in register 0. -/
theorem test_divi :
    let t := ran ((start 0x10 [0x0E, 0x00, 0x00, 0x00, 0x00, 0x07]).setReg 0 0x64)
    t.reg 0 = 2 ∧ t.pc = 0x16 := by decide

/-- V42.8. -/
theorem test_divi_by_zero :
    let t := ran ((start 0x10 [0x0E, 0x04, 0x00, 0x00, 0x00, 0x00]).setReg 4 0x64)
    t.fault = some (.divideByZero 0x10) ∧ t.isLocked = true := by decide

/-- V42.10. -/
theorem test_andi :
    let t := ran ((start 0x10 [0x0F, 0x01, 0x00, 0x00, 0x00, 0xFF]).setReg 1 0x12345678)
    t.reg 1 = 0x78 := by decide

/-- V42.11. -/
theorem test_ori :
    let t := ran ((start 0x10 [0x10, 0x01, 0xF0, 0x00, 0x00, 0x0F]).setReg 1 0x12345678)
    t.reg 1 = 0xF234567F := by decide

/-- V42.12. -/
theorem test_xori :
    let t := ran ((start 0x10 [0x11, 0x01, 0xFF, 0xFF, 0xFF, 0xFF]).setReg 1 0x12345678)
    t.reg 1 = 0xEDCBA987 := by decide

/-- V30.9. -/
theorem test_neg :
    let t := ran ((start 0x10 [0x12, 0x0F]).setReg 15 2)
    t.reg 15 = 0xFFFFFFFE ∧ t.pc = 0x12 := by decide

/-- V43.2. -/
theorem test_neg_min :
    let t := ran ((start 0x10 [0x12, 0x01]).setReg 1 0x80000000)
    t.reg 1 = 0x80000000 := by decide

/-- V43.4. -/
theorem test_not :
    let t := ran ((start 0x10 [0x13, 0x01]).setReg 1 0xFFFF)
    t.reg 1 = 0xFFFF0000 ∧ t.pc = 0x12 := by decide

/-- V44.4: unsigned order. -/
theorem test_cmp_greater :
    let t := ran (((start 0x10 [0x14, 0x01, 0x02]).setReg 1 0xFFFFFFFF).setReg 2 1)
    t.flags = flags false true false false ∧ t.pc = 0x13 := by decide

/-- V44.5: all four are written. -/
theorem test_cmp_equal :
    let t := ran (((start 0x10 [0x14, 0x03, 0x03]).setReg 3 0x80000000).setFlags (flags false true true true))
    t.flags = flags true false false false ∧ t.reg 3 = 0x80000000 := by decide

/-- V44.8. -/
theorem test_cmpi_less :
    let t := ran ((start 0x10 [0x15, 0x02, 0x80, 0x00, 0x00, 0x00]).setReg 2 0x7FFFFFFF)
    t.flags = flags false false false true ∧ t.pc = 0x16 := by decide

/-- V44.7. -/
theorem test_cmpi_greater :
    let t := ran ((start 0x10 [0x15, 0x02, 0x00, 0x00, 0x00, 0x00]).setReg 2 9)
    t.flags = flags false true false false := by decide

/-- V45.1 to V45.3: after L = R, L > R, L < R. -/
theorem test_beq :
    (ran ((start 0x53 [0x16, 0x00, 0x00, 0x00, 0x60]).setFlags (flags true false false false))).pc = 0x60 ∧
      (ran ((start 0x53 [0x16, 0x00, 0x00, 0x00, 0x60]).setFlags (flags false true false false))).pc = 0x58 ∧
      (ran ((start 0x53 [0x16, 0x00, 0x00, 0x00, 0x60]).setFlags (flags false false false true))).pc = 0x58 := by decide

/-- V45.4 to V45.6: after L = R, L > R, L < R. -/
theorem test_bne :
    (ran ((start 0x53 [0x17, 0x00, 0x00, 0x00, 0x60]).setFlags (flags true false false false))).pc = 0x58 ∧
      (ran ((start 0x53 [0x17, 0x00, 0x00, 0x00, 0x60]).setFlags (flags false true false false))).pc = 0x60 ∧
      (ran ((start 0x53 [0x17, 0x00, 0x00, 0x00, 0x60]).setFlags (flags false false false true))).pc = 0x60 := by decide

/-- V45.7 to V45.9: after L = R, L > R, L < R. -/
theorem test_bge :
    (ran ((start 0x53 [0x18, 0x00, 0x00, 0x00, 0x60]).setFlags (flags true false false false))).pc = 0x60 ∧
      (ran ((start 0x53 [0x18, 0x00, 0x00, 0x00, 0x60]).setFlags (flags false true false false))).pc = 0x58 ∧
      (ran ((start 0x53 [0x18, 0x00, 0x00, 0x00, 0x60]).setFlags (flags false false false true))).pc = 0x60 := by decide

/-- V45.10 to V45.12: after L = R, L > R, L < R. -/
theorem test_bgeu :
    (ran ((start 0x53 [0x19, 0x00, 0x00, 0x00, 0x60]).setFlags (flags true false false false))).pc = 0x60 ∧
      (ran ((start 0x53 [0x19, 0x00, 0x00, 0x00, 0x60]).setFlags (flags false true false false))).pc = 0x58 ∧
      (ran ((start 0x53 [0x19, 0x00, 0x00, 0x00, 0x60]).setFlags (flags false false false true))).pc = 0x60 := by decide

/-- V45.13 to V45.15: after L = R, L > R, L < R. -/
theorem test_bgt :
    (ran ((start 0x53 [0x1A, 0x00, 0x00, 0x00, 0x60]).setFlags (flags true false false false))).pc = 0x58 ∧
      (ran ((start 0x53 [0x1A, 0x00, 0x00, 0x00, 0x60]).setFlags (flags false true false false))).pc = 0x58 ∧
      (ran ((start 0x53 [0x1A, 0x00, 0x00, 0x00, 0x60]).setFlags (flags false false false true))).pc = 0x60 := by decide

/-- V45.16 to V45.18: after L = R, L > R, L < R. -/
theorem test_bgtu :
    (ran ((start 0x53 [0x1B, 0x00, 0x00, 0x00, 0x60]).setFlags (flags true false false false))).pc = 0x58 ∧
      (ran ((start 0x53 [0x1B, 0x00, 0x00, 0x00, 0x60]).setFlags (flags false true false false))).pc = 0x58 ∧
      (ran ((start 0x53 [0x1B, 0x00, 0x00, 0x00, 0x60]).setFlags (flags false false false true))).pc = 0x60 := by decide

/-- V45.19 to V45.21: after L = R, L > R, L < R. -/
theorem test_ble :
    (ran ((start 0x53 [0x1C, 0x00, 0x00, 0x00, 0x60]).setFlags (flags true false false false))).pc = 0x60 ∧
      (ran ((start 0x53 [0x1C, 0x00, 0x00, 0x00, 0x60]).setFlags (flags false true false false))).pc = 0x60 ∧
      (ran ((start 0x53 [0x1C, 0x00, 0x00, 0x00, 0x60]).setFlags (flags false false false true))).pc = 0x58 := by decide

/-- V45.22 to V45.24: after L = R, L > R, L < R. -/
theorem test_bleu :
    (ran ((start 0x53 [0x1D, 0x00, 0x00, 0x00, 0x60]).setFlags (flags true false false false))).pc = 0x60 ∧
      (ran ((start 0x53 [0x1D, 0x00, 0x00, 0x00, 0x60]).setFlags (flags false true false false))).pc = 0x60 ∧
      (ran ((start 0x53 [0x1D, 0x00, 0x00, 0x00, 0x60]).setFlags (flags false false false true))).pc = 0x58 := by decide

/-- V45.25 to V45.27: after L = R, L > R, L < R. -/
theorem test_blt :
    (ran ((start 0x53 [0x1E, 0x00, 0x00, 0x00, 0x60]).setFlags (flags true false false false))).pc = 0x58 ∧
      (ran ((start 0x53 [0x1E, 0x00, 0x00, 0x00, 0x60]).setFlags (flags false true false false))).pc = 0x58 ∧
      (ran ((start 0x53 [0x1E, 0x00, 0x00, 0x00, 0x60]).setFlags (flags false false false true))).pc = 0x60 := by decide

/-- V45.28 to V45.30: after L = R, L > R, L < R. -/
theorem test_bltu :
    (ran ((start 0x53 [0x1F, 0x00, 0x00, 0x00, 0x60]).setFlags (flags true false false false))).pc = 0x58 ∧
      (ran ((start 0x53 [0x1F, 0x00, 0x00, 0x00, 0x60]).setFlags (flags false true false false))).pc = 0x58 ∧
      (ran ((start 0x53 [0x1F, 0x00, 0x00, 0x00, 0x60]).setFlags (flags false false false true))).pc = 0x60 := by decide

/-- V45.31: the negation is on `N` alone. -/
theorem test_ble_zero_and_negative :
    let t := ran ((start 0x53 [0x1C, 0x00, 0x00, 0x00, 0x60]).setFlags (flags true false false true))
    t.pc = 0x60 := by decide

/-- V45.32: the target is taken verbatim. -/
theorem test_beq_target_out_of_range :
    let t := ran ((start 0x53 [0x16, 0x00, 0x20, 0x00, 0x00]).setFlags (flags true false false false))
    t.pc = 0x200000 ∧ t.isLocked = false := by decide

/-- V45.33. -/
theorem test_bne_untaken_operand_not_read :
    let t := ran ((start 0xFFFFD [0x17, 0x00, 0x00]).setFlags (flags true false false false))
    t.pc = 0 ∧ t.isLocked = false := by decide

/-- V46.2: unaligned. -/
theorem test_ld :
    let t := ran (withBytes (start 0x10 [0x20, 0x03, 0x00, 0x00, 0x01, 0x01]) 0x100 [0x11, 0x22, 0x33, 0x44, 0x55])
    t.reg 3 = 0x22334455 ∧ t.pc = 0x16 := by decide

/-- V46.5. -/
theorem test_ld_no_wrap :
    let t := ran (start 0x10 [0x20, 0x03, 0xFF, 0xFF, 0xFF, 0xFF])
    t.fault = some (.memoryFault 0xFFFFFFFF) ∧ t.isLocked = true := by decide

/-- V46.6. -/
theorem test_lda :
    let t := ran (withBytes (withBytes (start 0x10 [0x21, 0x04, 0x00, 0x00, 0x00, 0x40]) 0x40 [0x00, 0x00, 0x03, 0x00]) 0x300 [0x48, 0x49, 0x00, 0x00])
    t.reg 4 = 0x48490000 := by decide

/-- V46.7. -/
theorem test_lda_second_read :
    let t := ran (withBytes (start 0x10 [0x21, 0x04, 0x00, 0x00, 0x00, 0x40]) 0x40 [0x00, 0x10, 0x00, 0x00])
    t.fault = some (.memoryFault 0x100000) ∧ t.isLocked = true := by decide

/-- V46.9. -/
theorem test_ldi :
    let t := ran (start 0x10 [0x22, 0x0F, 0xFF, 0xFF, 0xFF, 0xFF])
    t.reg 15 = 0xFFFFFFFF ∧ t.pc = 0x16 := by decide

/-- V46.11. -/
theorem test_ldr :
    let t := ran (withBytes ((start 0x10 [0x23, 0x03, 0x03]).setReg 3 0x300) 0x300 [0x00, 0x00, 0x00, 0x07])
    t.reg 3 = 7 ∧ t.pc = 0x13 := by decide

/-- V46.12. -/
theorem test_stb :
    let t := ran (withBytes (((start 0x10 [0x24, 0x01, 0x02]).setReg 1 0x12345678).setReg 2 0x300) 0x2FF [0xAA, 0xBB, 0xCC])
    t.mem.loadBytes 0x2FF 3 = [0xAA, 0x78, 0xCC] ∧ t.pc = 0x13 := by decide

/-- V46.14. -/
theorem test_stb_out_of_range :
    let t := ran (((start 0x10 [0x24, 0x01, 0x02]).setReg 1 0x41).setReg 2 0x100000)
    t.fault = some (.memoryFault 0x100000) ∧ t.isLocked = true := by decide

/-- V46.15. -/
theorem test_sta :
    let t := ran ((start 0x10 [0x25, 0x01, 0x00, 0x00, 0x01, 0x00]).setReg 1 0x1020304)
    t.mem.loadBytes 0x100 4 = [0x01, 0x02, 0x03, 0x04] ∧ t.pc = 0x16 := by decide

/-- V46.16. -/
theorem test_sta_out_of_range :
    let t := ran ((start 0x10 [0x25, 0x01, 0x00, 0x0F, 0xFF, 0xFD]).setReg 1 1)
    t.fault = some (.memoryFault 0xFFFFD) ∧ t.isLocked = true := by decide

/-- V47.4: the lowest slot. -/
theorem test_push :
    let t := ran (((start 0x10 [0x26, 0x02]).setReg 2 0xAABBCCDD).setSp 4)
    t.sp = 0 ∧ t.mem.loadBytes 0 4 = [0xAA, 0xBB, 0xCC, 0xDD] ∧ t.pc = 0x12 := by decide

/-- V47.3. -/
theorem test_push_wraps :
    let t := ran (((start 0x10 [0x26, 0x02]).setReg 2 7).setSp 2)
    t.fault = some (.memoryFault 0xFFFFFFFE) ∧ t.isLocked = true := by decide

/-- V47.6. -/
theorem test_pop :
    let t := ran (withBytes ((start 0x10 [0x27, 0x02]).setSp 0xFFFFC) 0xFFFFC [0x01, 0x02, 0x03, 0x04])
    t.reg 2 = 0x1020304 ∧ t.sp = 0x100000 ∧ t.pc = 0x12 := by decide

/-- V47.5. -/
theorem test_pop_out_of_range :
    let t := ran ((start 0x10 [0x27, 0x02]).setSp 0xFFFFD)
    t.fault = some (.memoryFault 0xFFFFD) ∧ t.isLocked = true := by decide

/-- V48.1: through the pointer cell. -/
theorem test_jmp :
    let t := ran (withBytes ((start 0x2D [0x28, 0x05]).setReg 5 0x40) 0x40 [0x00, 0x00, 0x00, 0x50])
    t.pc = 0x50 := by decide

/-- V48.2. -/
theorem test_jmp_out_of_range :
    let t := ran ((start 0x2D [0x28, 0x05]).setReg 5 0xFFFFE)
    t.fault = some (.memoryFault 0xFFFFE) ∧ t.isLocked = true := by decide

/-- V48.3. -/
theorem test_jmpa :
    let t := ran (start 0x1B [0x29, 0x00, 0x00, 0x00, 0x0C])
    t.pc = 0xC := by decide

/-- V48.5. -/
theorem test_jsr :
    let t := ran (withBytes ((start 0x6 [0x2A, 0x07]).setReg 7 0x30) 0x30 [0x00, 0x00, 0x00, 0x40])
    t.pc = 0x40 ∧ t.sp = 0xEFFFC ∧ t.mem.loadBytes 0xEFFFC 4 = [0x00, 0x00, 0x00, 0x08] := by decide

/-- V48.6. -/
theorem test_jsr_through_the_pushed_slot :
    let t := ran ((start 0x6 [0x2A, 0x07]).setReg 7 0xEFFFC)
    t.pc = 8 ∧ t.sp = 0xEFFFC := by decide

/-- V48.11: the return address wraps. -/
theorem test_jsra :
    let t := ran (start 0xFFFFB [0x2B, 0x00, 0x00, 0x00, 0x20])
    t.pc = 0x20 ∧ t.sp = 0xEFFFC ∧ t.mem.loadBytes 0xEFFFC 4 = [0x00, 0x00, 0x00, 0x00] := by decide

/-- V48.10. -/
theorem test_jsra_push_first :
    let t := ran ((start 0xC [0x2B, 0x00, 0x00, 0x00, 0x20]).setSp 0)
    t.fault = some (.memoryFault 0xFFFFFFFC) ∧ t.isLocked = true := by decide

/-- By hand from R188: sp = 0x11, the slot 0x0D to 0x10 is the operand, which reads back as the return address 0x11 (D19). -/
theorem test_jsra_over_its_operand :
    let t := ran ((start 0xC [0x2B, 0x00, 0x00, 0x00, 0x20]).setSp 0x11)
    t.pc = 0x11 ∧ t.sp = 0xD ∧ t.mem.loadBytes 0xC 5 = [0x2B, 0x00, 0x00, 0x00, 0x11] := by decide

/-- V48.8. -/
theorem test_ret :
    let t := ran (withBytes ((start 0x27 [0x2C]).setSp 0xEFFFC) 0xEFFFC [0x00, 0x00, 0x00, 0x11])
    t.pc = 0x11 ∧ t.sp = 0xF0000 := by decide

/-- V49.3: with bound 0 there is one legal draw. -/
theorem test_rnd_bound_zero :
    ∀ n, randomDraw n 0 = 0 := by
  intro n
  simp [randomDraw, Nat.mod_one]

/-- V49.4: the bound byte 0xFF is no register; the value is free. -/
theorem test_rnd :
    let t := ran ((start 0x10 [0x2D, 0x03, 0xFF]).setReg 2 9)
    t.pc = 0x13 ∧ t.reg 2 = 9 ∧ t.free = 1 ∧ t.isLocked = false := by decide

/-- V49.5. -/
theorem test_rnd_invalidRegister :
    let t := ran (start 0x10 [0x2D, 0x10, 0x09])
    t.fault = some (.invalidRegister 0x10 0x11) ∧ t.isLocked = true := by decide

/-- V49.7: overwrites. -/
theorem test_int :
    let t := ran ((start 0 [0x2E, 0x07]).setPending (some 1))
    t.pc = 2 ∧ t.pending = some 7 := by decide

/-! ### Memory, reset, the latch, the frame loop -/

/-- S1. -/
theorem test_write_byte_order :
    ((Memory.empty.write 0 4 0x01020304).map fun m => m.loadBytes 0 4) = some [1, 2, 3, 4] ∧
      ((Memory.empty.write 0 4 0x01020304).bind fun m => m.read 0 2) = some 0x0102 ∧
      ((Memory.empty.write 0 4 0x01020304).bind fun m => m.read 1 1) = some 2 := by decide

/-- Writing what an unlisted byte reads as takes the cell out; cells stay sorted. -/
theorem test_memory_canonical :
    ((Memory.empty.set 7 1).set 3 2).cells = [(3, 2), (7, 1)] ∧ (((Memory.empty.set 7 1).set 3 2).set 7 0).cells = [(3, 2)] ∧
      Memory.wf ⟨[(7, 1), (3, 2)]⟩ = false ∧ Memory.wf ⟨[(3, 0)]⟩ = false ∧ Memory.wf ⟨[(0x100000, 1)]⟩ = false := by decide

/-- V30.3: two unknown bytes, two Steps. -/
theorem test_latch_keeps_the_first :
    let t := ran (ran (start 0x10 [0x2F, 0xFF]))
    t.pc = 0x12 ∧ t.fault = some (.unknownOpcode 0x2F 0x10) ∧ t.isLocked = false := by decide

/-- F1, F2, F5, F6, F7, F10 of 95_test_vectors 2.12. -/
theorem test_frames :
    (nextOr State.reset (frameTick Config.opc 16 (start 0 []))).pc = 4 ∧ (nextOr State.reset (frameTick Config.opc 17 (start 0 []))).pc = 5 ∧
      (nextOr State.reset (frameTick Config.opc 0 (start 0 []))).pc = 0 ∧
      (nextOr State.reset (frameTick Config.opc 16 (start 0 [0, 0, 1, 0, 0]))).pc = 3 ∧
      (nextOr State.reset (frameTick Config.opc 16 (start 0 [0, 0, 1, 0, 0]))).running = false ∧
      (nextOr State.reset (frameTick Config.opc 16 ((start 0 []).setRunning false))).pc = 0 ∧
      (nextOr State.reset (frameTick Config.opc 16 (start 0 [0x2E, 0x02]))).pending = some 2 := by decide

/-- R210: no key stops the machine, a key goes whole to register 0. -/
theorem test_key_delivery :
    let s := (start 0 []).setPending (some 1)
    (serviceKeyboard none s).running = false ∧ (serviceKeyboard none s).pending = some 1 ∧
      (serviceKeyboard (some 0x12345678) s).reg 0 = 0x12345678 ∧ (serviceKeyboard (some 0x12345678) s).pending = none := by decide

/-- D29, by hand: a longer image is refused whatever the state. -/
theorem test_reset_refuses_a_long_image :
    ∀ (image : List Byte) (s : State), image.length = 0x100001 → hostReset image s = .refused .imageTooLong := by
  intro image s h
  rw [hostReset, if_neg (by rw [h]; decide)]

/-- Every format runs as the first instruction after reset, a push too, whatever the open `VIDEO_SIZE` is. -/
theorem test_withFetchWord_runs_from_reset :
    (match step (State.reset.withFetchWord 16 0x0226) with | .next _ => true | .fault _ => false | .refused _ => false) = true ∧
      (match step (State.reset.withFetchWord 40 0x200000002B) with | .next _ => true | .fault _ => false | .refused _ => false) = true := by decide

/-! ### Witnesses: values that meet the hypotheses of each obligation, each clause at a boundary of its range -/

/-- Values that meet the hypotheses. -/
theorem witness_ResetInstallsImage :
    (List.replicate Config.memSize (0x2C : Byte)).length ≤ Config.memSize ∧ ([] : List Byte).length ≤ Config.memSize := by simp

/-- Values that meet the hypotheses. -/
theorem witness_HostResetFromAnyState :
    (List.replicate Config.memSize (0 : Byte)).length ≤ Config.memSize ∧ Config.memSize < (List.replicate (Config.memSize + 1) (0 : Byte)).length := by simp

/-- Values that meet the hypotheses. -/
theorem witness_StepKeepsInvariant :
    StateInv State.reset ∧ (∃ t, step State.reset = .next t ∧ t.pc = 1) ∧
      ∃ d, hostCommand Config.opc (.setRunning true) (block State.reset) = .next d := ⟨⟨by decide, by decide⟩, ⟨_, rfl, by decide⟩, _, rfl⟩

/-- Values that meet the hypotheses. -/
theorem witness_StepKeepsStackAlignment :
    StackAligned State.reset ∧ (∃ t, step (State.reset.withFetchWord 16 0x0226) = .next t) ∧
      ∃ d, hostCommand Config.opc (.reset []) (block (start 0 [])) = .next d := ⟨fun _ => rfl, ⟨_, rfl⟩, _, rfl⟩

/-- Values that meet the hypotheses. -/
theorem witness_StepKeepsCompareResult :
    let s := (start 0 [0x14, 0x01, 0x02]).setFlags (flags false false false true)
    CompareResult s.flags ∧ ∃ t, step s = .next t ∧ t.isLocked = false ∧ t.flags.zero = true := ⟨⟨by decide, by decide⟩, _, rfl, by decide, by decide⟩

/-- Values that meet the hypotheses. -/
theorem witness_FaultLatchIsSticky :
    let s := ran (start 0 [0x2F, 0x02, 0x01, 0x10])
    s.fault = some (.unknownOpcode 0x2F 0) ∧ (∃ t, stepWith Config.opc s = .next t ∧ t.isLocked = true) ∧
      ∃ t, frameTick Config.opc 4 s = .next t := ⟨by decide, ⟨_, rfl, by decide⟩, _, rfl⟩

/-- Values that meet the hypotheses. -/
theorem witness_LockedMachineDoesNothing :
    (block (ran (start 0 [0x06, 0x01, 0x02]))).core.isLocked = true ∧
      (block { start 0 [] with locked := true }).core.isLocked = true ∧ ∀ image, HostCommand.step ≠ .reset image := ⟨by decide, by decide, fun _ => by simp⟩

/-- Values that meet the hypotheses. -/
theorem witness_UnlockedMachineSteps :
    State.reset.isLocked = false ∧ (ran (start 0 [0xFF])).isLocked = false := by decide

/-- Values that meet the hypotheses. -/
theorem witness_StepRunsHeldInstruction :
    let s := start 0xFFFFD [0x02, 0x01, 0x02]
    s.isLocked = false ∧ HoldsAt s s.pc.toNat (encode (.add 1 2)) ∧ s.pc.toNat + (encode (.add 1 2)).length ≤ Config.memSize ∧
      ∃ t, exec (.add 1 2) s = .next t := ⟨by decide, by unfold HoldsAt; decide, by decide, _, rfl⟩

/-- Values that meet the hypotheses. -/
theorem witness_StepRunsInstructionAcrossTheWrap :
    Function.Injective Config.opc ∧ (withBytes (start 0xFFFFE [0x02, 0x01]) 0 [0x02]).isLocked = false ∧
      NextInstr Config.opc (withBytes (start 0xFFFFE [0x02, 0x01]) 0 [0x02]) (.add 1 2) ∧
      NextInstr Config.opc (withBytes (start 0xFFFFF [0x22]) 0 [0x01, 0x00, 0x00, 0x00, 0x2A]) (.ldi 1 0x2A) ∧
      NextInstr Config.opc (withBytes (start 0xFFFFE [0x22, 0x01]) 0 [0x00, 0x00, 0x00, 0x2A]) (.ldi 1 0x2A) ∧
      NextInstr Config.opc (withBytes (start 0xFFFFF [0x29]) 0 [0x00, 0x00, 0x00, 0x20]) (.jmpa 0x20) := ⟨opc_injective, by decide, by unfold NextInstr; decide, by unfold NextInstr; decide, by unfold NextInstr; decide,
    by unfold NextInstr; decide⟩

/-- Values that meet the hypotheses. -/
theorem witness_StepRunsInstructionAcrossTheWrap_crossing :
    let s := start 0xFFFFB [0x22, 0x01, 0x00, 0x00, 0x00]
    let u := start 0xFFFFE [0x2B, 0x00]
    let v := (start 0xFFFFC [0x16, 0x00, 0x00, 0x00]).setFlags (flags true false false false)
    ((Instr.ldi 1 0).mnemonic.format = .RI ∧ s.pc.toNat < Config.memSize ∧
      (∀ k, k < 2 → s.mem.get (after s.pc k).toNat = (encodeWith Config.opc (.ldi 1 0)).getD k 0) ∧ ¬ OperandReadable s 2) ∧
    ((Instr.jsra 0).mnemonic.format = .A ∧
      (∀ k, k < 1 → u.mem.get (after u.pc k).toNat = (encodeWith Config.opc (.jsra 0)).getD k 0) ∧
      ¬ OperandReadable u 1 ∧ (u.sp - 4).toNat + 4 ≤ Config.memSize ∧ ¬ ((u.setSp 0).sp - 4).toNat + 4 ≤ Config.memSize) ∧
    ((∀ k, k < 1 → v.mem.get (after v.pc k).toNat = (encodeWith Config.opc (.beq 0)).getD k 0) ∧ ¬ OperandReadable v 1 ∧
      branchHolds (.beq 0) v.flags = true ∧ isBranch (.beq 0) = true ∧
      branchHolds (.beq 0) (v.setFlags (flags false true false false)).flags = false) := by unfold OperandReadable; decide

/-- Values that meet the hypotheses. -/
theorem witness_UnknownOpcodeIsSkipped :
    let s := start 0xFFFFF [0x2F]
    s.isLocked = false ∧ s.pc.toNat < Config.memSize ∧ (∀ m ∈ Mnemonic.all, Config.opc m ≠ s.mem.get s.pc.toNat) ∧
      ∃ t, coreStep Config.opc s = .next t := ⟨by decide, by decide, by decide, _, rfl⟩

/-- Values that meet the hypotheses. -/
theorem witness_BadRegisterByteLocks :
    let s := start 0x10 [0x26, 0x10]
    s.isLocked = false ∧ s.pc.toNat < Config.memSize ∧ s.mem.get s.pc.toNat = Config.opc .push ∧ Mnemonic.push.format = .R ∧
      15 < (s.mem.get (after s.pc 1).toNat).toNat := by decide

/-- Values that meet the hypotheses. -/
theorem witness_BadRegisterByteLocks_second :
    let s := start 0xFFFFD [0x02, 0x0F, 0x10]
    s.isLocked = false ∧ s.pc.toNat < Config.memSize ∧ s.mem.get s.pc.toNat = Config.opc .add ∧ Mnemonic.add.format = .RR ∧
      (s.mem.get (after s.pc 1).toNat).toNat ≤ 15 ∧ 15 < (s.mem.get (after s.pc 2).toNat).toNat := by decide

/-- Values that meet the hypotheses. -/
theorem witness_OpcodeFetchOutOfRangeLocks :
    (start 0x100000 []).isLocked = false ∧ Config.memSize ≤ (start 0x100000 []).pc.toNat := by decide

/-- Values that meet the hypotheses. -/
theorem witness_LongOperandOutOfRangeLocks :
    (Instr.ldi 1 2).mnemonic.format = .RI ∧ ¬ OperandReadable (start 0xFFFFB []) 2 ∧
      branchHolds (.beq 0) (flags true false false false) = true ∧ (Instr.jmpa 0).mnemonic = .jmpa ∧ ¬ OperandReadable (start 0xFFFFC []) 1 := by unfold OperandReadable; decide

/-- Values that meet the hypotheses. -/
theorem witness_DecodeEncodeRoundTrip :
    Function.Injective Config.opc := opc_injective

/-- Values that meet the hypotheses. -/
theorem witness_DecodedBytesAreTheEncoding :
    decodeWith Config.opc [0x26, 0x0F, 0x99] = .ok (.push 15) := rfl

/-- Values that meet the hypotheses. -/
theorem witness_DecoderAcceptsExactlyTheWellFormed :
    Function.Injective Config.opc ∧ (∃ i, decodeWith Config.opc [0x2C] = .ok i ∧ (encodeWith Config.opc i).length = 1) ∧
      WellFormed.bytesOk Config.opc [0x2C] = true := ⟨opc_injective, ⟨.ret, rfl, rfl⟩, by decide⟩

/-- Values that meet the hypotheses. -/
theorem witness_SampleWordsDecode :
    0x2F ≤ (0x2F : Byte).toNat ∧ 0x2F ≤ (0xFF : Byte).toNat := by decide

/-- Values that meet the hypotheses. -/
theorem witness_WriteThenReadReturnsTheValue :
    Memory.empty.wf = true ∧ ((4 : Nat) = 1 ∨ (4 : Nat) = 2 ∨ (4 : Nat) = 4) ∧ 0xFFFFC + 4 ≤ Config.memSize := by decide

/-- Values that meet the hypotheses. -/
theorem witness_WriteChangesOnlyItsBytes :
    Memory.empty.wf = true ∧ 0xFFFFC + 4 ≤ Config.memSize ∧ Config.memSize < 0xFFFFD + 4 ∧ 0xFFFFF + 1 ≤ Config.memSize ∧
      Config.memSize < 0x100000 + 1 := by decide

/-- Values that meet the hypotheses. -/
theorem witness_ReadIsBigEndian :
    0xFFFFF + 1 ≤ Config.memSize ∧ 0xFFFFE + 2 ≤ Config.memSize ∧ 0xFFFFC + 4 ≤ Config.memSize ∧
      Config.memSize < 0x100000 + 1 := by decide

/-- Values that meet the hypotheses. -/
theorem witness_EqualReadsMeanEqualMemory :
    Memory.empty.wf = true ∧ (Memory.ofImage [0]).wf = true ∧ ∀ a, Memory.empty.get a = (Memory.ofImage [0]).get a := ⟨by decide, by decide, fun _ => rfl⟩

/-- Values that meet the hypotheses. -/
theorem witness_BitwiseResults :
    OperandReadable (start 0xFFFFA []) 2 := by unfold OperandReadable; decide

/-- Values that meet the hypotheses. -/
theorem witness_DivisionResults :
    ((start 0 []).setReg 2 1).reg 2 ≠ 0 ∧ (1 : Reg) ≠ 0 ∧ (0xFFFFFFFF : Word) ≠ 0 ∧ OperandReadable (start 0xFFFFA []) 2 := by unfold OperandReadable; decide

/-- Values that meet the hypotheses. -/
theorem witness_DivisionByZeroLocks :
    (start 0 []).reg 2 = 0 ∧ OperandReadable (start 0xFFFFA []) 2 := by unfold OperandReadable; decide

/-- Values that meet the hypotheses. -/
theorem witness_ImmediateArithmeticResults :
    OperandReadable (start 0xFFFFA []) 2 := by unfold OperandReadable; decide

/-- Values that meet the hypotheses. -/
theorem witness_CompareWritesAllFlags :
    OperandReadable (start 0xFFFFA []) 2 := by unfold OperandReadable; decide

/-- Values that meet the hypotheses. -/
theorem witness_TakenBranches :
    let s := (start 0xFFFFB []).setFlags (flags true false false true)
    let u := (start 0xFFFFB []).setFlags (flags false true false false)
    OperandReadable s 1 ∧ s.flags.zero = true ∧ s.flags.negative = true ∧ OperandReadable u 1 ∧ u.flags.zero = false ∧
      u.flags.negative = false := by unfold OperandReadable; decide

/-- Values that meet the hypotheses. -/
theorem witness_UntakenBranchesSkipTheOperand :
    (flags true false false false).zero = true ∧ (flags false true false false).negative = false ∧ (flags false true false false).zero = false ∧ (flags false false false true).negative = true ∧
      (flags false false false true).zero = false := by decide

/-- Values that meet the hypotheses. -/
theorem witness_BranchTableAfterCompare :
    let s := (start 0xFFFF8 []).setReg 2 1
    (∃ t, exec (.cmp 1 3) s = .next t ∧ OperandReadable t 1 ∧ (True ↔ (s.reg 1).toNat = (s.reg 3).toNat)) ∧
      (∃ t, exec (.cmp 1 2) s = .next t ∧ OperandReadable t 1 ∧ (True ↔ (s.reg 1).toNat < (s.reg 2).toNat)) ∧
      ∃ t, exec (.cmp 2 1) s = .next t ∧ OperandReadable t 1 ∧ (True ↔ (s.reg 2).toNat ≥ (s.reg 1).toNat) ∧
        (False ↔ (s.reg 2).toNat ≤ (s.reg 1).toNat) := ⟨⟨_, rfl, by unfold OperandReadable; decide, by decide⟩, ⟨_, rfl, by unfold OperandReadable; decide, by decide⟩,
      _, rfl, by unfold OperandReadable; decide, by decide, by decide⟩

/-- Values that meet the hypotheses. -/
theorem witness_LoadResults :
    let s := (withBytes (start 0xFFFFA []) 0x40 [0x00, 0x0F, 0xFF, 0xFC]).setReg 2 0xFFFFC
    OperandReadable s 2 ∧ (0x40 : Word).toNat + 4 ≤ Config.memSize ∧ long s (0x40 : Word).toNat + 4 ≤ Config.memSize ∧
      (0xFFFFC : Word).toNat + 4 ≤ Config.memSize ∧ (s.reg 2).toNat + 4 ≤ Config.memSize := by unfold OperandReadable; decide

/-- Values that meet the hypotheses. -/
theorem witness_DataAccessFaults :
    let s := (withBytes (start 0x10 []) 0x40 [0x00, 0x0F, 0xFF, 0xFD]).setReg 2 0xFFFFD
    OperandReadable s 2 ∧ Config.memSize < (0xFFFFD : Word).toNat + 4 ∧ (0x40 : Word).toNat + 4 ≤ Config.memSize ∧
      Config.memSize < long s (0x40 : Word).toNat + 4 ∧ Config.memSize < (s.reg 2).toNat + 4 ∧
      Config.memSize < ((s.setReg 2 0x100000).reg 2).toNat + 1 := by unfold OperandReadable; decide

/-- Values that meet the hypotheses. -/
theorem witness_StoreResults :
    let s := (start 0xFFFFA []).setReg 2 0xFFFFF
    s.mem.wf = true ∧ (s.reg 2).toNat + 1 ≤ Config.memSize ∧ OperandReadable s 2 ∧ (0xFFFFC : Word).toNat + 4 ≤ Config.memSize := by unfold OperandReadable; decide

/-- Values that meet the hypotheses; V46.17 is such a case. -/
theorem witness_StoredByteIsFetchedNext :
    let s := (start 0x10 []).setReg 1 0x01FFFFFF
    s.mem.wf = true ∧ storesMemory (.sta 1 0x16) = true ∧
      ∃ t, exec (.sta 1 0x16) s = .next t ∧ t.isLocked = false ∧ t.pc.toNat < Config.memSize ∧
        ∀ k, k < (encodeWith Config.opc .halt).length → (encodeWith Config.opc .halt).getD k 0 =
          storedOver s (storedBytes (.sta 1 0x16) s).1 (storedValue (.sta 1 0x16) s) (fetchAddress .Z t.pc k) := ⟨by decide, by decide, _, rfl, by decide, by decide, by unfold storedOver; decide⟩

/-- A byte stored over a register byte, and a push over the opcode and register bytes, the operand being what stood there. -/
theorem witness_StoredByteIsFetchedNext_stb_push :
    let s := (withBytes (start 0xFFFF9 []) 0xFFFFC [0x22, 0x01]).setReg 1 0x05
    let u := ((start 0x10 []).setReg 2 0x22010000).setSp 0x16
    (∃ t, exec (.stb 1 2) (s.setReg 2 0xFFFFD) = .next t ∧ t.isLocked = false ∧ t.pc.toNat < Config.memSize ∧
      ∀ k, k < (encodeWith Config.opc (.ldi 5 0)).length → (encodeWith Config.opc (.ldi 5 0)).getD k 0 =
        storedOver (s.setReg 2 0xFFFFD) 0xFFFFD (storedValue (.stb 1 2) (s.setReg 2 0xFFFFD)) (fetchAddress .RI t.pc k)) ∧
    ∃ t, exec (.push 2) u = .next t ∧ t.isLocked = false ∧ t.pc.toNat < Config.memSize ∧
      ∀ k, k < (encodeWith Config.opc (.ldi 1 0)).length → (encodeWith Config.opc (.ldi 1 0)).getD k 0 =
        storedOver u (storedBytes (.push 2) u).1 (storedValue (.push 2) u) (fetchAddress .RI t.pc k) := ⟨⟨_, rfl, by decide, by decide, by unfold storedOver; decide⟩, _, rfl, by decide, by decide, by unfold storedOver; decide⟩

/-- An instruction of format A whose operand ends with the last byte of memory. -/
theorem witness_StoredByteIsFetchedNext_jmpa :
    let s := (start 0xFFFF5 []).setReg 1 0x29000000
    Function.Injective Config.opc ∧ s.mem.wf = true ∧
      ∃ t, exec (.sta 1 0xFFFFB) s = .next t ∧ t.isLocked = false ∧ t.pc.toNat < Config.memSize ∧ OperandReadable t 1 ∧
        ∀ k, k < (encodeWith Config.opc (.jmpa 0)).length → (encodeWith Config.opc (.jmpa 0)).getD k 0 =
          storedOver s (storedBytes (.sta 1 0xFFFFB) s).1 (storedValue (.sta 1 0xFFFFB) s) (fetchAddress .A t.pc k) := ⟨opc_injective, by decide, _, rfl, by decide, by decide, by unfold OperandReadable; decide, by unfold storedOver; decide⟩

/-- Values that meet the hypotheses. -/
theorem witness_PushAndPopResults :
    (start 0 []).mem.wf = true ∧ (((start 0 []).setSp 4).sp - 4).toNat + 4 ≤ Config.memSize ∧
      (((start 0 []).setSp 0x100000).sp - 4).toNat + 4 ≤ Config.memSize ∧ ((start 0 []).setSp 0xFFFFC).sp.toNat + 4 ≤ Config.memSize := by decide

/-- Values that meet the hypotheses. -/
theorem witness_StackAndCallFaults :
    let s := (start 0xFFFFC []).setReg 1 0xFFFFD
    Config.memSize < ((s.setSp 3).sp - 4).toNat + 4 ∧ (s.sp - 4).toNat + 4 ≤ Config.memSize ∧
      Config.memSize < (s.reg 1).toNat + 4 ∧ ¬ OperandReadable s 1 ∧ Config.memSize < (s.setSp 0xFFFFD).sp.toNat + 4 := by unfold OperandReadable; decide

/-- Values that meet the hypotheses. -/
theorem witness_PopAfterPushReturnsTheValue :
    (start 0 []).mem.wf = true ∧ 4 ≤ ((start 0 []).setSp 4).sp.toNat ∧ ((start 0 []).setSp 4).sp.toNat ≤ Config.memSize ∧
      ((start 0 []).setSp 0x100000).sp.toNat ≤ Config.memSize := by decide

/-- Values that meet the hypotheses. -/
theorem witness_JumpResults :
    ((start 0 []).setReg 1 0xFFFFC |>.reg 1).toNat + 4 ≤ Config.memSize ∧ OperandReadable (start 0xFFFFB []) 1 := by unfold OperandReadable; decide

/-- Values that meet the hypotheses. -/
theorem witness_CallThroughPointerResult :
    let s := (start 0 []).setReg 1 0xFFFFC
    s.mem.wf = true ∧ (s.sp - 4).toNat + 4 ≤ Config.memSize ∧ (s.reg 1).toNat + 4 ≤ Config.memSize ∧
      ((s.setSp 0x100000).sp - 4).toNat + 4 ≤ Config.memSize := by decide

/-- Values that meet the hypotheses. -/
theorem witness_CallAbsoluteResult :
    let s := start 0xFFFFB [0x2B, 0x00, 0x00, 0x00, 0x20]
    s.mem.wf = true ∧ (s.sp - 4).toNat + 4 ≤ Config.memSize ∧ OperandReadable s 1 ∧
      HoldsAt s (after s.pc 1).toNat (longBytes 0x20) ∧ (s.sp - 4).toNat + 4 ≤ (after s.pc 1).toNat := by unfold OperandReadable HoldsAt; decide

/-- Values that meet the hypotheses. -/
theorem witness_CallAbsoluteResult_below :
    let s := (start 0xC [0x2B, 0x00, 0x00, 0x00, 0x20]).setSp 0xC
    s.mem.wf = true ∧ (s.sp - 4).toNat + 4 ≤ Config.memSize ∧ OperandReadable s 1 ∧
      HoldsAt s (after s.pc 1).toNat (longBytes 0x20) ∧ (s.sp - 4).toNat + 4 ≤ (after s.pc 1).toNat := by unfold OperandReadable HoldsAt; decide

/-- Values that meet the hypotheses. -/
theorem witness_ReturnResult :
    ((start 0 []).setSp 0xFFFFC).sp.toNat + 4 ≤ Config.memSize := by decide

/-- Values that meet the hypotheses. -/
theorem witness_ReturnAfterCallComesBack :
    let s := start 0xFFFFA [0x2B, 0x00, 0x00, 0x00, 0x20]
    let r := (start 0xFFFFD []).setReg 1 0x40
    (s.mem.wf = true ∧ s.pc.toNat + 5 < Config.memSize ∧ ∃ t, exec (.jsra 0x20) s = .next t ∧ t.isLocked = false ∧
      (t.setMem (t.mem.set 0 7)).sp = t.sp ∧
      ∀ k, k < 4 → (t.setMem (t.mem.set 0 7)).mem.get (t.sp.toNat + k) = t.mem.get (t.sp.toNat + k)) ∧
    r.mem.wf = true ∧ r.pc.toNat + 2 < Config.memSize ∧ ∃ t, exec (.jsr 1) r = .next t ∧ t.isLocked = false := ⟨⟨by decide, by decide, _, rfl, by decide, by decide, by decide⟩, by decide, by decide, _, rfl, by decide⟩

/-- Values that meet the hypotheses. -/
theorem witness_IntCheckServicesTheKeyboard :
    (start 0 []).isLocked = false ∧ ({ start 0 [] with locked := true } : State).isLocked = true ∧
      (start 0 []).pending ≠ some keyboardId ∧ ((start 0 []).setPending (some 0)).pending ≠ some keyboardId ∧
      ((start 0 []).setPending (some 1)).pending = some keyboardId ∧ (15 : Reg) ≠ 0 := by decide

/-- Values that meet the hypotheses. -/
theorem witness_PendingRequestIsKeptUntilServiced :
    ((start 0 []).setPending (some 1)).pending = some keyboardId ∧ (∀ id, Instr.nop ≠ .int id) ∧
      (∃ t, exec .nop (start 0 []) = .next t ∧ t.isLocked = false) ∧
      ∃ c, hostCommand Config.opc (.reset [0x2C]) (block (start 0 [])) = .next c := ⟨by decide, fun _ => by simp, ⟨_, rfl, by decide⟩, _, rfl⟩

/-- Values that meet the hypotheses. -/
theorem witness_KeyboardRequestWaitsForAKey :
    let s := start 0xFFFFF [0x2E]
    Function.Injective Config.opc ∧ (withBytes s 0 [0x01]).isLocked = false ∧
      NextInstr Config.opc (withBytes s 0 [0x01]) (.int keyboardId) ∧ WaitingForKey ((s.setPending (some 1)).setRunning false) := ⟨opc_injective, by decide, by unfold NextInstr; decide, by decide, by decide, by decide⟩

/-- Values that meet the hypotheses. -/
theorem witness_StoppedMachineOnlyChecksInterrupts :
    let s := (start 0 []).setRunning false
    s.isLocked = false ∧ s.running = false ∧ s.pending ≠ some keyboardId ∧ Ended s ∧
      EndedWithRequest (s.setPending (some 2)) := ⟨by decide, by decide, by decide, ⟨by decide, by decide, by decide, by decide⟩, by decide, ⟨2, by decide, by decide⟩,
    by decide, by decide⟩

/-- Values that meet the hypotheses. -/
theorem witness_RunHasOneFate :
    (∃ b, PostReset Config.opc b ∧ ∃ c, RunAt Config.opc b 0 c) ∧
      ∃ t, frameTick Config.opc 4 (start 0 [0x01]) = .next t ∧ Ended t := ⟨⟨_, ⟨[], block State.reset, rfl⟩, _, ⟨[], block State.reset, rfl⟩, _, rfl, rfl⟩, _, rfl, by decide, by decide, by decide, by decide⟩

/-- A run that has ended after one tick: the image is one `halt`, and SPEED is FRAME_RATE, so that the budget is not 0. -/
theorem witness_RunHasOneFate_ended :
    ∃ b c, RunAt Config.opc b 1 c ∧ Ended c.core := by
  have hu : ∀ (c : State) (n : Nat), c.isLocked = false → c.pending = none →
      stepWith Config.opc c = .next { c with pc := 1, running := false } → c.running = true →
      stepCost Config.opc c = .rest → frameTick Config.opc (n + 1) c = .next { c with pc := 1, running := false } := by
    intro c n hl hp hst hr hk
    rw [frameTick, frameLoop_turn hr n.succ_pos hl hst, hk, frameLoop_stop (.inl rfl)]
    simp [thenIntCheck, intCheckUnlessLocked, intCheck, hp]
  obtain ⟨b, hr⟩ : ∃ b, hostCommand Config.opc (.reset [0x01]) ⟨start 0 [], Config.frameRate⟩ = .next b := ⟨_, rfl⟩
  obtain ⟨d, hd⟩ : ∃ d, hostCommand Config.opc (.setRunning true) b = .next d := by cases hr; exact ⟨_, rfl⟩
  obtain ⟨t, ht, hc⟩ := hostCommand_frameTick Config.opc d
  refine ⟨b, _, ⟨⟨_, _, hr⟩, d, hd, hc⟩, ?_⟩
  have hv : d.speed = Config.frameRate := by cases hr; cases hd; rfl
  have hp : 0 < Config.frameRate := Nat.succ_pos _
  have hpos : 0 < d.cycleBudget := by
    rw [Block.cycleBudget, hv, cyclesPerFrame]
    exact Nat.div_pos (Nat.le_mul_of_pos_right _ (by norm_num)) hp
  obtain ⟨n, hn⟩ := Nat.exists_eq_add_one.mpr hpos
  rw [hn, hu d.core n (by cases hr; cases hd; rfl) (by cases hr; cases hd; rfl) (by cases hr; cases hd; rfl)
    (by cases hr; cases hd; rfl) (by cases hr; cases hd; rfl)] at ht
  cases ht
  cases hr
  cases hd
  exact ⟨rfl, rfl, rfl, rfl⟩

/-- Values that meet the hypotheses. -/
theorem witness_NopFrameRunsCeilingOfQuarterBudget :
    let s := start 0xFFFFD []
    s.isLocked = false ∧ s.running = true ∧ s.pending ≠ some keyboardId ∧
      s.pc.toNat < Config.memSize ∧ ∀ k, k < (17 + 3) / 4 → s.mem.get (after s.pc k).toNat = Config.opc .nop := by decide

/-- Values that meet the hypotheses. -/
theorem witness_HaltAndIntEndTheFrame :
    let s := start 0xFFFFF [0x01]
    let u := withBytes (start 0xFFFFF [0x2E]) 0 [0x02]
    let v := start 0xFFFFE [0x2E, 0x01]
    s.isLocked = false ∧ s.running = true ∧ s.pending ≠ some keyboardId ∧ 0 < 1 ∧ NextInstr Config.opc s .halt ∧
      u.isLocked = false ∧ u.running = true ∧ u.pending ≠ some keyboardId ∧ (2 : Byte) ≠ keyboardId ∧
      NextInstr Config.opc u (.int 2) ∧ v.isLocked = false ∧ v.running = true ∧ v.pending ≠ some keyboardId ∧
      NextInstr Config.opc v (.int keyboardId) := by unfold NextInstr; decide

/-- Values that meet the hypotheses. -/
theorem witness_CycleCosts :
    Mnemonic.nop ≠ .halt ∧ Mnemonic.nop ≠ .int ∧ (start 0 [0x2E]).mem.get (start 0 [0x2E]).pc.toNat = Config.opc .int ∧
      ∀ m ∈ Mnemonic.all, Config.opc m ≠ (start 0 [0x2F]).mem.get (start 0 [0x2F]).pc.toNat := by decide

/-- Values that meet the hypotheses. -/
theorem witness_SetRunningChangesRunningOnly :
    let s := ((start 0 []).setPending (some 1)).setRunning false
    (block s).core.isLocked = false ∧ (block s).core.pending = some keyboardId ∧
      (block { s with locked := true }).core.isLocked = true ∧
      ∃ c, hostCommand Config.opc (.setRunning true) (block s) = .next c ∧
        ∃ u, coreStep Config.opc c.core = .next u ∧ u.isLocked = false ∧ u.pending = some keyboardId := ⟨by decide, by decide, by decide, _, rfl, _, rfl, by decide, by decide⟩

/-- Values that meet the hypotheses. -/
theorem witness_SetSpeedRecomputesTheBudget :
    (block (start 0 [])).core.isLocked = false ∧ (block { start 0 [] with locked := true }).core.isLocked = true ∧
      [(0x2C : Byte)].length ≤ Config.memSize := by decide

/-- Values that meet the hypotheses. -/
theorem witness_OnlyBranchesReadFlags :
    let s := (start 0x53 []).setFlags (flags true false false false)
    (∃ t, exec (.bge 0x60) s = .next t ∧ t.isLocked = false) ∧ isBranch (.bge 0x60) = true ∧
      (flags true true true false).zero = s.flags.zero ∧ (flags true true true false).negative = s.flags.negative ∧
      (∃ t, exec (.cmp 1 2) s = .next t ∧ t.isLocked = false) ∧ isCompare (.cmp 1 2) = true := ⟨⟨_, rfl, by decide⟩, by decide, by decide, by decide, ⟨_, rfl, by decide⟩, by decide⟩

/-- Values that meet the hypotheses. -/
theorem witness_InstructionFrame :
    let s := (start 0x10 []).setReg 1 0x100000
    (∃ t, exec (.sta 1 0xFFFFC) s = .next t ∧ t.isLocked = false) ∧ storedBytes (.sta 1 0xFFFFC) s = (0xFFFFC, 4) ∧
      (∃ t, exec (.push 1) s = .next t ∧ t.isLocked = false) ∧ storedBytes (.push 1) s = (0xEFFFC, 4) ∧
      ∃ t, exec (.div 1 1) s = .next t ∧ t.isLocked = false := ⟨⟨_, rfl, by decide⟩, by decide, ⟨_, rfl, by decide⟩, by decide, _, rfl, by decide⟩

/-- Values that meet the hypotheses. -/
theorem witness_HostMemoryWriteIsFetched :
    let b := block (start 0xFFFFD [0x02, 0x01])
    b.core.isLocked = false ∧ b.core.mem.wf = true ∧ 0xFFFFF < Config.memSize ∧ Config.memSize ≤ 0x100000 ∧
      b.core.pc.toNat < Config.memSize ∧
      (∀ k, k < (encodeWith Config.opc (.add 1 3)).length → (encodeWith Config.opc (.add 1 3)).getD k 0 =
        storedOver b.core 0xFFFFF [0x03] (fetchAddress .RR b.core.pc k)) ∧
      b.core.pc.toNat = 0xFFFFD ∧ ∀ m ∈ Mnemonic.all, Config.opc m ≠ 0x2F := by unfold storedOver; decide

end Sys2Proof.Tests
end

section
/-! SUPPORT. What one instruction can end in, said once for all 47 of them, and what every step therefore keeps. -/

namespace Sys2Proof.Machine

open Sys2Proof.Safety

/-- The lock is told from two fields alone (R202). -/
theorem State.isLocked_congr {s t : State} (hf : t.fault = s.fault) (hl : t.locked = s.locked) :
    t.isLocked = s.isLocked := by simp only [State.isLocked, hf, hl]

@[simp] theorem State.setRunning_isLocked (s : State) (b : Bool) : (s.setRunning b).isLocked = s.isLocked :=
  State.isLocked_congr (s.setRunning_fault b) (s.setRunning_locked b)

@[simp] theorem State.setMem_isLocked (s : State) (m : Memory) : (s.setMem m).isLocked = s.isLocked :=
  State.isLocked_congr (s.setMem_fault m) (s.setMem_locked m)

/-- The four bytes a push stores are those of the word as an operand (R43, R64). -/
theorem beBytes_four_word (v : Word) : beBytes 4 v.toNat = longBytes v := by
  simp only [beBytes, longBytes, List.cons.injEq, and_true]
  refine ⟨?_, ?_, ?_, ?_⟩ <;>
    exact BitVec.eq_of_toNat_eq (by simp [BitVec.extractLsb'_toNat, Nat.shiftRight_eq_div_pow])

/-- The one byte `stb` stores is the low byte of the word (R174). -/
theorem beBytes_one_word (v : Word) : beBytes 1 v.toNat = [v.extractLsb' 0 8] := by
  simp only [beBytes, List.cons.injEq, and_true]
  exact BitVec.eq_of_toNat_eq (by simp [BitVec.extractLsb'_toNat])

/-- `t` differs from `s` in what the instruction `i` names, and in `pc` and the count of free values, at most. -/
structure Completes (i : Instr) (s t : State) : Prop where
  regs : SameRegsBut (writtenRegs i) s t
  sp : t.sp = s.sp ∨ movesStack i = true ∧ (t.sp = s.sp - 4 ∨ t.sp = s.sp + 4)
  flags : t.flags = s.flags ∨ isCompare i = true ∧ ∃ a b, t.flags = compareFlags a b
  mem : t.mem = s.mem ∨ storesMemory i = true ∧ t.mem = s.mem.storeBytes (storedBytes i s).1 (storedValue i s)
  running : t.running = s.running ∨ i = .halt
  pending : t.pending = s.pending ∨ ∃ id, i = .int id
  fault : t.fault = s.fault
  locked : t.locked = s.locked

/-- `t` is what raising a fatal fault makes of a state whose latch is that of `s`. -/
def FaultsFatally (s t : State) : Prop :=
  ∃ (f : FaultRecord) (u : State), f.isFatal = true ∧ u.fault = s.fault ∧ t = u.raise f

/-- The two ends of an instruction: it completes, or it raises a fatal fault. -/
def EndsIn (i : Instr) (s t : State) : Prop := Completes i s t ∨ FaultsFatally s t

namespace Completes

variable {i : Instr} {s u : State}

theorem refl (i : Instr) (s : State) : Completes i s s :=
  ⟨fun _ _ => rfl, .inl rfl, .inl rfl, .inl rfl, .inl rfl, .inl rfl, rfl, rfl⟩

theorem setPc (h : Completes i s u) (p : Word) : Completes i s (u.setPc p) := { h with }

theorem advance (h : Completes i s u) (n : Nat) : Completes i s (u.advance n) := h.setPc _

theorem draw (h : Completes i s u) : Completes i s u.draw := { h with }

theorem opcodeFetched (i : Instr) (s : State) : Completes i s s.opcodeFetched := (refl i s).advance 1

theorem fetchedR (i : Instr) (s : State) : Completes i s s.fetchedR := (opcodeFetched i s).advance 1

theorem fetchedRR (i : Instr) (s : State) : Completes i s s.fetchedRR := (fetchedR i s).advance 1

theorem setReg (h : Completes i s u) {r : Reg} (hr : r ∈ writtenRegs i) (v : Word) : Completes i s (u.setReg r v) :=
  { h with
    regs := fun q hq => by rw [State.setReg_reg_of_ne u v (ne_of_mem_of_not_mem hr hq).symm, h.regs q hq] }

theorem setFlags (h : Completes i s u) (hi : isCompare i = true) (a b : Word) :
    Completes i s (u.setFlags (compareFlags a b)) := { h with flags := .inr ⟨hi, a, b, rfl⟩ }

theorem setSp (h : Completes i s u) (hi : movesStack i = true) {v : Word} (hv : v = s.sp - 4 ∨ v = s.sp + 4) :
    Completes i s (u.setSp v) := { h with sp := .inr ⟨hi, hv⟩ }

theorem setMem (h : Completes i s u) (hi : storesMemory i = true) {m : Memory}
    (hm : m = s.mem.storeBytes (storedBytes i s).1 (storedValue i s)) : Completes i s (u.setMem m) :=
  { h with mem := .inr ⟨hi, hm⟩ }

theorem setRunning (h : Completes .halt s u) (b : Bool) : Completes .halt s (u.setRunning b) :=
  { h with running := .inr rfl }

theorem setPending {id : Byte} (h : Completes (.int id) s u) (p : Option Byte) :
    Completes (.int id) s (u.setPending p) := { h with pending := .inr ⟨id, rfl⟩ }

/-- An instruction that completes locks nothing. -/
theorem isLocked (h : Completes i s u) : u.isLocked = s.isLocked := State.isLocked_congr h.fault h.locked

end Completes

theorem FaultsFatally.isLocked {s t : State} (h : FaultsFatally s t) : t.isLocked = true := by
  obtain ⟨f, u, hf, -, rfl⟩ := h
  exact State.raise_isLocked hf u

namespace EndsIn

variable {i : Instr} {s u : State}

theorem raise (h : Completes i s u) {f : FaultRecord} (hf : f.isFatal = true) : EndsIn i s (u.raise f) :=
  .inr ⟨f, u, hf, h.fault, rfl⟩

theorem load4 (h : Completes i s u) (a : Word) {k : Word → State} (hk : ∀ v, EndsIn i s (k v)) :
    EndsIn i s (u.load4 a k) := by
  rcases u.load4_cases a k with ⟨v, -, hv⟩ | hf
  · rw [hv]; exact hk v
  · rw [hf]; exact raise h rfl

theorem longFetched (h : Completes i s u) {k : State → State} (hk : EndsIn i s (k (u.advance 4))) :
    EndsIn i s (u.longFetched k) := by
  rcases u.longFetched_cases k with ⟨-, hr⟩ | hf
  · rw [hr]; exact hk
  · rw [hf]; exact raise h rfl

theorem fetchRI {k : State → State} (hk : ∀ u, Completes i s u → EndsIn i s (k u)) : EndsIn i s (s.fetchRI k) :=
  longFetched (.fetchedR i s) (hk _ (.advance (.fetchedR i s) 4))

theorem store (h : Completes i s u) (hm : u.mem = s.mem) (hi : storesMemory i = true) {a : Word} {n v : Nat}
    (ha : (storedBytes i s).1 = a.toNat) (hv : beBytes n v = storedValue i s) {k : State → State}
    (hk : ∀ u', Completes i s u' → EndsIn i s (k u')) : EndsIn i s (u.store a n v k) := by
  rcases u.store_cases a n v k with ⟨-, hr⟩ | hf
  · rw [hr]
    exact hk _ (h.setMem hi (by rw [hm, ha, hv]))
  · rw [hf]; exact raise h rfl

theorem push (h : Completes i s u) (hm : u.mem = s.mem) (hsp : u.sp = s.sp) (hi : storesMemory i = true)
    (hi' : movesStack i = true) {v : Word} (ha : (storedBytes i s).1 = (s.sp - 4).toNat)
    (hv : storedValue i s = longBytes v) {k : State → State} (hk : ∀ u', Completes i s u' → EndsIn i s (k u')) :
    EndsIn i s (u.push v k) := by
  rcases u.push_cases v k with ⟨-, hr⟩ | hf
  · rw [hr]
    exact hk _ ((h.setSp hi' (.inl (by rw [hsp]))).setMem hi (by rw [hm, hsp, ha, hv, beBytes_four_word]))
  · rw [hf]; exact raise (h.setSp hi' (.inl (by rw [hsp]))) rfl

theorem pop (h : Completes i s u) (hsp : u.sp = s.sp) (hi : movesStack i = true) {k : Word → State → State}
    (hk : ∀ v u', Completes i s u' → EndsIn i s (k v u')) : EndsIn i s (u.pop k) := by
  rcases u.pop_cases k with ⟨v, -, hr⟩ | hf
  · rw [hr]; exact hk v _ (h.setSp hi (.inr (by rw [hsp])))
  · rw [hf]; exact raise h rfl

theorem registerOp {r1 : Reg} (hr : r1 ∈ writtenRegs i) (op : Word → Word → Word) (r2 : Reg) :
    EndsIn i s (registerOp op r1 r2 s) := .inl (.setReg (.fetchedRR i s) hr _)

theorem immediateOp {r1 : Reg} (hr : r1 ∈ writtenRegs i) (op : Word → Word → Word) (imm : Word) :
    EndsIn i s (immediateOp op r1 imm s) := fetchRI fun _ h => .inl (h.setReg hr _)

theorem unaryOp {r1 : Reg} (hr : r1 ∈ writtenRegs i) (op : Word → Word) : EndsIn i s (unaryOp op r1 s) :=
  .inl (.setReg (.fetchedR i s) hr _)

theorem divideInto {r1 : Reg} (hr : r1 ∈ writtenRegs i) (h0 : 0 ∈ writtenRegs i) (h : Completes i s u)
    (a b a0 : Word) : EndsIn i s (divideInto r1 a b a0 u) := by
  rcases divideInto_cases r1 a b a0 u with ⟨-, hq⟩ | ⟨-, hf⟩
  · rw [hq]; exact .inl ((h.setReg hr _).setReg h0 _)
  · rw [hf]; exact raise h rfl

theorem branch (c : Bool) (addr : Word) : EndsIn i s (branch c addr s) := by
  rcases branch_cases c addr s with ⟨-, h⟩ | ⟨-, h⟩ | ⟨-, h⟩ <;> rw [h]
  · exact .inl (.advance (.opcodeFetched i s) 4)
  · exact .inl (.setPc (.advance (.opcodeFetched i s) 4) addr)
  · exact raise (.opcodeFetched i s) rfl

end EndsIn

/-- A branch is decided by what the spec's table says of its condition, in every state (R161). -/
theorem exec_branch {i : Instr} (h : isBranch i = true) :
    ∃ addr, ∀ s, exec i s = .next (branch (branchHolds i s.flags) addr s) := by
  cases i with
  | beq addr | bne addr | bge addr | bgeu addr | bgt addr | bgtu addr | ble addr | bleu addr | blt addr
  | bltu addr => exact ⟨addr, fun _ => rfl⟩
  | _ => cases h

/-- Every instruction completes, changing what it names at most, or raises a fatal fault (R202, R206). -/
theorem exec_endsIn (i : Instr) (s : State) : ∃ t, exec i s = .next t ∧ EndsIn i s t := by
  cases i with
  | nop => exact ⟨_, rfl, .inl (.opcodeFetched _ s)⟩
  | halt => exact ⟨_, rfl, .inl (.setRunning (.opcodeFetched _ s) false)⟩
  | add | sub | mul | mulu | and | or | xor => exact ⟨_, rfl, .registerOp (.head _) _ _⟩
  | addi | subi | muli | andi | ori | xori => exact ⟨_, rfl, .immediateOp (.head _) _ _⟩
  | neg | not => exact ⟨_, rfl, .unaryOp (.head _) _⟩
  | div | divu => exact ⟨_, rfl, .divideInto (.head _) (.tail _ (.head _)) (.fetchedRR _ s) _ _ _⟩
  | divi => exact ⟨_, rfl, .fetchRI fun _ h => .divideInto (.head _) (.tail _ (.head _)) h _ _ _⟩
  | cmp => exact ⟨_, rfl, .inl (.setFlags (.fetchedRR _ s) rfl _ _)⟩
  | cmpi => exact ⟨_, rfl, .fetchRI fun _ h => .inl (h.setFlags rfl _ _)⟩
  | beq | bne | bge | bgeu | bgt | bgtu | ble | bleu | blt | bltu => exact ⟨_, rfl, .branch _ _⟩
  | ld => exact ⟨_, rfl, .fetchRI fun _ h => .load4 h _ fun v => .inl (h.setReg (.head _) v)⟩
  | lda => exact ⟨_, rfl, .fetchRI fun _ h => .load4 h _ fun p => .load4 h p fun v => .inl (h.setReg (.head _) v)⟩
  | ldi => exact ⟨_, rfl, .fetchRI fun _ h => .inl (h.setReg (.head _) _)⟩
  | ldr => exact ⟨_, rfl, .load4 (.fetchedRR _ s) _ fun v => .inl (.setReg (.fetchedRR _ s) (.head _) v)⟩
  | stb => exact ⟨_, rfl, .store (.fetchedRR _ s) rfl rfl rfl (beBytes_one_word _) fun _ h => .inl h⟩
  | sta =>
    exact ⟨_, rfl, .longFetched (.fetchedR _ s) (.store (.advance (.fetchedR _ s) 4) rfl rfl rfl
      (beBytes_four_word _) fun _ h => .inl h)⟩
  | push => exact ⟨_, rfl, .push (.fetchedR _ s) rfl rfl rfl rfl rfl rfl fun _ h => .inl h⟩
  | pop => exact ⟨_, rfl, .pop (.fetchedR _ s) rfl rfl fun v _ h => .inl (h.setReg (.head _) v)⟩
  | jmp => exact ⟨_, rfl, .load4 (.fetchedR _ s) _ fun v => .inl (.setPc (.fetchedR _ s) v)⟩
  | jmpa => exact ⟨_, rfl, .longFetched (.opcodeFetched _ s) (.inl (.setPc (.advance (.opcodeFetched _ s) 4) _))⟩
  | jsr =>
    exact ⟨_, rfl, .push (.fetchedR _ s) rfl rfl rfl rfl rfl rfl fun _ h => .load4 h _ fun v => .inl (h.setPc v)⟩
  | jsra =>
    exact ⟨_, rfl, .push (.opcodeFetched _ s) rfl rfl rfl rfl rfl rfl fun _ h =>
      .longFetched h (.inl ((h.advance 4).setPc _))⟩
  | ret => exact ⟨_, rfl, .pop (.opcodeFetched _ s) rfl rfl fun v _ h => .inl (h.setPc v)⟩
  | rnd => exact ⟨_, rfl, .inl (.setReg (.draw (.fetchedRR _ s)) (.head _) _)⟩
  | int => exact ⟨_, rfl, .inl (.setPending (.fetchedR _ s) _)⟩

/-- An instruction that does not lock the machine completes. -/
theorem completes_of_exec {i : Instr} {s t : State} (h : exec i s = .next t) (hl : t.isLocked = false) :
    Completes i s t := by
  obtain ⟨t', ht', he⟩ := exec_endsIn i s
  obtain rfl : t = t' := Host.Outcome.next.inj (h.symm.trans ht')
  rcases he with hc | hf
  · exact hc
  · simp [hf.isLocked] at hl

end Sys2Proof.Machine
end

section
/-! SUPPORT. The invariants: what every step, every frame tick and every command of the host keeps (O5 to O8), and the frame
of an instruction (O59). -/

namespace Sys2Proof.Machine

open Sys2Proof.Safety

/-- What a step can be, its interrupt check included: an instruction that completes, a fatal fault, or an unknown opcode
skipped (R67, R68, R202, R210). -/
theorem stepWith_cases {o : Mnemonic → Byte} {s t : State} (h : stepWith o s = .next t) :
    ∃ u, (t = u ∨ t = intCheck u) ∧
      ((∃ i, Completes i s u) ∨ FaultsFatally s u ∨ ∃ op, u = (s.advance 1).latch (.unknownOpcode op s.pc)) := by
  obtain ⟨hl, u, hu, rfl⟩ := stepWith_next h
  refine ⟨u, (intCheckUnlessLocked_cases u).imp And.right And.right, ?_⟩
  cases hf : fetch o s with
  | ok i =>
    rw [coreStep_of_fetch hl hf] at hu
    obtain ⟨t, ht, hc | hr⟩ := exec_endsIn i s <;> obtain rfl := Host.Outcome.next.inj (hu.symm.trans ht)
    · exact .inl ⟨i, hc⟩
    · exact .inr (.inl hr)
  | error e =>
    rw [coreStep_of_error hl hf] at hu
    obtain rfl := Host.Outcome.next.inj hu
    exact .inr ((fetch_error hf).imp (fun ⟨f, hf, hu⟩ => ⟨f, s, hf, rfl, hu⟩) id)

/-- What survives an instruction that completes, a fatal fault, a skipped opcode and the interrupt check survives a step. -/
theorem stepWith_keeps {P : State → Prop} {o : Mnemonic → Byte} {s t : State}
    (hdone : ∀ i u, Completes i s u → P u) (hfatal : ∀ u, FaultsFatally s u → P u)
    (hskip : ∀ op, P ((s.advance 1).latch (.unknownOpcode op s.pc))) (hcheck : ∀ u, P u → P (intCheck u))
    (h : stepWith o s = .next t) : P t := by
  obtain ⟨u, ht, hu⟩ := stepWith_cases h
  have hPu : P u := by
    rcases hu with ⟨i, hc⟩ | hr | ⟨op, rfl⟩
    · exact hdone i u hc
    · exact hfatal u hr
    · exact hskip op
  rcases ht with rfl | rfl
  · exact hPu
  · exact hcheck u hPu

/-- What every step and the interrupt check keep, a frame tick keeps. -/
theorem frameTick_keeps {P : State → Prop} {o : Mnemonic → Byte} (hstep : ∀ s t, P s → stepWith o s = .next t → P t)
    (hcheck : ∀ s, P s → P (intCheck s)) {budget : Nat} {s t : State} (hs : P s)
    (h : frameTick o budget s = .next t) : P t := by
  obtain ⟨u, hu, hPu⟩ := frameTick_induction (fun s t hs _ => hstep s t hs) (fun s hs _ => hcheck s hs) budget hs
  exact Host.Outcome.next.inj (hu.symm.trans h) ▸ hPu

theorem Block.withCore_eq_next {b d : Block} {out : Host.Outcome State Fault Refusal}
    (h : b.withCore out = .next d) : out = .next d.core := by
  cases out with
  | next t => obtain rfl := Host.Outcome.next.inj h; rfl
  | fault | refused => cases h

theorem Block.unlessLocked_eq_next {b d : Block} {out : Host.Outcome Block Fault Refusal}
    (h : b.unlessLocked out = .next d) : d = b ∨ out = .next d := by
  cases hl : b.core.isLocked with
  | true => rw [Block.unlessLocked_of_locked hl] at h; exact .inl (Host.Outcome.next.inj h).symm
  | false => rw [Block.unlessLocked_of_unlocked hl] at h; exact .inr h

/-- What a reset establishes and `setRunning`, a step, the interrupt check and a write of a byte keep, every command of the
host keeps in the core (R234). -/
theorem hostCommand_keeps {P : State → Prop} {o : Mnemonic → Byte}
    (hreset : ∀ image flags n, P (State.afterReset (Memory.ofImage image) flags n))
    (hrun : ∀ s r, P s → P (s.setRunning r)) (hstep : ∀ s t, P s → stepWith o s = .next t → P t)
    (hcheck : ∀ s, P s → P (intCheck s)) (hset : ∀ s a v, P s → P (s.setMem (s.mem.set a v)))
    {c : HostCommand} {b d : Block} (hb : P b.core) (h : hostCommand o c b = .next d) : P d.core := by
  have unlocked {out} (h : b.unlessLocked out = .next d) (hout : out = .next d → P d.core) : P d.core := by
    rcases Block.unlessLocked_eq_next h with rfl | h
    · exact hb
    · exact hout h
  cases c with
  | reset image =>
    have hr := Block.withCore_eq_next h
    unfold hostReset at hr
    split at hr
    · exact Host.Outcome.next.inj hr ▸ hreset image _ _
    · cases hr
  | setSpeed v => exact unlocked h fun h => Host.Outcome.next.inj h ▸ hb
  | setRunning r => exact unlocked h fun h => Host.Outcome.next.inj h ▸ hrun _ r hb
  | step => exact unlocked h fun h => hstep _ _ hb (Block.withCore_eq_next h)
  | frameTick => exact unlocked h fun h => frameTick_keeps hstep hcheck hb (Block.withCore_eq_next h)
  | writeMemory a v =>
    refine unlocked h fun h => ?_
    have hw := Block.withCore_eq_next h
    unfold hostWriteMemory at hw
    split at hw
    · exact Host.Outcome.next.inj hw ▸ hset _ a v hb
    · cases hw

section StateInv

variable {s t : State}

theorem stateInv_intCheck (h : StateInv s) : StateInv (intCheck s) := by simpa [StateInv] using h

theorem stateInv_of_completes {i : Instr} (hs : StateInv s) (h : Completes i s t) : StateInv t := by
  obtain ⟨hwf, hlatch⟩ := hs
  refine ⟨?_, by rwa [h.locked, h.fault]⟩
  rcases h.mem with hm | ⟨-, hm⟩ <;> rw [hm]
  · exact hwf
  · exact Memory.wf_storeBytes _ _ hwf

theorem stateInv_of_faultsFatally (h : FaultsFatally s t) : StateInv t := by
  obtain ⟨f, u, hf, -, rfl⟩ := h
  refine ⟨?_, by simp⟩
  simp only [State.raise, hf, if_true]
  exact Memory.wf_ofImage _

theorem stateInv_stepWith {o : Mnemonic → Byte} (hs : StateInv s) (h : stepWith o s = .next t) : StateInv t :=
  stepWith_keeps (fun _ _ => stateInv_of_completes hs) (fun _ => stateInv_of_faultsFatally)
    (fun _ => ⟨hs.1, fun _ => rfl⟩) (fun _ => stateInv_intCheck) h

theorem stateInv_afterReset (image : List Byte) (flags : Flags) (n : Nat) :
    StateInv (State.afterReset (Memory.ofImage image) flags n) := ⟨Memory.wf_ofImage image, by simp⟩

end StateInv

/-- Settles O5: a step ends in an instruction's completion, a fatal fault or a skipped opcode, and each keeps both parts. -/
theorem stepKeepsInvariant : Obligations.StepKeepsInvariant :=
  ⟨fun _ _ => stateInv_stepWith, fun _ _ _ _ =>
    hostCommand_keeps stateInv_afterReset (fun _ _ hs => hs) (fun _ _ => stateInv_stepWith) (fun _ => stateInv_intCheck)
      fun _ a v hs => ⟨Memory.wf_set hs.1 a v, hs.2⟩⟩

section StackAligned

variable {s t : State}

theorem stackAligned_congr (hsp : t.sp.toNat % 4 = s.sp.toNat % 4) (hl : t.isLocked = s.isLocked)
    (hs : StackAligned s) : StackAligned t := fun ht => by rw [hsp, hs (hl ▸ ht)]

theorem stackAligned_intCheck (h : StackAligned s) : StackAligned (intCheck s) :=
  stackAligned_congr (by rw [intCheck_sp]) (intCheck_isLocked s) h

/-- A move by 4, with or without a wrap mod 2^32, keeps the remainder mod 4. -/
theorem stackAligned_of_completes {i : Instr} (hs : StackAligned s) (h : Completes i s t) : StackAligned t := by
  refine stackAligned_congr ?_ h.isLocked hs
  rcases h.sp with hsp | ⟨-, hsp | hsp⟩ <;> rw [hsp]
  · bv_omega
  · bv_omega

theorem stackAligned_of_faultsFatally (h : FaultsFatally s t) : StackAligned t := fun ht => by simp [h.isLocked] at ht

theorem stackAligned_stepWith {o : Mnemonic → Byte} (hs : StackAligned s) (h : stepWith o s = .next t) :
    StackAligned t :=
  have hl : s.isLocked = false := (stepWith_next h).1
  stepWith_keeps (fun _ _ => stackAligned_of_completes hs) (fun _ => stackAligned_of_faultsFatally)
    (fun _ _ => hs hl) (fun _ => stackAligned_intCheck) h

theorem stackAligned_afterReset (m : Memory) (flags : Flags) (n : Nat) :
    StackAligned (State.afterReset m flags n) := fun _ => by rw [State.afterReset_sp]

end StackAligned

/-- Settles O6: an instruction that completes moves `sp` by 4 or not at all, and a fatal fault locks the machine. -/
theorem stepKeepsStackAlignment : Obligations.StepKeepsStackAlignment :=
  ⟨fun _ _ => stackAligned_stepWith, fun _ _ _ _ =>
    hostCommand_keeps (fun _ => stackAligned_afterReset _)
      (fun s r => stackAligned_congr (by rw [State.setRunning_sp]) (s.setRunning_isLocked r))
      (fun _ _ => stackAligned_stepWith) (fun _ => stackAligned_intCheck)
      fun s a v => stackAligned_congr (by rw [State.setMem_sp]) (s.setMem_isLocked _)⟩

/-- Two words stand in exactly one of the three orders a compare tells apart (R145). -/
theorem compareResult_compareFlags (a b : Word) : CompareResult (compareFlags a b) := by
  refine ⟨rfl, ?_⟩
  simp only [compareFlags, less_unsigned, greater_unsigned, decide_eq_true_eq, decide_eq_false_iff_not,
    ← BitVec.toNat_inj]
  omega

/-- Settles O7: the flags are written by a compare alone, and a fatal fault, which leaves them open, locks the machine. -/
theorem stepKeepsCompareResult : Obligations.StepKeepsCompareResult := by
  intro s t hs h
  refine stepWith_keeps (P := fun u => u.isLocked = false → CompareResult u.flags) ?_ ?_ ?_ ?_ h
  · intro i u hc _
    rcases hc.flags with hf | ⟨-, a, b, hf⟩ <;> rw [hf]
    · exact hs
    · exact compareResult_compareFlags a b
  · intro u hf hl
    simp [hf.isLocked] at hl
  · exact fun _ _ => hs
  · intro u hu hl
    rw [intCheck_flags]
    exact hu (intCheck_isLocked u ▸ hl)

/-- A record in the latch is there after every step (R31, R201). -/
theorem fault_stepWith {o : Mnemonic → Byte} {f : FaultRecord} {s t : State} (hs : s.fault = some f)
    (h : stepWith o s = .next t) : t.fault = some f := by
  refine stepWith_keeps (P := fun u => u.fault = some f) ?_ ?_ ?_ ?_ h
  · exact fun i u hc => hc.fault.trans hs
  · rintro _ ⟨g, u, -, hu, rfl⟩
    simp [hu, hs]
  · simp [hs]
  · exact fun u hu => (intCheck_fault u).trans hu

/-- Settles O8: `raise` keeps the first record, and nothing else writes the latch. -/
theorem faultLatchIsSticky : Obligations.FaultLatchIsSticky :=
  fun _ _ _ _ hs => ⟨fault_stepWith hs, fun _ =>
    frameTick_keeps (fun _ _ => fault_stepWith) (fun u hu => (intCheck_fault u).trans hu) hs⟩

/-- What an instruction stores lies in the bytes it names (R174, R175, R182). -/
theorem length_storedValue (i : Instr) (s : State) : (storedValue i s).length = (storedBytes i s).2 := by
  cases i <;> rfl

/-- Settles O59: an instruction that does not lock the machine completes. -/
theorem instructionFrame : Obligations.InstructionFrame := by
  intro i s t h hl
  have hc := completes_of_exec h hl
  refine ⟨hc.regs, ?_, ?_, ?_, ?_, ?_, ?_, ?_, hc.fault, hc.locked⟩
  · exact fun hi => hc.flags.resolve_right (by simp [hi])
  · exact fun hi => hc.sp.resolve_right (by simp [hi])
  · exact hc.sp.imp_right And.right
  · intro b hb
    rcases hc.mem with hm | ⟨-, hm⟩ <;> rw [hm]
    exact Memory.get_storeBytes_outside _ _ _ _ (by rwa [length_storedValue])
  · exact fun hi b => by rw [hc.mem.resolve_right (by simp [hi])]
  · exact fun hi => hc.running.resolve_right hi
  · exact fun hi => hc.pending.resolve_right (by simpa using hi)

end Sys2Proof.Machine
end

section
/-! SUPPORT. Reset (O1, O2), memory as data (O24), and who reads the flags (O58). -/

namespace Sys2Proof.Machine

open Sys2Proof.Safety

/-- Settles O1: the values are those of `State.afterReset`, over the empty memory. -/
theorem resetStateValues : Obligations.ResetStateValues := by
  refine ⟨fun r => by simp [State.reset], rfl, ?_, videoSize_le, Memory.empty_get, rfl, rfl, rfl, rfl⟩
  have hv := videoSize_le
  rw [State.reset, State.afterReset_sp, spReset_toNat, Config.videoBase]
  omega

/-- Settles O2: memory is empty, nothing is locked, and `sp` is the reset value itself. -/
theorem resetMeetsInvariants : Obligations.ResetMeetsInvariants :=
  ⟨⟨Memory.empty_wf, by simp [State.reset]⟩, fun _ => by rw [State.reset, State.afterReset_sp]⟩

/-- Canonical lists of cells that read alike everywhere are equal: the lower of two different first addresses would read as
its listed byte in one list and as unlisted in the other. -/
theorem Memory.cells_ext : ∀ {lo lo' : Nat} {xs ys : List Host.Cell}, cellsOk lo xs = true → cellsOk lo' ys = true →
    (∀ a, lookup a xs = lookup a ys) → xs = ys
  | _, _, [], [], _, _, _ => rfl
  | _, _, [], (b, v) :: ys, _, hy, h => by
    obtain ⟨-, -, hv, -⟩ := cellsOk_cons.1 hy
    exact absurd (by simpa [lookup_cons] using (h b).symm) hv
  | _, _, (b, v) :: xs, [], hx, _, h => by
    obtain ⟨-, -, hv, -⟩ := cellsOk_cons.1 hx
    exact absurd (by simpa [lookup_cons] using h b) hv
  | _, _, (b, v) :: xs, (c, w) :: ys, hx, hy, h => by
    obtain ⟨-, hb, hv, hxs⟩ := cellsOk_cons.1 hx
    obtain ⟨-, hc, hw, hys⟩ := cellsOk_cons.1 hy
    rcases lt_trichotomy b c with hlt | rfl | hgt
    · have hyb : lookup b ((c, w) :: ys) = unlisted := lookup_of_lt hlt (cellsOk_cons.2 ⟨le_rfl, hc, hw, hys⟩)
      exact absurd (by simpa [lookup_cons] using (h b).trans hyb) hv
    · have hvw : v = w := by simpa [lookup_cons] using h b
      have hrest : xs = ys := cells_ext hxs hys fun a => by
        by_cases hab : a = b
        · rw [hab, lookup_of_lt (Nat.lt_succ_self b) hxs, lookup_of_lt (Nat.lt_succ_self b) hys]
        · simpa [lookup_cons, hab] using h a
      rw [hvw, hrest]
    · have hxc : lookup c ((b, v) :: xs) = unlisted := lookup_of_lt hgt (cellsOk_cons.2 ⟨le_rfl, hb, hv, hxs⟩)
      exact absurd (by simpa [lookup_cons] using (h c).symm.trans hxc) hw

/-- Settles O24: memory is its list of cells. -/
theorem equalReadsMeanEqualMemory : Obligations.EqualReadsMeanEqualMemory :=
  fun _ _ hm hm' h => congrArg Memory.mk (Memory.cells_ext hm hm' h)

theorem State.setPc_setFlags (s : State) (f : Flags) (p : Word) : (s.setFlags f).setPc p = (s.setPc p).setFlags f := (rfl)

/-- Unless `t` is locked, where no field but the latch is specified (R202), `t'` is what `g` makes of it. -/
def EndsUpTo (g : State → State) (t t' : State) : Prop := t.isLocked = false → t' = g t

namespace EndsUpTo

variable {g : State → State} {s : State} {f : Flags}

theorem raise {r : FaultRecord} (hr : r.isFatal = true) (t' : State) : EndsUpTo g (s.raise r) t' := fun hl => by
  simp [State.raise_isLocked hr] at hl

/-- The operations that can fault choose their way by `pc`, `sp` and the length of memory, never by the flags. -/
theorem load4 {a : Word} {k k' : Word → State} (hk : ∀ v, EndsUpTo g (k v) (k' v)) :
    EndsUpTo g (s.load4 a k) ((s.setFlags f).load4 a k') := by
  by_cases hr : a.toNat + 4 ≤ Config.memSize
  · rw [State.load4_of_inRange hr, State.load4_of_inRange hr]
    exact hk _
  · rw [State.load4_of_outOfRange (by omega)]
    exact raise rfl _

theorem store {a : Word} {n v : Nat} {k k' : State → State}
    (hk : ∀ u : State, EndsUpTo g (k u) (k' (u.setFlags f))) :
    EndsUpTo g (s.store a n v k) ((s.setFlags f).store a n v k') := by
  by_cases hr : a.toNat + n ≤ Config.memSize
  · rw [State.store_of_inRange hr, State.store_of_inRange hr]
    exact hk (s.setMem _)
  · rw [State.store_of_outOfRange (by omega)]
    exact raise rfl _

theorem push {v : Word} {k k' : State → State} (hk : ∀ u : State, EndsUpTo g (k u) (k' (u.setFlags f))) :
    EndsUpTo g (s.push v k) ((s.setFlags f).push v k') := store (s := s.setSp _) hk

theorem pop {k k' : Word → State → State} (hk : ∀ v (u : State), EndsUpTo g (k v u) (k' v (u.setFlags f))) :
    EndsUpTo g (s.pop k) ((s.setFlags f).pop k') := load4 fun v => hk v (s.setSp _)

theorem longFetched {k k' : State → State} (hk : ∀ u : State, EndsUpTo g (k u) (k' (u.setFlags f))) :
    EndsUpTo g (s.longFetched k) ((s.setFlags f).longFetched k') := by
  by_cases hr : s.pc.toNat + 4 ≤ Config.memSize
  · rw [State.longFetched_of_inRange hr, State.longFetched_of_inRange (s := s.setFlags f) hr]
    exact hk (s.advance 4)
  · rw [State.longFetched_of_outOfRange (by omega)]
    exact raise rfl _

theorem fetchRI {k k' : State → State} (hk : ∀ u : State, EndsUpTo g (k u) (k' (u.setFlags f))) :
    EndsUpTo g (s.fetchRI k) ((s.setFlags f).fetchRI k') := longFetched (s := s.fetchedR) hk

theorem divideInto (r1 : Reg) (a b a0 : Word) :
    EndsUpTo (·.setFlags f) (divideInto r1 a b a0 s) (divideInto r1 a b a0 (s.setFlags f)) := by
  by_cases hb : b = 0
  · rw [Machine.divideInto, if_pos hb]; exact raise rfl _
  · simp only [Machine.divideInto, if_neg hb]; exact fun _ => rfl

theorem branch (c : Bool) (addr : Word) :
    EndsUpTo (·.setFlags f) (branch c addr s) (branch c addr (s.setFlags f)) := by
  cases c with
  | false => exact fun _ => rfl
  | true =>
    rw [branch_taken rfl, branch_taken rfl]
    exact longFetched (s := s.opcodeFetched) fun _ _ => rfl

end EndsUpTo

/-- The conditions of the branches read `Z` and `N` alone (R161). -/
theorem branchHolds_congr {f f' : Flags} (hz : f.zero = f'.zero) (hn : f.negative = f'.negative) (i : Instr) :
    branchHolds i f = branchHolds i f' := by
  cases i <;> simp only [branchHolds, hz, hn]

/-- A branch under flags that agree in `Z` and `N` ends alike. -/
theorem exec_setFlags_of_isBranch {i : Instr} (hi : isBranch i = true) (s : State) {f : Flags}
    (hz : f.zero = s.flags.zero) (hn : f.negative = s.flags.negative) :
    ∃ t t', exec i s = .next t ∧ exec i (s.setFlags f) = .next t' ∧ EndsUpTo (·.setFlags f) t t' := by
  obtain ⟨addr, he⟩ := exec_branch hi
  refine ⟨_, _, he s, he _, ?_⟩
  rw [State.setFlags_flags, branchHolds_congr hz hn]
  exact .branch _ _

/-- A compare under other flags ends alike: it writes all four (R145). -/
theorem exec_setFlags_of_isCompare {i : Instr} (hi : isCompare i = true) (s : State) (f : Flags) :
    ∃ t t', exec i s = .next t ∧ exec i (s.setFlags f) = .next t' ∧ EndsUpTo id t t' := by
  cases i with
  | cmp => exact ⟨_, _, rfl, rfl, fun _ => rfl⟩
  | cmpi => exact ⟨_, _, rfl, rfl, .fetchRI fun _ _ => rfl⟩
  | _ => cases hi

/-- An instruction that is no compare and no branch carries other flags through. -/
theorem exec_setFlags {i : Instr} (hc : isCompare i = false) (hb : isBranch i = false) (s : State) (f : Flags) :
    ∃ t t', exec i s = .next t ∧ exec i (s.setFlags f) = .next t' ∧ EndsUpTo (·.setFlags f) t t' := by
  cases i with
  | nop | halt | add | sub | mul | mulu | and | or | xor | neg | not | rnd | int =>
    exact ⟨_, _, rfl, rfl, fun _ => rfl⟩
  | addi | subi | muli | andi | ori | xori | ldi => exact ⟨_, _, rfl, rfl, .fetchRI fun _ _ => rfl⟩
  | div | divu => exact ⟨_, _, rfl, rfl, .divideInto _ _ _ _⟩
  | divi => exact ⟨_, _, rfl, rfl, .fetchRI fun _ => .divideInto _ _ _ _⟩
  | ld => exact ⟨_, _, rfl, rfl, .fetchRI fun _ => .load4 fun _ _ => rfl⟩
  | lda => exact ⟨_, _, rfl, rfl, .fetchRI fun _ => .load4 fun _ => .load4 fun _ _ => rfl⟩
  | ldr => exact ⟨_, _, rfl, rfl, .load4 (s := s.fetchedRR) fun _ _ => rfl⟩
  | stb => exact ⟨_, _, rfl, rfl, .store (s := s.fetchedRR) fun _ _ => rfl⟩
  | sta => exact ⟨_, _, rfl, rfl, .fetchRI fun _ => .store fun _ _ => rfl⟩
  | push => exact ⟨_, _, rfl, rfl, .push (s := s.fetchedR) fun _ _ => rfl⟩
  | pop => exact ⟨_, _, rfl, rfl, .pop (s := s.fetchedR) fun _ _ _ => rfl⟩
  | jmp => exact ⟨_, _, rfl, rfl, .load4 (s := s.fetchedR) fun _ _ => rfl⟩
  | jmpa => exact ⟨_, _, rfl, rfl, .longFetched (s := s.opcodeFetched) fun _ _ => rfl⟩
  | jsr => exact ⟨_, _, rfl, rfl, .push (s := s.fetchedR) fun _ => .load4 fun _ _ => rfl⟩
  | jsra =>
    exact ⟨_, _, rfl, rfl, .push (s := s.opcodeFetched) fun _ => .longFetched fun _ _ => by
      simp [State.setPc_setFlags]⟩
  | ret => exact ⟨_, _, rfl, rfl, .pop (s := s.opcodeFetched) fun _ _ _ => rfl⟩
  | cmp | cmpi => cases hc
  | beq | bne | bge | bgeu | bgt | bgtu | ble | bleu | blt | bltu => cases hb

/-- Settles O58: the flags choose a branch's way by `Z` and `N`, and every other instruction carries them or writes all four. -/
theorem onlyBranchesReadFlags : Obligations.OnlyBranchesReadFlags := by
  intro i s t f h hl hbr
  have conclude {g : State → State} (he : ∃ u u', exec i s = .next u ∧ exec i (s.setFlags f) = .next u' ∧
      EndsUpTo g u u') : exec i (s.setFlags f) = .next (g t) := by
    obtain ⟨u, u', hu, hu', he⟩ := he
    obtain rfl := Host.Outcome.next.inj (h.symm.trans hu)
    rw [hu', he hl]
  cases hc : isCompare i with
  | true => exact conclude (exec_setFlags_of_isCompare hc s f)
  | false =>
    cases hb : isBranch i with
    | true => exact conclude (exec_setFlags_of_isBranch hb s (hbr hb).1 (hbr hb).2)
    | false => exact conclude (exec_setFlags hc hb s f)

end Sys2Proof.Machine
end

section
/-! SUPPORT. What a step fetches: the window against the bytes of an instruction, faults of the fetch, and the operand that crosses
the end of memory (O12, O14, O15). -/

namespace Sys2Proof

section Decoding

variable (r r1 r2 : Reg) (v : Word) (b : Byte) (rest : List Byte)

theorem decodeR_bytes (mk : Reg → Instr) : decodeR (registerByte r :: rest) mk = .ok (mk r) := by
  simp [decodeR, decodeRegister]

theorem decodeRR_bytes (mk : Reg → Reg → Instr) :
    decodeRR (registerByte r1 :: registerByte r2 :: rest) mk = .ok (mk r1 r2) := by
  simp [decodeRR, decodeRegister]

theorem decodeA_bytes (mk : Word → Instr) : decodeA (longBytes v ++ rest) mk = .ok (mk v) := by
  simp [decodeA, decodeLong, longBytes]

theorem decodeRI_bytes (mk : Reg → Word → Instr) :
    decodeRI (registerByte r :: longBytes v ++ rest) mk = .ok (mk r v) := by
  simp [decodeRI, decodeRegister, decodeLong, longBytes]

theorem decodeRB_bytes (mk : Reg → Byte → Instr) :
    decodeRB (registerByte r :: b :: rest) mk = .ok (mk r b) := by
  simp [decodeRB, decodeRegister, decodeByte]

/-- The operand bytes of an instruction decode to it, whatever follows them (R60, R62). -/
theorem decodeOperands_operandBytes (i : Instr) : decodeOperands i.mnemonic (operandBytes i ++ rest) = .ok i := by
  cases i with
  | nop | halt | ret => rfl
  | neg | not | push | pop | jmp | jsr => exact decodeR_bytes _ rest _
  | add | sub | mul | mulu | div | divu | and | or | xor | cmp | ldr | stb => exact decodeRR_bytes _ _ rest _
  | addi | subi | muli | divi | andi | ori | xori | cmpi | ld | lda | ldi | sta => exact decodeRI_bytes _ _ rest _
  | beq | bne | bge | bgeu | bgt | bgtu | ble | bleu | blt | bltu | jmpa | jsra => exact decodeA_bytes _ rest _
  | rnd => exact decodeRB_bytes _ _ rest _
  | int => rfl

end Decoding

/-- After the opcode byte of a mnemonic its operands are decoded. -/
theorem decodeWith_cons {o : Mnemonic → Byte} (ho : Function.Injective o) (m : Mnemonic) (rest : List Byte) :
    decodeWith o (o m :: rest) = decodeOperands m rest := by
  simp [decodeWith, decodeOpcode_of_injective ho]

/-- The bytes of an instruction decode to it, whatever follows them (R60, R66). -/
theorem decodeWith_encodeWith {o : Mnemonic → Byte} (ho : Function.Injective o) (i : Instr) (rest : List Byte) :
    decodeWith o (encodeWith o i ++ rest) = .ok i :=
  (decodeWith_cons ho i.mnemonic _).trans (decodeOperands_operandBytes rest i)

/-- An instruction has as many bytes as its format (R61). -/
theorem length_encodeWith (o : Mnemonic → Byte) (i : Instr) : (encodeWith o i).length = i.mnemonic.format.length := by
  cases i <;> rfl

section FirstRegister

variable {m : Mnemonic}

/-- In the four formats with a register byte, that byte is decoded first (R61, R204). -/
theorem decodeOperands_registerFirst (hm : m.format = .R ∨ m.format = .RR ∨ m.format = .RI ∨ m.format = .RB) :
    ∃ k, ∀ bytes, decodeOperands m bytes = decodeRegister 1 bytes k := by
  cases m with
  | neg | not | push | pop | jmp | jsr => exact ⟨_, fun _ => rfl⟩
  | add | sub | mul | mulu | div | divu | and | or | xor | cmp | ldr | stb => exact ⟨_, fun _ => rfl⟩
  | addi | subi | muli | divi | andi | ori | xori | cmpi | ld | lda | ldi | sta => exact ⟨_, fun _ => rfl⟩
  | rnd => exact ⟨_, fun _ => rfl⟩
  | _ => simp [Mnemonic.format] at hm

theorem decodeOperands_RR (hm : m.format = .RR) : ∃ mk, ∀ bytes, decodeOperands m bytes = decodeRR bytes mk := by
  cases m with
  | add | sub | mul | mulu | div | divu | and | or | xor | cmp | ldr | stb => exact ⟨_, fun _ => rfl⟩
  | _ => cases hm

theorem decodeRegister_invalid {b : Byte} (hb : 15 < b.toNat) (p : Nat) (rest : List Byte)
    (k : Reg → List Byte → Except DecodeError Instr) :
    decodeRegister p (b :: rest) k = .error (.invalidRegister p b) := by
  simp [decodeRegister, registerOf_eq_none.2 hb]

theorem decodeRegister_valid {b : Byte} (hb : b.toNat ≤ 15) (p : Nat) (rest : List Byte)
    (k : Reg → List Byte → Except DecodeError Instr) :
    decodeRegister p (b :: rest) k = k ⟨b.toNat, Nat.lt_succ_of_le hb⟩ rest := by
  simp [decodeRegister, registerOf, Nat.lt_succ_of_le hb]

end FirstRegister

/-- An instruction of format `RI` begins with its register's byte, and any operand gives another of that format. -/
theorem decodeOperands_RI {i : Instr} (hi : i.mnemonic.format = .RI) :
    ∃ r mk, (operandBytes i).getD 0 0 = registerByte r ∧
      (∀ bytes, decodeOperands i.mnemonic bytes = decodeRI bytes mk) ∧ ∀ v, (mk r v).mnemonic.format = .RI := by
  cases i with
  | addi | subi | muli | divi | andi | ori | xori | cmpi | ld | lda | ldi | sta =>
    exact ⟨_, _, rfl, fun _ => rfl, fun _ => rfl⟩
  | _ => cases hi

end Sys2Proof

namespace Sys2Proof.Machine

open Sys2Proof.Safety

section Window

/-- The window the decoder is given, by the addresses the advance reaches. -/
theorem fetchWindow_eq (m : Memory) (p : Word) :
    fetchWindow m p = m.get p.toNat :: m.get (after p 1).toNat :: m.get (after p 2).toNat ::
      m.loadBytes ((after p 2).toNat + 1) 3 := rfl

theorem length_fetchWindow (m : Memory) (p : Word) : (fetchWindow m p).length = 6 := rfl

/-- The window is what an instruction of format `RI` occupies. -/
theorem getD_fetchWindow (m : Memory) (p : Word) {k : Nat} (hk : k < 6) :
    (fetchWindow m p).getD k 0 = m.get (fetchAddress .RI p k) := by
  interval_cases k <;> rfl

/-- The first three bytes of the window stand where single-byte fields are fetched. -/
theorem fetchAddress_RI_of_lt_three (p : Word) {k : Nat} (hk : k < 3) : fetchAddress .RI p k = (after p k).toNat := by
  interval_cases k <;> rfl

/-- The window holds the bytes of every format where they are fetched; those of format `A` if its operand does not cross the
end of memory. -/
theorem fetchAddress_eq_window {f : Format} {p : Word} {k : Nat} (hk : k < f.length)
    (hA : f = .A → (after p 1).toNat + 4 ≤ Config.memSize) : fetchAddress f p k = fetchAddress .RI p k := by
  cases f with
  | Z | R | RR | RB | B => exact (fetchAddress_RI_of_lt_three p (by simp only [Format.length] at hk; omega)).symm
  | RI => rfl
  | A =>
    have h2 : (after p 2).toNat = (after p 1).toNat + 1 :=
      adv_toNat (p := after p 1) (n := 1) (by have := hA rfl; omega)
    simp only [fetchAddress, h2]
    split
    · rw [if_pos (by omega)]
    · split
      · obtain rfl : k = 1 := by omega
        rfl
      · omega

/-- The bytes of the next instruction begin the window. -/
theorem fetchWindow_of_nextInstr {o : Mnemonic → Byte} {s : State} {i : Instr} (h : NextInstr o s i)
    (hA : i.mnemonic.format = .A → OperandReadable s 1) :
    ∃ rest, fetchWindow s.mem s.pc = encodeWith o i ++ rest := by
  obtain ⟨-, hb⟩ := h
  have hlen : i.mnemonic.format.length ≤ 6 := by cases i.mnemonic.format <;> decide
  have htake : encodeWith o i = (fetchWindow s.mem s.pc).take (encodeWith o i).length := by
    refine List.ext_getElem (by simpa [length_encodeWith, length_fetchWindow] using hlen) fun k hk _ => ?_
    have hk' : k < i.mnemonic.format.length := length_encodeWith o i ▸ hk
    have hbk := hb k hk
    rw [fetchAddress_eq_window hk' hA, ← getD_fetchWindow _ _ (by omega), List.getD_eq_getElem _ _ hk,
      List.getD_eq_getElem _ _ (by rw [length_fetchWindow]; omega)] at hbk
    rw [List.getElem_take, hbk]
  exact ⟨_, (List.take_append_drop (encodeWith o i).length _).symm.trans (congrArg (· ++ _) htake.symm)⟩

end Window

section Fetch

variable {o : Mnemonic → Byte} {s : State} {i : Instr}

theorem fetch_of_decodeError (hp : s.pc.toNat < Config.memSize) {e : DecodeError}
    (hd : decodeWith o (fetchWindow s.mem s.pc) = .error e) : fetch o s = .error (decodeFault e s) := by
  have hr : inRange s.pc.toNat 1 = true := inRange_iff.2 hp
  simp [fetch, hr, hd]

theorem fetch_of_outOfRange (hp : Config.memSize ≤ s.pc.toNat) : fetch o s = .error (s.raise (.memoryFault s.pc)) := by
  have hr : inRange s.pc.toNat 1 = false := inRange_eq_false.2 (Nat.lt_succ_of_le hp)
  simp [fetch, hr]

/-- An instruction that is fetched is run, and the check follows. -/
theorem stepWith_of_fetch (hl : s.isLocked = false) (hf : fetch o s = .ok i) :
    stepWith o s = thenIntCheck (exec i s) := by rw [stepWith, coreStep_of_fetch hl hf]

/-- The check after a fatal fault is skipped (R210), so the step ends locked with the first record in the latch. -/
theorem thenIntCheck_raise {u : State} {f : FaultRecord} (hf : f.isFatal = true) (hu : u.fault = s.fault) :
    ∃ t, thenIntCheck (.next (u.raise f)) = .next t ∧ t.isLocked = true ∧ t.fault = some (s.fault.getD f) := by
  have hl := State.raise_isLocked hf u
  exact ⟨u.raise f, by simp [thenIntCheck, intCheckUnlessLocked, hl], hl, by rw [State.raise_fault, hu]⟩

theorem thenIntCheck_of_unlocked {u : State} (h : u.isLocked = false) :
    thenIntCheck (.next u) = .next (intCheck u) := by simp [thenIntCheck, intCheckUnlessLocked, h]

/-- A fetch that ends in a fatal fault locks the machine. -/
theorem stepWith_of_fetch_raise (hl : s.isLocked = false) {f : FaultRecord} (hf : f.isFatal = true)
    (he : fetch o s = .error (s.raise f)) :
    ∃ t, stepWith o s = .next t ∧ t.isLocked = true ∧ t.fault = some (s.fault.getD f) := by
  rw [stepWith, coreStep_of_error hl he]
  exact thenIntCheck_raise hf rfl

/-- The step runs the next instruction, unless it has format `A` and an operand that crosses the end of memory. -/
theorem stepWith_of_nextInstr (ho : Function.Injective o) (hl : s.isLocked = false) (h : NextInstr o s i)
    (hA : i.mnemonic.format = .A → OperandReadable s 1) : stepWith o s = thenIntCheck (exec i s) := by
  obtain ⟨rest, hw⟩ := fetchWindow_of_nextInstr h hA
  exact stepWith_of_fetch hl (fetch_of_decode h.1 (hw ▸ decodeWith_encodeWith ho i rest))

end Fetch

/-- Settles O15: a pc out of range ends the step in the fetch. -/
theorem opcodeFetchOutOfRangeLocks : Obligations.OpcodeFetchOutOfRangeLocks :=
  fun _ _ hl hp => stepWith_of_fetch_raise hl rfl (fetch_of_outOfRange hp)

/-- Settles O14: the register bytes are decoded in order, each from where the advance leads. -/
theorem badRegisterByteLocks : Obligations.BadRegisterByteLocks := by
  intro o s m ho hl hp hop
  have locks {n : Nat} {b : Byte} (hd : decodeWith o (fetchWindow s.mem s.pc) = .error (.invalidRegister n b)) :
      ∃ t, stepWith o s = .next t ∧ t.isLocked = true ∧
        t.fault = some (s.fault.getD (.invalidRegister b (fieldAddress s.pc n))) :=
    stepWith_of_fetch_raise hl rfl (fetch_of_decodeError hp hd)
  rw [fetchWindow_eq, hop, decodeWith_cons ho] at locks
  refine ⟨fun hm hb => locks (n := 1) ?_, fun hm hb hb' => locks (n := 2) ?_⟩
  · obtain ⟨k, hk⟩ := decodeOperands_registerFirst hm
    rw [hk, decodeRegister_invalid hb]
  · obtain ⟨mk, hk⟩ := decodeOperands_RR hm
    rw [hk, decodeRR, decodeRegister_valid hb, decodeRegister_invalid hb']

section Crossing

variable {s u : State} {i : Instr}

/-- An operand that crosses the end of memory raises the fault of its address, whatever would follow (R71). -/
theorem longFetched_of_unreadable {n : Nat} (h : ¬ OperandReadable s n) (hu : u.pc = after s.pc n) (k : State → State) :
    u.longFetched k = u.raise (.memoryFault (after s.pc n)) := by
  rw [← hu]
  exact State.longFetched_of_outOfRange (by rw [hu]; exact Nat.lt_of_not_le h) k

/-- Every instruction of format `RI` begins with the fetch of its bytes. -/
theorem exec_RI (hi : i.mnemonic.format = .RI) (s : State) : ∃ k, exec i s = .next (s.fetchRI k) := by
  cases i with
  | addi | subi | muli | divi | andi | ori | xori | cmpi | ld | lda | ldi | sta => exact ⟨_, rfl⟩
  | _ => cases hi

theorem exec_RI_of_unreadable (hi : i.mnemonic.format = .RI) (h : ¬ OperandReadable s 2) :
    exec i s = .next (s.fetchedR.raise (.memoryFault (after s.pc 2))) := by
  obtain ⟨k, hk⟩ := exec_RI hi s
  rw [hk, State.fetchRI, longFetched_of_unreadable h s.fetchedR_pc]

theorem branch_taken_of_unreadable (h : ¬ OperandReadable s 1) {c : Bool} (hc : c = true) (addr : Word) :
    branch c addr s = s.opcodeFetched.raise (.memoryFault (after s.pc 1)) := by
  rw [branch_taken hc, longFetched_of_unreadable h s.opcodeFetched_pc]

theorem execJmpa_of_unreadable (h : ¬ OperandReadable s 1) (addr : Word) :
    execJmpa addr s = .next (s.opcodeFetched.raise (.memoryFault (after s.pc 1))) := by
  rw [execJmpa, longFetched_of_unreadable h s.opcodeFetched_pc]

/-- `jsra` pushes before it reads its operand (R188, D19), so that a push out of range faults first. -/
theorem execJsra_of_unreadable (h : ¬ OperandReadable s 1) :
    ∃ u : State, u.fault = s.fault ∧ ∀ addr, execJsra addr s = .next (u.raise (.memoryFault
      (if (s.sp - 4).toNat + 4 ≤ Config.memSize then after s.pc 1 else s.sp - 4))) := by
  by_cases hr : (s.sp - 4).toNat + 4 ≤ Config.memSize
  · refine ⟨(s.opcodeFetched.setSp (s.sp - 4)).setMem
      (s.mem.storeBytes (s.sp - 4).toNat (beBytes 4 (adv (adv s.pc 1) 4).toNat)), by simp, fun addr => ?_⟩
    rw [execJsra, State.push_of_inRange (s := s.opcodeFetched) hr, longFetched_of_unreadable h (by simp [after]), if_pos hr]
    simp
  · refine ⟨s.opcodeFetched.setSp (s.sp - 4), by simp, fun addr => ?_⟩
    rw [execJsra, State.push_of_outOfRange (s := s.opcodeFetched) (Nat.lt_of_not_le hr), if_neg hr]
    simp

/-- An operand that cannot be read is not used: with another one, an instruction of format `A` ends alike. -/
theorem decodeOperands_A (hi : i.mnemonic.format = .A) :
    ∃ mk, (∀ bytes, decodeOperands i.mnemonic bytes = decodeA bytes mk) ∧
      ∀ s, ¬ OperandReadable s 1 → ∀ v, exec (mk v) s = exec i s := by
  have branch_eq {c : Bool} {s : State} (h : ¬ OperandReadable s 1) (v v' : Word) :
      Host.Outcome.next (φ := Fault) (ρ := Refusal) (branch c v s) = .next (branch c v' s) := by
    cases hc : c with
    | false => rfl
    | true => rw [branch_taken_of_unreadable h rfl, branch_taken_of_unreadable h rfl]
  cases i with
  | beq | bne | bge | bgeu | bgt | bgtu | ble | bleu | blt | bltu =>
    exact ⟨_, fun _ => rfl, fun _ h _ => branch_eq h _ _⟩
  | jmpa addr =>
    exact ⟨_, fun _ => rfl, fun _ h v => (execJmpa_of_unreadable h v).trans (execJmpa_of_unreadable h addr).symm⟩
  | jsra addr =>
    refine ⟨_, fun _ => rfl, fun _ h v => ?_⟩
    obtain ⟨u, -, hu⟩ := execJsra_of_unreadable h
    exact (hu v).trans (hu addr).symm
  | _ => cases hi

/-- Where the operand crosses the end of memory, the step still runs the instruction whose other bytes stand there: what the
window holds for the operand is never used (R71). -/
theorem stepWith_of_crossing {o : Mnemonic → Byte} (ho : Function.Injective o) (hl : s.isLocked = false) {n : Nat}
    (hn : i.mnemonic.format = .RI ∧ n = 2 ∨ i.mnemonic.format = .A ∧ n = 1) (hp : s.pc.toNat < Config.memSize)
    (hb : ∀ k, k < n → s.mem.get (after s.pc k).toNat = (encodeWith o i).getD k 0) (h : ¬ OperandReadable s n) :
    stepWith o s = thenIntCheck (exec i s) := by
  have hop : s.mem.get s.pc.toNat = o i.mnemonic := hb 0 (by omega)
  have runs {j : Instr} (hd : decodeWith o (fetchWindow s.mem s.pc) = .ok j) (hj : exec j s = exec i s) :
      stepWith o s = thenIntCheck (exec i s) := hj ▸ stepWith_of_fetch hl (fetch_of_decode hp hd)
  rw [fetchWindow_eq, hop, decodeWith_cons ho] at runs
  rcases hn with ⟨hi, rfl⟩ | ⟨hi, rfl⟩
  · obtain ⟨r, mk, hr, hd, hmk⟩ := decodeOperands_RI hi
    have hreg : s.mem.get (after s.pc 1).toNat = registerByte r := (hb 1 (by omega)).trans hr
    rw [hreg, hd, decodeRI] at runs
    refine runs (by simp only [decodeRegister, registerOf_registerByte]; rfl) ?_
    rw [exec_RI_of_unreadable (hmk _) h, exec_RI_of_unreadable hi h]
  · obtain ⟨mk, hd, hmk⟩ := decodeOperands_A hi
    rw [hd] at runs
    exact runs rfl (hmk s h _)

/-- A branch that is not taken goes on past its operand, which at the end of memory is to address 0 (R25, D17). -/
theorem branch_notTaken_of_unreadable (h : ¬ OperandReadable s 1) {c : Bool} (hc : c = false) (addr : Word) :
    branch c addr s = { s with pc := 0 } := by
  have hw : adv (adv s.pc 1) 4 = 0 := adv_wrap (Nat.le_of_lt (Nat.lt_of_not_le h))
  rw [branch_notTaken hc, State.advance, State.opcodeFetched_pc, hw]
  rfl

theorem isBranch_of_branchHolds {f : Flags} (h : branchHolds i f = true) : isBranch i = true := by
  cases i with
  | beq | bne | bge | bgeu | bgt | bgtu | ble | bleu | blt | bltu => rfl
  | _ => cases h

theorem format_of_isBranch (h : isBranch i = true) : i.mnemonic.format = .A := by
  cases i with
  | beq | bne | bge | bgeu | bgt | bgtu | ble | bleu | blt | bltu => rfl
  | _ => cases h

/-- The instructions of format `A` that read their operand first: `jmpa`, and a branch whose condition holds. -/
theorem exec_A_of_unreadable (hi : i.mnemonic = .jmpa ∨ branchHolds i s.flags = true) (h : ¬ OperandReadable s 1) :
    exec i s = .next (s.opcodeFetched.raise (.memoryFault (after s.pc 1))) := by
  rcases hi with hi | hi
  · cases i with
    | jmpa addr => exact execJmpa_of_unreadable h addr
    | _ => cases hi
  · obtain ⟨addr, he⟩ := exec_branch (isBranch_of_branchHolds hi)
    rw [he, branch_taken_of_unreadable h hi]

theorem exec_jsra_of_unreadable (hi : i.mnemonic = .jsra) (h : ¬ OperandReadable s 1) :
    ∃ u : State, u.fault = s.fault ∧ exec i s = .next (u.raise (.memoryFault
      (if (s.sp - 4).toNat + 4 ≤ Config.memSize then after s.pc 1 else s.sp - 4))) := by
  cases i with
  | jsra addr =>
    obtain ⟨u, hu, he⟩ := execJsra_of_unreadable h
    exact ⟨u, hu, he addr⟩
  | _ => cases hi

end Crossing

/-- Settles O12: the window begins with the instruction's bytes, or differs from them in an operand that is never used. -/
theorem stepRunsInstructionAcrossTheWrap : Obligations.StepRunsInstructionAcrossTheWrap := by
  intro o s i ho hl
  refine ⟨fun h => ?_, fun n hn hp hb h => ?_⟩
  · by_cases hx : i.mnemonic.format = .A ∧ ¬ OperandReadable s 1
    · obtain ⟨hA, hu⟩ := hx
      refine stepWith_of_crossing ho hl (.inr ⟨hA, rfl⟩) h.1 (fun k hk => ?_) hu
      have hbk := h.2 k (by rw [length_encodeWith, hA]; exact hk.trans (by decide))
      rwa [hA, fetchAddress, if_pos hk] at hbk
    · exact stepWith_of_nextInstr ho hl h fun hA => by simpa [hA] using hx
  · rw [stepWith_of_crossing ho hl hn hp hb h]
    rcases hn with ⟨hf, rfl⟩ | ⟨hf, rfl⟩
    · refine ⟨fun _ => ?_, fun hi => by simp [hi, Mnemonic.format] at hf, fun hi => by simp [format_of_isBranch hi] at hf⟩
      rw [exec_RI_of_unreadable hf h]
      exact thenIntCheck_raise rfl rfl
    · refine ⟨fun hi => ?_, fun hi => ?_, fun hi hfl => ?_⟩
      · rw [exec_A_of_unreadable (hi.resolve_left (by simp [hf])) h]
        exact thenIntCheck_raise rfl rfl
      · obtain ⟨u, hu, he⟩ := exec_jsra_of_unreadable hi h
        rw [he]
        exact thenIntCheck_raise rfl hu
      · obtain ⟨addr, he⟩ := exec_branch hi
        rw [he, branch_notTaken_of_unreadable h hfl]
        exact thenIntCheck_of_unlocked hl

end Sys2Proof.Machine
end

section
/-! SUPPORT. What memory reads and writes give byte by byte (O21 to O23), and what an instruction that stores leaves for the
next fetch (O37). -/

namespace Sys2Proof.Machine

open Sys2Proof.Safety

section Bytes

/-- The byte at position `k` of `n` is the one with `n - k - 1` bytes below it (R45). -/
theorem getD_beBytes : ∀ {n k : Nat} (v : Nat), k < n →
    (beBytes n v).getD k 0 = BitVec.ofNat 8 (v / 256 ^ (n - k - 1))
  | n + 1, 0, _, _ => by simp [beBytes]
  | n + 1, k + 1, v, hk => by
    have ih : (beBytes n v).getD k 0 = BitVec.ofNat 8 (v / 256 ^ (n - k - 1)) := getD_beBytes v (by omega)
    rw [beBytes, List.getD_cons_succ, ih, Nat.succ_sub_succ]

/-- A value of `n` bytes is one of `8n` bits. -/
theorem pow_256_eq_pow_two (n : Nat) : 256 ^ n = 2 ^ (8 * n) := (pow_mul 2 8 n).symm

end Bytes

/-- Settles O23: each read is the sum its bytes spell. -/
theorem readIsBigEndian : Obligations.ReadIsBigEndian := by
  intro m a
  refine ⟨fun h => ?_, fun h => ?_, fun h => ?_, fun n h => Memory.read_of_outOfRange h m⟩ <;>
    rw [Memory.read_of_inRange h] <;>
    simp [Memory.loadBytes, beNat, Nat.add_assoc]

/-- Settles O21: what was stored is loaded, and the bytes of a value spell it up to their number. -/
theorem writeThenReadReturnsTheValue : Obligations.WriteThenReadReturnsTheValue := by
  intro m a n v hwf _ hr
  have hload : (m.storeBytes a (beBytes n v)).loadBytes a n = beBytes n v := by
    simpa using Memory.loadBytes_storeBytes hwf (beBytes n v) a (by simpa using hr)
  exact ⟨_, Memory.write_of_inRange hr m v, by
    rw [Memory.read_of_inRange hr, hload, beNat_beBytes, pow_256_eq_pow_two]⟩

/-- Settles O22: a run of writes puts its bytes in place and leaves every byte outside it. -/
theorem writeChangesOnlyItsBytes : Obligations.WriteChangesOnlyItsBytes := by
  intro m a n v hwf _
  refine ⟨fun hr => ⟨_, Memory.write_of_inRange hr m v, Memory.wf_storeBytes _ a hwf, fun i hi => ?_, fun b hb => ?_⟩,
    fun hr => Memory.write_of_outOfRange hr m v⟩
  · rw [Memory.get_storeBytes_inside _ a i hwf (by simpa using hr) (by simpa using hi), getD_beBytes v hi,
      BitVec.toNat_ofNat, pow_256_eq_pow_two]
  · exact Memory.get_storeBytes_outside _ m a b (by simpa using hb)

section Stored

/-- Once bytes are stored in range, every address reads as the stored byte or as what stood there before. -/
theorem Memory.get_storeBytes_eq_storedOver {s : State} (hwf : s.mem.wf = true) {a : Nat} {bytes : List Byte}
    (hr : a + bytes.length ≤ Config.memSize) (x : Nat) :
    (s.mem.storeBytes a bytes).get x = storedOver s a bytes x := by
  unfold storedOver
  split
  · rename_i hx
    obtain ⟨k, rfl⟩ := Nat.exists_eq_add_of_le hx.1
    rw [Memory.get_storeBytes_inside bytes a k hwf hr (by omega), Nat.add_sub_cancel_left]
  · exact Memory.get_storeBytes_outside bytes s.mem a x (by omega)

/-- An operation that does not end locked did not end in its fatal fault. -/
theorem resolve_of_unlocked {p : Prop} {t u : State} {f : FaultRecord} (h : p ∨ t = u.raise f) (hf : f.isFatal = true)
    (hl : t.isLocked = false) : p := by
  rcases h with hp | rfl
  · exact hp
  · simp [State.raise_isLocked hf] at hl

/-- The bytes an instruction stores lie in memory, and `t` has the memory of `s` with them stored. -/
def HasStored (i : Instr) (s t : State) : Prop :=
  (storedBytes i s).1 + (storedValue i s).length ≤ Config.memSize ∧
    t.mem = s.mem.storeBytes (storedBytes i s).1 (storedValue i s)

theorem HasStored.get {i : Instr} {s t : State} (h : HasStored i s t) (hwf : s.mem.wf = true) (x : Nat) :
    t.mem.get x = storedOver s (storedBytes i s).1 (storedValue i s) x := by
  obtain ⟨hr, hm⟩ := h
  rw [hm, Memory.get_storeBytes_eq_storedOver hwf hr]

/-- A store that ends the instruction, and does not fault, has stored its bytes. -/
theorem hasStored_store {i : Instr} {s u : State} {a : Word} {n v : Nat} (hm : u.mem = s.mem)
    (ha : (storedBytes i s).1 = a.toNat) (hv : beBytes n v = storedValue i s)
    (hl : (u.store a n v id).isLocked = false) : HasStored i s (u.store a n v id) := by
  obtain ⟨hr, ht⟩ := resolve_of_unlocked (u.store_cases a n v id) rfl hl
  rw [ht]
  exact ⟨by rwa [ha, ← hv, length_beBytes], by simp [hm, ha, hv]⟩

/-- A push whose slot is in memory has stored the word, where what follows it, unless it faults, keeps memory: nothing in
`push`, the jump of `jsr` and `jsra`. -/
theorem hasStored_push {i : Instr} {s u : State} {v : Word} {k : State → State} (hm : u.mem = s.mem) (hsp : u.sp = s.sp)
    (ha : (storedBytes i s).1 = (s.sp - 4).toNat) (hv : storedValue i s = longBytes v)
    (hk : ∀ u', (k u').isLocked = false → (k u').mem = u'.mem) (hl : (u.push v k).isLocked = false) :
    HasStored i s (u.push v k) := by
  obtain ⟨hr, ht⟩ := resolve_of_unlocked (u.push_cases v k) rfl hl
  rw [ht] at hl ⊢
  exact ⟨by rwa [ha, hv, length_longBytes, ← hsp], by
    rw [hk _ hl, State.setMem_mem, hm, hsp, ha, hv, beBytes_four_word]⟩

/-- An instruction that stores, and does not lock the machine, has stored (R174, R175, R180, R187, R188). -/
theorem hasStored_of_exec {i : Instr} {s t : State} (hi : storesMemory i = true) (h : exec i s = .next t)
    (hl : t.isLocked = false) : HasStored i s t := by
  cases i with
  | stb r1 r2 =>
    obtain rfl := Host.Outcome.next.inj h
    exact hasStored_store rfl rfl (beBytes_one_word _) hl
  | sta r1 addr =>
    obtain rfl := Host.Outcome.next.inj h
    obtain ⟨-, ht⟩ := resolve_of_unlocked (s.fetchedR.longFetched_cases _) rfl hl
    rw [State.fetchRI, ht] at hl ⊢
    exact hasStored_store rfl rfl (beBytes_four_word _) hl
  | push r1 =>
    obtain rfl := Host.Outcome.next.inj h
    exact hasStored_push rfl rfl rfl rfl (fun _ _ => rfl) hl
  | jsr r1 =>
    obtain rfl := Host.Outcome.next.inj h
    refine hasStored_push rfl rfl rfl rfl (fun u hu => ?_) hl
    obtain ⟨v, -, ht⟩ := resolve_of_unlocked (u.load4_cases _ _) rfl hu
    rw [ht, State.setPc_mem]
  | jsra addr =>
    obtain rfl := Host.Outcome.next.inj h
    refine hasStored_push rfl rfl rfl rfl (fun u hu => ?_) hl
    obtain ⟨-, ht⟩ := resolve_of_unlocked (u.longFetched_cases _) rfl hu
    rw [ht, State.setPc_mem, State.advance_mem]
  | _ => cases hi

end Stored

section NextFetch

variable {o : Mnemonic → Byte} {s : State} {i : Instr}

theorem fetch_of_nextInstr (ho : Function.Injective o) (h : NextInstr o s i)
    (hA : i.mnemonic.format = .A → OperandReadable s 1) : fetch o s = .ok i := by
  obtain ⟨rest, hw⟩ := fetchWindow_of_nextInstr h hA
  exact fetch_of_decode h.1 (hw ▸ decodeWith_encodeWith ho i rest)

/-- Where the operand crosses the end of memory, the fetch gives an instruction that ends as `i` does: neither uses the
operand (R71). -/
theorem fetch_of_crossing_A (ho : Function.Injective o) (hp : s.pc.toNat < Config.memSize)
    (hop : s.mem.get s.pc.toNat = o i.mnemonic) (hi : i.mnemonic.format = .A) (h : ¬ OperandReadable s 1) :
    ∃ j, fetch o s = .ok j ∧ exec j s = exec i s := by
  obtain ⟨mk, hd, hmk⟩ := decodeOperands_A hi
  have hw : ∃ v, decodeWith o (fetchWindow s.mem s.pc) = .ok (mk v) := by
    rw [fetchWindow_eq, hop, decodeWith_cons ho, hd]
    exact ⟨_, rfl⟩
  obtain ⟨v, hv⟩ := hw
  exact ⟨_, fetch_of_decode hp hv, hmk s h v⟩

/-- The next instruction is what the `Step` runs, whether or not its operand crosses the end of memory. -/
theorem coreStep_of_nextInstr (ho : Function.Injective o) (hl : s.isLocked = false) (h : NextInstr o s i) :
    coreStep o s = exec i s := by
  by_cases hx : i.mnemonic.format = .A ∧ ¬ OperandReadable s 1
  · obtain ⟨hA, hu⟩ := hx
    have hop : s.mem.get s.pc.toNat = o i.mnemonic := by
      simpa [hA, fetchAddress, after, encodeWith] using h.2 0 (Nat.succ_pos _)
    obtain ⟨j, hf, hj⟩ := fetch_of_crossing_A ho h.1 hop hA hu
    rw [coreStep_of_fetch hl hf, hj]
  · exact coreStep_of_fetch hl (fetch_of_nextInstr ho h fun hA => by simpa [hA] using hx)

end NextFetch

/-- Settles O37: after the store memory reads as `storedOver` says, so the instruction `j` is the next one. -/
theorem storedByteIsFetchedNext : Obligations.StoredByteIsFetchedNext := by
  intro o i j s t ho hwf hi h hl hp hb
  have hnext : NextInstr o t j := ⟨hp, fun k hk => ((hasStored_of_exec hi h hl).get hwf _).trans (hb k hk).symm⟩
  exact ⟨coreStep_of_nextInstr ho hl hnext, fun hA => fetch_of_nextInstr ho hnext fun hj => hA.resolve_left (· hj)⟩

end Sys2Proof.Machine
end

section
/-! SUPPORT. The decoder against the encoder and against the format table (O17 to O20), and the `Step` that runs,
skips or faults on what the fetch gives (O10, O11, O13, O16). -/

namespace Sys2Proof

/-- Settles O17: under an injective map the opcode byte gives the mnemonic, and its format the operands. -/
theorem decodeEncodeRoundTrip : Obligations.DecodeEncodeRoundTrip := fun _ ho => decodeWith_encodeWith ho

section Inversion

variable {p : Nat} {bytes : List Byte} {i : Instr}

/-- A register field that is decoded began with the byte of a register. -/
theorem decodeRegister_eq_ok {k : Reg → List Byte → Except DecodeError Instr} (h : decodeRegister p bytes k = .ok i) :
    ∃ r rest, bytes = registerByte r :: rest ∧ k r rest = .ok i := by
  cases bytes with
  | nil => cases h
  | cons b rest =>
    cases hr : registerOf b with
    | some r => exact ⟨r, rest, by rw [registerByte_of_registerOf hr], by simpa [decodeRegister, hr] using h⟩
    | none => simp [decodeRegister, hr] at h

theorem decodeByte_eq_ok {k : Byte → Instr} (h : decodeByte p bytes k = .ok i) :
    ∃ b rest, bytes = b :: rest ∧ i = k b := by
  cases bytes with
  | nil => cases h
  | cons b rest => exact ⟨b, rest, rfl, (Except.ok.inj h).symm⟩

/-- A four-byte field that is decoded began with the bytes of its value. -/
theorem decodeLong_eq_ok {k : Word → Instr} (h : decodeLong p bytes k = .ok i) :
    ∃ v rest, bytes = longBytes v ++ rest ∧ i = k v := by
  unfold decodeLong at h
  split at h
  · rename_i b0 b1 b2 b3 rest
    exact ⟨longOf b0 b1 b2 b3, rest, by rw [longBytes_longOf]; rfl, (Except.ok.inj h).symm⟩
  · cases h

theorem decodeR_eq_ok {mk : Reg → Instr} (h : decodeR bytes mk = .ok i) :
    ∃ r rest, bytes = registerByte r :: rest ∧ i = mk r := by
  obtain ⟨r, rest, hb, hk⟩ := decodeRegister_eq_ok h
  exact ⟨r, rest, hb, (Except.ok.inj hk).symm⟩

theorem decodeRR_eq_ok {mk : Reg → Reg → Instr} (h : decodeRR bytes mk = .ok i) :
    ∃ r1 r2 rest, bytes = registerByte r1 :: registerByte r2 :: rest ∧ i = mk r1 r2 := by
  obtain ⟨r1, rest1, rfl, h1⟩ := decodeRegister_eq_ok h
  obtain ⟨r2, rest2, rfl, h2⟩ := decodeRegister_eq_ok h1
  exact ⟨r1, r2, rest2, rfl, (Except.ok.inj h2).symm⟩

theorem decodeRI_eq_ok {mk : Reg → Word → Instr} (h : decodeRI bytes mk = .ok i) :
    ∃ r v rest, bytes = registerByte r :: (longBytes v ++ rest) ∧ i = mk r v := by
  obtain ⟨r, rest1, rfl, h1⟩ := decodeRegister_eq_ok h
  obtain ⟨v, rest2, rfl, hi⟩ := decodeLong_eq_ok h1
  exact ⟨r, v, rest2, rfl, hi⟩

theorem decodeRB_eq_ok {mk : Reg → Byte → Instr} (h : decodeRB bytes mk = .ok i) :
    ∃ r b rest, bytes = registerByte r :: b :: rest ∧ i = mk r b := by
  obtain ⟨r, rest1, rfl, h1⟩ := decodeRegister_eq_ok h
  obtain ⟨b, rest2, rfl, hi⟩ := decodeByte_eq_ok h1
  exact ⟨r, b, rest2, rfl, hi⟩

/-- Operand bytes that decode are those of an instruction of the mnemonic, and what follows them (R62). -/
theorem decodeOperands_eq_ok {m : Mnemonic} (h : decodeOperands m bytes = .ok i) :
    i.mnemonic = m ∧ ∃ rest, bytes = operandBytes i ++ rest := by
  cases m with
  | nop | halt | ret =>
    obtain rfl := Except.ok.inj h
    exact ⟨rfl, bytes, rfl⟩
  | neg | not | push | pop | jmp | jsr =>
    obtain ⟨r, rest, rfl, rfl⟩ := decodeR_eq_ok h
    exact ⟨rfl, rest, rfl⟩
  | add | sub | mul | mulu | div | divu | and | or | xor | cmp | ldr | stb =>
    obtain ⟨r1, r2, rest, rfl, rfl⟩ := decodeRR_eq_ok h
    exact ⟨rfl, rest, rfl⟩
  | addi | subi | muli | divi | andi | ori | xori | cmpi | ld | lda | ldi | sta =>
    obtain ⟨r, v, rest, rfl, rfl⟩ := decodeRI_eq_ok h
    exact ⟨rfl, rest, rfl⟩
  | beq | bne | bge | bgeu | bgt | bgtu | ble | bleu | blt | bltu | jmpa | jsra =>
    obtain ⟨v, rest, rfl, rfl⟩ := decodeLong_eq_ok h
    exact ⟨rfl, rest, rfl⟩
  | rnd =>
    obtain ⟨r, b, rest, rfl, rfl⟩ := decodeRB_eq_ok h
    exact ⟨rfl, rest, rfl⟩
  | int =>
    obtain ⟨b, rest, rfl, rfl⟩ := decodeByte_eq_ok h
    exact ⟨rfl, rest, rfl⟩

theorem decodeWith_of_unknown {o : Mnemonic → Byte} {op : Byte} (h : ∀ m, o m ≠ op) (rest : List Byte) :
    decodeWith o (op :: rest) = .error (.unknownOpcode op) := by
  simp [decodeWith, decodeOpcode_eq_none.2 h]

/-- Bytes that decode begin with a mnemonic's opcode, and the operands after it decode. -/
theorem decodeWith_eq_ok {o : Mnemonic → Byte} (h : decodeWith o bytes = .ok i) :
    ∃ m rest, bytes = o m :: rest ∧ decodeOperands m rest = .ok i := by
  cases bytes with
  | nil => cases h
  | cons op rest =>
    cases hm : decodeOpcode o op with
    | some m => exact ⟨m, rest, by rw [decodeOpcode_some hm], by simpa [decodeWith, hm] using h⟩
    | none => simp [decodeWith, hm] at h

end Inversion

/-- Settles O18: each field that is decoded is the encoding of what it decodes to. -/
theorem decodedBytesAreTheEncoding : Obligations.DecodedBytesAreTheEncoding := by
  intro o bytes i h
  obtain ⟨m, operands, rfl, hd⟩ := decodeWith_eq_ok h
  obtain ⟨rfl, rest, rfl⟩ := decodeOperands_eq_ok hd
  exact ⟨rest, rfl⟩

section Layout

open WellFormed

variable {m : Mnemonic} {op : Byte} {rest : List Byte}

/-- The opcode byte has no part in the layout (R61). -/
theorem laidOutAs_cons_congr (m : Mnemonic) (op op' : Byte) (rest : List Byte) :
    laidOutAs m (op :: rest) = laidOutAs m (op' :: rest) := by
  unfold laidOutAs
  cases m.format <;> rfl

/-- Every instruction's encoding has the layout of its format, under every map (R61, R63). -/
theorem laidOutAs_encodeWith (o : Mnemonic → Byte) (i : Instr) : laidOutAs i.mnemonic (encodeWith o i) = true := by
  have hopc : Laws.LaidOut.Statement i := by
    cases i with
    | nop | halt | ret => rfl
    | neg | not | push | pop | jmp | jsr => exact Laws.LaidOut.layout_R _ rfl rfl
    | add | sub | mul | mulu | div | divu | and | or | xor | cmp | ldr | stb => exact Laws.LaidOut.layout_RR _ _ rfl rfl
    | addi | subi | muli | divi | andi | ori | xori | cmpi | ld | lda | ldi | sta =>
      exact Laws.LaidOut.layout_RI _ _ rfl rfl
    | beq | bne | bge | bgeu | bgt | bgtu | ble | bleu | blt | bltu | jmpa | jsra =>
      exact Laws.LaidOut.layout_A _ rfl rfl
    | rnd => exact Laws.LaidOut.layout_RB _ _ rfl rfl
    | int => exact Laws.LaidOut.layout_B _ rfl rfl
  exact (laidOutAs_cons_congr _ _ _ _).trans hopc

theorem length_of_laidOutAs {bytes : List Byte} (h : laidOutAs m bytes = true) : bytes.length = m.format.length := by
  simp only [laidOutAs, Bool.and_eq_true, beq_iff_eq] at h
  exact h.1

/-- At a register position of its format, a laid out instruction has the index of a register (R63). -/
theorem registerByte_le_of_laidOutAs {bytes : List Byte} (h : laidOutAs m bytes = true) {n : Nat}
    (hn : n ∈ m.format.registerPositions) : (bytes.getD n 0).toNat ≤ 15 := by
  simp only [laidOutAs, Bool.and_eq_true, List.all_eq_true, registerByteOk, decide_eq_true_eq] at h
  exact h.2 n hn

theorem decodeR_of_valid : ∀ {bytes : List Byte}, bytes.length = 1 → (bytes.getD 0 0).toNat ≤ 15 →
    ∀ mk, ∃ i, decodeR bytes mk = .ok i
  | [_], _, hb, _ => ⟨_, decodeRegister_valid hb _ _ _⟩

theorem decodeRR_of_valid : ∀ {bytes : List Byte}, bytes.length = 2 → (bytes.getD 0 0).toNat ≤ 15 →
    (bytes.getD 1 0).toNat ≤ 15 → ∀ mk, ∃ i, decodeRR bytes mk = .ok i
  | [_, _], _, hb, hb', _ => ⟨_, (decodeRegister_valid hb _ _ _).trans (decodeRegister_valid hb' _ _ _)⟩

theorem decodeRI_of_valid : ∀ {bytes : List Byte}, bytes.length = 5 → (bytes.getD 0 0).toNat ≤ 15 →
    ∀ mk, ∃ i, decodeRI bytes mk = .ok i
  | [_, _, _, _, _], _, hb, _ => ⟨_, decodeRegister_valid hb _ _ _⟩

theorem decodeA_of_valid : ∀ {bytes : List Byte}, bytes.length = 4 → ∀ mk, ∃ i, decodeA bytes mk = .ok i
  | [_, _, _, _], _, _ => ⟨_, rfl⟩

theorem decodeRB_of_valid : ∀ {bytes : List Byte}, bytes.length = 2 → (bytes.getD 0 0).toNat ≤ 15 →
    ∀ mk, ∃ i, decodeRB bytes mk = .ok i
  | [_, _], _, hb, _ => ⟨_, decodeRegister_valid hb _ _ _⟩

theorem decodeB_of_valid : ∀ {bytes : List Byte}, bytes.length = 1 → ∀ mk, ∃ i, decodeB bytes mk = .ok i
  | [_], _, _ => ⟨_, rfl⟩

/-- Operands laid out as the format says decode (R61, R63, R69). -/
theorem decodeOperands_of_laidOutAs (h : laidOutAs m (op :: rest) = true) : ∃ i, decodeOperands m rest = .ok i := by
  have hl : rest.length = m.format.length - 1 := Nat.eq_sub_of_add_eq (length_of_laidOutAs h)
  have hr (n : Nat) (hn : n ∈ m.format.registerPositions) : ((op :: rest).getD n 0).toNat ≤ 15 :=
    registerByte_le_of_laidOutAs h hn
  cases m with
  | nop | halt | ret => exact ⟨_, rfl⟩
  | neg | not | push | pop | jmp | jsr => exact decodeR_of_valid hl (hr 1 (.head _)) _
  | add | sub | mul | mulu | div | divu | and | or | xor | cmp | ldr | stb =>
    exact decodeRR_of_valid hl (hr 1 (.head _)) (hr 2 (.tail _ (.head _))) _
  | addi | subi | muli | divi | andi | ori | xori | cmpi | ld | lda | ldi | sta =>
    exact decodeRI_of_valid hl (hr 1 (.head _)) _
  | beq | bne | bge | bgeu | bgt | bgtu | ble | bleu | blt | bltu | jmpa | jsra => exact decodeA_of_valid hl _
  | rnd => exact decodeRB_of_valid hl (hr 1 (.head _)) _
  | int => exact decodeB_of_valid hl _

/-- The format table's predicate, by the mnemonic whose opcode the bytes begin with. -/
theorem bytesOk_iff {o : Mnemonic → Byte} {bytes : List Byte} :
    bytesOk o bytes = true ↔ ∃ m rest, bytes = o m :: rest ∧ laidOutAs m bytes = true := by
  cases bytes with
  | nil => simp [bytesOk]
  | cons op rest =>
    simp only [bytesOk, List.any_eq_true, Mnemonic.mem_all, true_and, Bool.and_eq_true, beq_iff_eq, List.cons.injEq]
    exact ⟨fun ⟨m, hm, h⟩ => ⟨m, rest, ⟨hm.symm, rfl⟩, h⟩, fun ⟨m, _, ⟨hm, _⟩, h⟩ => ⟨m, hm.symm, h⟩⟩

end Layout
/-- Settles O19: what decodes is its own encoding, which is laid out; what is laid out has decodable operands, as many
bytes as the format. -/
theorem decoderAcceptsExactlyTheWellFormed : Obligations.DecoderAcceptsExactlyTheWellFormed := by
  intro o ho bytes
  rw [bytesOk_iff]
  constructor
  · rintro ⟨i, hd, hl⟩
    obtain ⟨rest, rfl⟩ := decodedBytesAreTheEncoding o bytes i hd
    obtain rfl : rest = [] := List.length_eq_zero_iff.1 (by simpa using hl)
    rw [List.append_nil]
    exact ⟨i.mnemonic, operandBytes i, rfl, laidOutAs_encodeWith o i⟩
  · rintro ⟨m, rest, rfl, h⟩
    obtain ⟨i, hd⟩ := decodeOperands_of_laidOutAs h
    obtain ⟨rfl, -⟩ := decodeOperands_eq_ok hd
    exact ⟨i, (decodeWith_cons ho _ rest).trans hd, (length_encodeWith o i).trans (length_of_laidOutAs h).symm⟩

/-- The opcodes of R66 fill the bytes below 0x2F (D8). -/
theorem opc_lt (m : Mnemonic) : (Config.opc m).toNat < 0x2F := by cases m <;> decide

/-- Settles O20: the samples are decoded by evaluation, and a byte above every opcode is none. -/
theorem sampleWordsDecode : Obligations.SampleWordsDecode := by
  refine ⟨rfl, rfl, rfl, rfl, rfl, rfl, rfl, opc_injective, fun b hb => decodeWith_of_unknown (fun m hm => ?_) []⟩
  have hlt := opc_lt m
  rw [hm] at hlt
  omega

end Sys2Proof

namespace Sys2Proof.Machine

open Sys2Proof.Safety

section Outcomes

variable {o : Mnemonic → Byte} {s : State} {i : Instr}

theorem raisesFatal_of_exec {u : State} {f : FaultRecord} (hf : f.isFatal = true) (hu : u.fault = s.fault)
    (h : exec i s = .next (u.raise f)) : RaisesFatal i s f :=
  ⟨hf, _, h, by rw [State.raise_fault, hu], State.raise_isLocked hf u⟩

/-- A record that is not fatal, put in the latch, locks nothing, whatever the latch held (R203). -/
theorem State.latch_isLocked {f : FaultRecord} (hf : f.isFatal = false) (s : State) :
    (s.latch f).isLocked = s.isLocked := by
  cases h : s.fault <;> simp [State.isLocked, h, hf]

/-- An instruction that ends in `t` ends the step in the check of `t`, which a locked machine skips (R210, D26). -/
theorem thenIntCheck_next (t : State) :
    thenIntCheck (.next t) = .next (if t.isLocked then t else intCheck t) := rfl

/-- Where memory does not end first, `n` single-byte advances are an addition. -/
theorem after_toNat {p : Word} : ∀ {n : Nat}, p.toNat + n < Config.memSize → (after p n).toNat = p.toNat + n
  | 0, _ => rfl
  | n + 1, h => by
    have ih : (after p n).toNat = p.toNat + n := after_toNat (by omega)
    rw [after, adv_toNat (by omega), ih, Nat.add_assoc]

/-- The bytes of an instruction that lies inside memory are fetched one after the other (R25, R64). -/
theorem fetchAddress_of_inside {f : Format} {p : Word} (h : p.toNat + f.length ≤ Config.memSize) {k : Nat}
    (hk : k < f.length) : fetchAddress f p k = p.toNat + k := by
  have hafter {n : Nat} (hn : n < f.length) : (after p n).toNat = p.toNat + n := after_toNat (by omega)
  cases f with
  | Z | R | RR | RB | B => exact hafter hk
  | RI | A =>
    rw [fetchAddress]
    split
    · exact hafter hk
    · rw [hafter (by decide)]
      omega

/-- An instruction whose bytes stand inside memory from `pc` up is the next one. -/
theorem nextInstr_of_holdsAt (h : HoldsAt s s.pc.toNat (encodeWith o i))
    (hr : s.pc.toNat + (encodeWith o i).length ≤ Config.memSize) : NextInstr o s i := by
  have hpos : 0 < (encodeWith o i).length := Nat.succ_pos _
  refine ⟨by omega, fun k hk => ?_⟩
  rw [fetchAddress_of_inside (length_encodeWith o i ▸ hr) (length_encodeWith o i ▸ hk)]
  exact h k hk

theorem fetch_of_unknown (hp : s.pc.toNat < Config.memSize) (h : ∀ m, o m ≠ s.mem.get s.pc.toNat) :
    fetch o s = .error ((s.advance 1).latch (.unknownOpcode (s.mem.get s.pc.toNat) s.pc)) := by
  rw [fetch_of_decodeError hp (decodeWith_of_unknown h _), decodeFault, State.raise_of_not_fatal rfl]

end Outcomes

/-- Settles O10: the `Step` answers a next state, and the check keeps it one. -/
theorem unlockedMachineSteps : Obligations.UnlockedMachineSteps := by
  refine ⟨fun o s hl => ?_, exec_next⟩
  obtain ⟨u, hu⟩ := coreStep_next hl o
  exact ⟨_, stepWith_of_coreStep hu⟩

/-- Settles O11: the bytes stand where the fetch reads them, since no advance wraps before their end. -/
theorem stepRunsHeldInstruction : Obligations.StepRunsHeldInstruction := by
  refine ⟨step_eq_stepWith, fun s i hl hb hr => ?_⟩
  have hread (hA : i.mnemonic.format = .A) : OperandReadable s 1 := by
    have hlen : s.pc.toNat + 5 ≤ Config.memSize := by simpa [encode, length_encodeWith, hA, Format.length] using hr
    rw [OperandReadable, after_toNat (by omega)]
    omega
  have hstep : step s = thenIntCheck (exec i s) :=
    stepWith_of_nextInstr opc_injective hl (nextInstr_of_holdsAt hb hr) hread
  exact ⟨hstep, fun t ht => by rw [hstep, ht, thenIntCheck_next]⟩

/-- Settles O13: the fetch ends past the byte with the record latched, which is not fatal. -/
theorem unknownOpcodeIsSkipped : Obligations.UnknownOpcodeIsSkipped := by
  intro o s hl hp h
  have hc := coreStep_of_error hl (fetch_of_unknown hp h)
  refine ⟨hc, fun t ht => ?_⟩
  have htl : t.isLocked = false := by
    rw [← Host.Outcome.next.inj (hc.symm.trans ht), State.latch_isLocked rfl]
    exact hl
  exact ⟨htl, by rw [stepWith, ht, thenIntCheck_of_unlocked htl]⟩

/-- Settles O16: the operand's fetch comes before anything else the instruction does. -/
theorem longOperandOutOfRangeLocks : Obligations.LongOperandOutOfRangeLocks :=
  fun _ s => ⟨fun hf h => raisesFatal_of_exec rfl s.fetchedR_fault (exec_RI_of_unreadable hf h),
    fun hi h => raisesFatal_of_exec rfl s.opcodeFetched_fault (exec_A_of_unreadable hi.symm h)⟩

end Sys2Proof.Machine
end

section
/-! SUPPORT. `nop`, `halt` and `int` (O46), and the frame that an instruction of cost `REST` ends (O54). -/

namespace Sys2Proof.Machine

open Sys2Proof.Safety

section Results

theorem exec_nop (s : State) : exec .nop s = .next { s with pc := after s.pc 1 } := rfl

theorem exec_halt (s : State) : exec .halt s = .next { s with pc := after s.pc 1, running := false } := rfl

theorem exec_int (s : State) (id : Byte) :
    exec (.int id) s = .next { s with pc := after s.pc 2, pending := some id } := rfl

end Results

/-- Settles O46: the meaning of each is its advance and one write of a field, whatever the slot holds. -/
theorem nopHaltAndIntResults : Obligations.NopHaltAndIntResults :=
  fun s id => ⟨exec_nop s, exec_halt s, exec_int s id⟩

section Check

variable {s : State}

/-- With no keyboard request pending the check changes nothing (R212). -/
theorem intCheck_of_pending_ne (h : s.pending ≠ some keyboardId) : intCheck s = s := if_neg h

/-- A key goes to `x[0]`, and no other register is written (R210). -/
theorem sameRegsBut_intCheck (s : State) : SameRegsBut [0] s (intCheck s) := by
  intro r hr
  have hr0 : r ≠ 0 := by simpa using hr
  rcases intCheck_cases s with ⟨-, h⟩ | ⟨-, -, h⟩ | ⟨-, k, -, h⟩ <;> rw [h]
  · rw [State.setRunning_reg, State.draw_reg]
  · rw [State.setPending_reg, State.setRunning_reg, State.setReg_reg_of_ne _ _ hr0, State.draw_reg]

/-- A key there resumes the machine and clears the request. -/
theorem intCheck_of_key {k : Word} (hp : s.pending = some keyboardId) (hk : Config.keyAnswer s.free = some k) :
    (intCheck s).reg 0 = k ∧ (intCheck s).running = true ∧ (intCheck s).pending = none := by
  rcases intCheck_cases s with ⟨hne, -⟩ | ⟨-, hno, -⟩ | ⟨-, k', hk', h⟩
  · exact absurd hp hne
  · simp [hk] at hno
  · obtain rfl := Option.some.inj (hk.symm.trans hk')
    simp [h]

/-- No key there stops the machine and keeps the request; the next query is another one (R222). -/
theorem intCheck_of_noKey (hp : s.pending = some keyboardId) (hk : Config.keyAnswer s.free = none) :
    intCheck s = s.draw.setRunning false := by
  rcases intCheck_cases s with ⟨hne, -⟩ | ⟨-, -, h⟩ | ⟨-, k, hk', -⟩
  · exact absurd hp hne
  · exact h
  · simp [hk] at hk'

theorem intCheck_twice_of_pending_ne (h : s.pending ≠ some keyboardId) : intCheck (intCheck s) = s := by
  rw [intCheck_of_pending_ne h, intCheck_of_pending_ne h]

/-- Two checks over a keyboard request: a key at the first, a key at the second, or a machine that waits (R210, D26). -/
theorem intCheck_twice_of_request {t : State} (hp : s.pending = some keyboardId) (hl : s.isLocked = false)
    (ht : intCheck (intCheck s) = t) :
    (Config.keyAnswer s.free = some (t.reg 0) ∧ t.running = true ∧ t.pending = none) ∨
      (Config.keyAnswer s.free = none ∧ Config.keyAnswer (s.free + 1) = some (t.reg 0) ∧ t.running = true ∧
        t.pending = none) ∨
      (Config.keyAnswer s.free = none ∧ Config.keyAnswer (s.free + 1) = none ∧ WaitingForKey t ∧
        t.reg 0 = s.reg 0) := by
  cases hk : Config.keyAnswer s.free with
  | some k =>
    obtain ⟨hreg, hrun, hnone⟩ := intCheck_of_key hp hk
    rw [intCheck_of_pending_ne (s := intCheck s) (by simp [hnone])] at ht
    subst ht
    exact .inl ⟨by rw [hreg], hrun, hnone⟩
  | none =>
    rw [intCheck_of_noKey hp hk] at ht
    have hp' : (s.draw.setRunning false).pending = some keyboardId := hp
    refine .inr ?_
    cases hk' : Config.keyAnswer (s.free + 1) with
    | some k =>
      obtain ⟨hreg, hrun, hnone⟩ := intCheck_of_key hp' hk'
      subst ht
      exact .inl ⟨rfl, by rw [hreg], hrun, hnone⟩
    | none =>
      rw [intCheck_of_noKey hp' hk'] at ht
      subst ht
      exact .inr ⟨rfl, rfl, ⟨rfl, hp, hl⟩, rfl⟩

end Check

section Rest

variable {o : Mnemonic → Byte} {s u : State} {i : Instr}

/-- A `Step` costs what the mnemonic of its opcode byte does (R236). -/
theorem stepCost_of_opcode (ho : Function.Injective o) {m : Mnemonic} (h : s.mem.get s.pc.toNat = o m) :
    stepCost o s = costOf m := by rw [stepCost, h, decodeOpcode_of_injective ho]

/-- The opcode byte of the next instruction stands at `pc`. -/
theorem opcode_of_nextInstr (h : NextInstr o s i) : s.mem.get s.pc.toNat = o i.mnemonic := by
  have h0 : fetchAddress i.mnemonic.format s.pc 0 = s.pc.toNat := by cases i.mnemonic.format <;> rfl
  exact h0 ▸ h.2 0 (Nat.succ_pos _)

/-- An instruction that costs `REST` is the only one of its frame: after it come its own check and the frame's last one
(R235, D26). -/
theorem frameTick_of_rest (ho : Function.Injective o) (hl : s.isLocked = false) (hr : s.running = true) {budget : Nat}
    (hb : 0 < budget) (h : NextInstr o s i) (hrest : costOf i.mnemonic = .rest) (hu : exec i s = .next u)
    (hf : u.fault = s.fault) (hlk : u.locked = s.locked) : frameTick o budget s = .next (intCheck (intCheck u)) := by
  have hul : u.isLocked = false := (State.isLocked_congr hf hlk).trans hl
  have hstep : stepWith o s = .next (intCheck u) := by
    rw [stepWith, coreStep_of_nextInstr ho hl h, hu, thenIntCheck_of_unlocked hul]
  have hcost : stepCost o s = .rest := (stepCost_of_opcode ho (opcode_of_nextInstr h)).trans hrest
  obtain ⟨turns, rfl⟩ := Nat.exists_eq_add_one.2 hb
  rw [frameTick, frameLoop_turn hr hb hl hstep, hcost, leftAfter, frameLoop_stop (.inr (.inl rfl)),
    thenIntCheck_of_unlocked (by rwa [intCheck_isLocked])]

end Rest

/-- Settles O54: each costs `REST`, so the frame is the instruction and two checks, which change nothing unless the
keyboard's request is pending. -/
theorem haltAndIntEndTheFrame : Obligations.HaltAndIntEndTheFrame := by
  intro o s budget ho hl hr hp hb
  have tick {i : Instr} {u : State} (h : NextInstr o s i) := frameTick_of_rest (u := u) ho hl hr hb h
  refine ⟨fun h => ?_, fun id hid h => ?_, fun h => ?_⟩
  · rw [tick h rfl (exec_halt s) rfl rfl, intCheck_twice_of_pending_ne]
    exact hp
  · rw [tick h rfl (exec_int s id) rfl rfl, intCheck_twice_of_pending_ne]
    simpa using hid
  · refine ⟨_, tick h rfl (exec_int s keyboardId) rfl rfl, by simp, fun r hr0 => ?_, by simp, by simp, by simp,
      by simp, by simp, ?_⟩
    · exact (sameRegsBut_intCheck _ r hr0).trans (sameRegsBut_intCheck _ r hr0)
    · exact intCheck_twice_of_request (s := { s with pc := after s.pc 2, pending := some keyboardId }) rfl hl rfl

end Sys2Proof.Machine
end

section
/-! SUPPORT. What the arithmetic and logic instructions write (O25, O26) and how the divisions end (O27, O28). -/

namespace Sys2Proof.Machine

open Sys2Proof.Safety

section Frame

variable {written : List Reg} {s u : State}

theorem onlyRegs_refl (written : List Reg) (s : State) : OnlyRegs written s s :=
  ⟨fun _ _ => rfl, rfl, rfl, fun _ => rfl, rfl, rfl, rfl, rfl, rfl⟩

theorem onlyRegs_setPc (h : OnlyRegs written s u) (p : Word) : OnlyRegs written s (u.setPc p) := h

theorem onlyRegs_fetchedR (written : List Reg) (s : State) : OnlyRegs written s s.fetchedR :=
  onlyRegs_setPc (onlyRegs_setPc (onlyRegs_refl written s) _) _

theorem onlyRegs_fetchedRR (written : List Reg) (s : State) : OnlyRegs written s s.fetchedRR :=
  onlyRegs_setPc (onlyRegs_fetchedR written s) _

theorem onlyRegs_setReg (h : OnlyRegs written s u) {r : Reg} (hr : r ∈ written) (v : Word) :
    OnlyRegs written s (u.setReg r v) := by
  obtain ⟨hregs, hrest⟩ := h
  exact ⟨fun q hq => by rw [State.setReg_reg_of_ne u v (ne_of_mem_of_not_mem hr hq).symm, hregs q hq], hrest⟩

/-- With an operand that can be read, an instruction of format `RI` goes on past its six bytes (R64). -/
theorem fetchRI_of_readable (h : OperandReadable s 2) (k : State → State) :
    s.fetchRI k = k (s.fetchedR.advance 4) := State.longFetched_of_inRange (s := s.fetchedR) h k

end Frame

section Writes

variable {i : Instr} {s u : State} {r r1 r2 : Reg} {imm v next : Word} {op : Word → Word → Word}

theorem writesReg_setReg (h : exec i s = .next (u.setReg r v)) (hu : OnlyRegs [r] s u) :
    WritesReg i s r v.toNat u.pc :=
  ⟨_, h, by rw [State.setReg_reg_self], rfl, onlyRegs_setReg hu (.head _) v⟩

theorem writesReg_registerOp (h : exec i s = .next (registerOp op r1 r2 s)) :
    WritesReg i s r1 (op (s.reg r1) (s.reg r2)).toNat (after s.pc 3) :=
  writesReg_setReg h (onlyRegs_fetchedRR [r1] s)

theorem writesReg_unaryOp {op : Word → Word} (h : exec i s = .next (unaryOp op r1 s)) :
    WritesReg i s r1 (op (s.reg r1)).toNat (after s.pc 2) :=
  writesReg_setReg h (onlyRegs_fetchedR [r1] s)

theorem writesReg_immediateOp (hr : OperandReadable s 2) (h : exec i s = .next (immediateOp op r1 imm s)) :
    WritesReg i s r1 (op (s.reg r1) imm).toNat (adv (after s.pc 2) 4) := by
  rw [immediateOp, fetchRI_of_readable hr] at h
  exact writesReg_setReg h (onlyRegs_setPc (onlyRegs_fetchedR [r1] s) _)

/-- A register is known bit by bit when the word written to it is. -/
theorem exists_bits_of_writesReg (h : WritesReg i s r v.toNat next) {bit : Nat → Bool}
    (hv : ∀ k, v.getLsbD k = bit k) :
    ∃ t, exec i s = .next t ∧ t.pc = next ∧ OnlyRegs [r] s t ∧ ∀ k, (t.reg r).getLsbD k = bit k := by
  obtain ⟨t, ht, hval, hpc, ho⟩ := h
  rw [← BitVec.eq_of_toNat_eq hval] at hv
  exact ⟨t, ht, hpc, ho, hv⟩

end Writes

/-- The mask of `not` has every bit set (R141). -/
theorem xor_mask_eq_not (v : Word) : v ^^^ 0xFFFFFFFF = ~~~v := BitVec.xor_allOnes

/-- Settles O25: the value each writes is the operation on words, and the arithmetic of words is mod 2^32. -/
theorem registerArithmeticResults : Obligations.RegisterArithmeticResults := by
  intro s r1 r2
  refine ⟨?add, ?sub, ?mul, ?mulu, ?neg⟩
  case add =>
    rw [← BitVec.toNat_add]
    exact writesReg_registerOp rfl
  case sub =>
    rw [Nat.add_comm, ← BitVec.toNat_sub]
    exact writesReg_registerOp rfl
  case mul | mulu =>
    rw [← BitVec.toNat_mul]
    exact writesReg_registerOp rfl
  case neg =>
    rw [← BitVec.toNat_neg, ← BitVec.zero_sub]
    exact writesReg_unaryOp (op := (0 - ·)) rfl

/-- Settles O26: the word each writes is a bitwise operation, and so is known bit by bit. -/
theorem bitwiseResults : Obligations.BitwiseResults := by
  intro s r1 r2 imm
  refine ⟨exists_bits_of_writesReg (writesReg_registerOp rfl) fun _ => BitVec.getLsbD_and,
    exists_bits_of_writesReg (writesReg_registerOp rfl) fun _ => BitVec.getLsbD_or,
    exists_bits_of_writesReg (writesReg_registerOp rfl) fun _ => BitVec.getLsbD_xor, ?not, fun hr =>
    ⟨exists_bits_of_writesReg (writesReg_immediateOp hr rfl) fun _ => BitVec.getLsbD_and,
    exists_bits_of_writesReg (writesReg_immediateOp hr rfl) fun _ => BitVec.getLsbD_or,
    exists_bits_of_writesReg (writesReg_immediateOp hr rfl) fun _ => BitVec.getLsbD_xor⟩⟩
  case not =>
    obtain ⟨t, ht, hpc, ho, hbits⟩ := exists_bits_of_writesReg (writesReg_unaryOp (i := .not r1) rfl)
      fun k => by rw [xor_mask_eq_not, BitVec.getLsbD_not]
    exact ⟨t, ht, hpc, ho, fun k hk => by rw [hbits, decide_eq_true hk, Bool.true_and]⟩

section Division

variable {i : Instr} {s u : State} {r1 : Reg} {a b : Word}

/-- A division by a number that is not 0 writes both results; the remainder is the later write (R121, D14). -/
theorem division_results (hb : b ≠ 0) (h : exec i s = .next (divideInto r1 a b s.pc u)) (hu : OnlyRegs [r1, 0] s u) :
    ∃ t, exec i s = .next t ∧ t.pc = u.pc ∧ OnlyRegs [r1, 0] s t ∧ (t.reg 0).toNat = a.toNat % b.toNat ∧
      (r1 ≠ 0 → (t.reg r1).toNat = a.toNat / b.toNat) := by
  rw [divideInto, if_neg hb] at h
  refine ⟨_, h, rfl, onlyRegs_setReg (onlyRegs_setReg hu (.head _) _) (.tail _ (.head _)) _, ?rem, fun h0 => ?quot⟩
  case rem => rw [State.setReg_reg_self, divRem_snd_toNat]
  case quot => rw [State.setReg_reg_of_ne _ _ h0, State.setReg_reg_self, divRem_fst_toNat]

/-- A division by 0 raises the fault before it writes (R122). -/
theorem division_raisesFatal (hb : b = 0) (h : exec i s = .next (divideInto r1 a b s.pc u)) (hu : u.fault = s.fault) :
    RaisesFatal i s (.divideByZero s.pc) :=
  raisesFatal_of_exec rfl hu (by rw [h, divideInto, if_pos hb])

theorem exec_divi_of_readable (h : OperandReadable s 2) (r1 : Reg) (imm : Word) :
    exec (.divi r1 imm) s = .next (divideInto r1 (s.reg r1) imm s.pc (s.fetchedR.advance 4)) :=
  congrArg Host.Outcome.next (fetchRI_of_readable h _)

end Division

/-- Settles O27: `div`, `divu` and `divi` are one division, of the word of `x[r2]` or the immediate. -/
theorem divisionResults : Obligations.DivisionResults := by
  intro s r1 r2 imm
  refine ⟨fun hb i hi => ?registers, fun hb hr => ?immediate⟩
  case registers =>
    have hexec : exec i s = .next (divideInto r1 (s.reg r1) (s.reg r2) s.pc s.fetchedRR) := by
      rcases List.mem_pair.1 hi with rfl | rfl <;> rfl
    exact division_results hb hexec (onlyRegs_fetchedRR _ s)
  case immediate =>
    exact division_results hb (exec_divi_of_readable hr r1 imm) (onlyRegs_setPc (onlyRegs_fetchedR _ s) _)

/-- Settles O28: the same division, whose fault names the address at which the instruction began. -/
theorem divisionByZeroLocks : Obligations.DivisionByZeroLocks := fun s r1 _ =>
  ⟨fun hb => ⟨division_raisesFatal hb rfl s.fetchedRR_fault, division_raisesFatal hb rfl s.fetchedRR_fault⟩,
    fun hr => division_raisesFatal rfl (exec_divi_of_readable hr r1 0) s.fetchedR_fault⟩

end Sys2Proof.Machine
end

section
/-! SUPPORT. What `addi`, `subi`, `muli` and `ldi` write (O29). -/

namespace Sys2Proof.Machine

/-- Settles O29: the word each writes is an operation on the old word and the immediate, for `ldi` the immediate. -/
theorem immediateArithmeticResults : Obligations.ImmediateArithmeticResults := by
  intro s r1 imm hr
  refine ⟨?addi, ?subi, ?muli, ?ldi⟩
  case addi =>
    rw [← BitVec.toNat_add]
    exact writesReg_immediateOp hr rfl
  case subi =>
    rw [Nat.add_comm, ← BitVec.toNat_sub]
    exact writesReg_immediateOp hr rfl
  case muli =>
    rw [← BitVec.toNat_mul]
    exact writesReg_immediateOp hr rfl
  case ldi => exact writesReg_immediateOp (op := fun _ v => v) hr rfl

end Sys2Proof.Machine
end

section
/-! SUPPORT. The flags that `cmp` and `cmpi` write (O30). -/

namespace Sys2Proof.Machine

open Sys2Proof.Safety

/-- `Z` compares words, and a word is known by its unsigned value. -/
theorem compareFlags_zero (a b : Word) : (compareFlags a b).zero = decide (a.toNat = b.toNat) :=
  decide_eq_decide.2 BitVec.toNat_inj.symm

theorem compareFlags_carry (a b : Word) : (compareFlags a b).carry = decide (a.toNat > b.toNat) :=
  greater_unsigned a b

theorem compareFlags_negative (a b : Word) : (compareFlags a b).negative = decide (a.toNat < b.toNat) :=
  less_unsigned a b

section Compare

variable {i : Instr} {s u : State} {a b : Word}

theorem onlyFlags_setFlags (h : OnlyRegs [] s u) (f : Flags) : OnlyFlags s (u.setFlags f) := by
  obtain ⟨hregs, hsp, -, hmem, hcontrol⟩ := h
  exact ⟨hregs, hsp, hmem, hcontrol⟩

/-- A comparison writes the flags over the state to which the operands' fetch led (R145). -/
theorem comparison_results (h : exec i s = .next (u.setFlags (compareFlags a b))) (hu : OnlyRegs [] s u) :
    ∃ t, exec i s = .next t ∧ t.pc = u.pc ∧ OnlyFlags s t ∧ t.flags.zero = decide (a.toNat = b.toNat) ∧
      t.flags.carry = decide (a.toNat > b.toNat) ∧ t.flags.negative = decide (a.toNat < b.toNat) ∧
      t.flags.overflow = false :=
  ⟨_, h, u.setFlags_pc _, onlyFlags_setFlags hu _, compareFlags_zero a b, compareFlags_carry a b,
    compareFlags_negative a b, rfl⟩

theorem exec_cmpi_of_readable (h : OperandReadable s 2) (r1 : Reg) (imm : Word) :
    exec (.cmpi r1 imm) s = .next ((s.fetchedR.advance 4).setFlags (compareFlags (s.reg r1) imm)) :=
  congrArg Host.Outcome.next (fetchRI_of_readable h _)

end Compare

/-- Settles O30: `cmp` and `cmpi` are one comparison, with the word of `x[r2]` or the immediate. -/
theorem compareWritesAllFlags : Obligations.CompareWritesAllFlags := by
  intro s r1 r2 imm
  refine ⟨?cmp, fun hr => ?cmpi⟩
  case cmp => exact comparison_results rfl (onlyRegs_fetchedRR [] s)
  case cmpi => exact comparison_results (exec_cmpi_of_readable hr r1 imm) (onlyRegs_setPc (onlyRegs_fetchedR [] s) _)

end Sys2Proof.Machine
end

section
/-! SUPPORT. How a branch ends with its condition given (O31, O32), and the conditions after a compare (O33). -/

namespace Sys2Proof.Machine

open Sys2Proof.Safety

section Conditions

variable {f : Flags}

theorem Flags.condBne_eq_true : f.condBne = true ↔ f.zero = false := Iff.of_eq (Bool.not_eq_true' _)

theorem Flags.condBne_eq_false : f.condBne = false ↔ f.zero = true := Iff.of_eq (Bool.not_eq_false' _)

theorem Flags.condBge_eq_true : f.condBge = true ↔ f.negative = true ∨ f.zero = true := Bool.or_eq_true_iff

theorem Flags.condBge_eq_false : f.condBge = false ↔ f.negative = false ∧ f.zero = false := Bool.or_eq_false_iff

/-- The negation applies to `N` alone (D16). -/
theorem Flags.condBle_eq_true : f.condBle = true ↔ f.negative = false ∨ f.zero = true := by
  rw [condBle, Bool.or_eq_true_iff, Bool.not_eq_true']

theorem Flags.condBle_eq_false : f.condBle = false ↔ f.negative = true ∧ f.zero = false := by
  rw [condBle, Bool.or_eq_false_iff, Bool.not_eq_false']

end Conditions

section Outcome

variable {i : Instr} {s : State} {c : Bool} {addr : Word}

/-- A taken branch whose operand can be read goes to its address, wherever that is (R150, R24). -/
theorem writesPcOnly_of_taken (hr : OperandReadable s 1) (h : exec i s = .next (branch c addr s)) (hc : c = true) :
    WritesPcOnly i s addr := by
  rw [branch_taken hc, State.longFetched_of_inRange (s := s.opcodeFetched) hr] at h
  exact ⟨_, h, State.setPc_pc _ _, onlyRegs_setPc (onlyRegs_setPc (onlyRegs_setPc (onlyRegs_refl [] s) _) _) _⟩

/-- A branch that is not taken goes past its operand, which it does not read (D17). -/
theorem writesPcOnly_of_notTaken (h : exec i s = .next (branch c addr s)) (hc : c = false) :
    WritesPcOnly i s (adv (after s.pc 1) 4) := by
  rw [branch_notTaken hc] at h
  exact ⟨_, h, rfl, onlyRegs_setPc (onlyRegs_setPc (onlyRegs_refl [] s) _) _⟩

/-- Both ends of a branch with a readable operand, its condition given as a proposition. -/
theorem branch_outcome (hr : OperandReadable s 1) (h : exec i s = .next (branch c addr s)) {taken : Prop}
    (hc : c = true ↔ taken) :
    (taken → WritesPcOnly i s addr) ∧ (¬ taken → WritesPcOnly i s (adv (after s.pc 1) 4)) :=
  ⟨fun ht => writesPcOnly_of_taken hr h (hc.2 ht),
    fun ht => writesPcOnly_of_notTaken h (Bool.eq_false_iff.2 (mt hc.1 ht))⟩

end Outcome

/-- Settles O31: each condition of the table is one on `Z` and `N`, and a branch whose condition holds goes to its address. -/
theorem takenBranches : Obligations.TakenBranches := by
  intro s addr hr
  have taken {i : Instr} {c : Bool} := writesPcOnly_of_taken (i := i) (c := c) (addr := addr) hr
  refine ⟨taken rfl, fun hz => taken rfl (Flags.condBne_eq_true.2 hz), fun h => ?bge,
    fun hn => ⟨taken rfl hn, taken rfl hn, taken rfl hn, taken rfl hn⟩, fun h => ?ble⟩
  case bge =>
    have hc := Flags.condBge_eq_true.2 h
    exact ⟨taken rfl hc, taken rfl hc⟩
  case ble =>
    have hc := Flags.condBle_eq_true.2 h
    exact ⟨taken rfl hc, taken rfl hc⟩

/-- Settles O32: a branch whose condition fails does not look at its operand, so no operand has to be readable. -/
theorem untakenBranchesSkipTheOperand : Obligations.UntakenBranchesSkipTheOperand := by
  intro s addr
  have skips {i : Instr} {c : Bool} := writesPcOnly_of_notTaken (i := i) (s := s) (c := c) (addr := addr)
  refine ⟨skips rfl, fun hz => skips rfl (Flags.condBne_eq_false.2 hz), fun hn hz => ?bge,
    fun hn => ⟨skips rfl hn, skips rfl hn, skips rfl hn, skips rfl hn⟩, fun hn hz => ?ble⟩
  case bge =>
    have hc := Flags.condBge_eq_false.2 ⟨hn, hz⟩
    exact ⟨skips rfl hc, skips rfl hc⟩
  case ble =>
    have hc := Flags.condBle_eq_false.2 ⟨hn, hz⟩
    exact ⟨skips rfl hc, skips rfl hc⟩

section AfterCompare

variable {f : Flags} {a b : Nat}

theorem condBeq_after_compare (hz : f.zero = decide (a = b)) : f.condBeq = true ↔ a = b := by
  rw [Flags.condBeq, hz, decide_eq_true_iff]

theorem condBne_after_compare (hz : f.zero = decide (a = b)) : f.condBne = true ↔ a ≠ b := by
  rw [Flags.condBne_eq_true, hz, decide_eq_false_iff_not]

theorem condBge_after_compare (hz : f.zero = decide (a = b)) (hn : f.negative = decide (a < b)) :
    f.condBge = true ↔ a ≤ b := by
  rw [Flags.condBge_eq_true, hz, hn, decide_eq_true_iff, decide_eq_true_iff, Nat.le_iff_lt_or_eq]

/-- `N` says that the left operand is the less, so `bgt` and `blt` are one branch (R161). -/
theorem condBgt_after_compare (hn : f.negative = decide (a < b)) : f.condBgt = true ↔ a < b := by
  rw [Flags.condBgt, hn, decide_eq_true_iff]

/-- Equal operands are not less, so the disjunct `Z` adds nothing after a compare (R161, D16). -/
theorem condBle_after_compare (hz : f.zero = decide (a = b)) (hn : f.negative = decide (a < b)) :
    f.condBle = true ↔ a ≥ b := by
  rw [Flags.condBle_eq_true, hz, hn, decide_eq_false_iff_not, decide_eq_true_iff]
  omega

end AfterCompare

/-- Settles O33: the compare leaves `Z` and `N` as the order of its operands has them (O30), and they decide the branch. -/
theorem branchTableAfterCompare : Obligations.BranchTableAfterCompare := by
  intro s t r1 r2 addr ht hr i taken hi
  obtain ⟨⟨u, hu, -, -, hz, -, hn, -⟩, -⟩ := compareWritesAllFlags s r1 r2 0
  obtain rfl := Host.Outcome.next.inj (hu.symm.trans ht)
  have outcome {c : Bool} (h : exec i u = .next (branch c addr u)) := branch_outcome hr h (taken := taken)
  rcases hi with ⟨rfl, htaken⟩ | ⟨rfl, htaken⟩ | ⟨hi, htaken⟩ | ⟨hi, htaken⟩ | ⟨hi, htaken⟩
  · exact outcome rfl ((condBeq_after_compare hz).trans htaken.symm)
  · exact outcome rfl ((condBne_after_compare hz).trans htaken.symm)
  · have hexec : exec i u = .next (branch u.flags.condBge addr u) := by rcases hi with rfl | rfl <;> rfl
    exact outcome hexec ((condBge_after_compare hz hn).trans htaken.symm)
  · have hexec : exec i u = .next (branch u.flags.condBgt addr u) := by
      rcases hi with rfl | rfl | rfl | rfl <;> rfl
    exact outcome hexec ((condBgt_after_compare hn).trans htaken.symm)
  · have hexec : exec i u = .next (branch u.flags.condBle addr u) := by rcases hi with rfl | rfl <;> rfl
    exact outcome hexec ((condBle_after_compare hz hn).trans htaken.symm)

end Sys2Proof.Machine
end

section
/-! SUPPORT. How the loads, the stores and the pointer read of `jmp` end (O34 to O36). -/

namespace Sys2Proof.Machine

open Sys2Proof.Safety

section Long

/-- The four bytes at an address spell the long there (R45). -/
theorem beNat_loadBytes_four (s : State) (a : Nat) : beNat (s.mem.loadBytes a 4) = long s a := by
  simp [Memory.loadBytes, beNat, long, Nat.add_assoc]

/-- A long is the value of a word, so it serves as an address as it stands. -/
theorem long_toNat (s : State) (a : Nat) : (BitVec.ofNat 32 (long s a)).toNat = long s a := by
  have hlt : long s a < 2 ^ 32 := by simpa [beNat_loadBytes_four] using beNat_lt (s.mem.loadBytes a 4)
  rw [BitVec.toNat_ofNat, Nat.mod_eq_of_lt hlt]

theorem long_of_sameMemory {s u : State} (h : SameMemory s u) (a : Nat) : long u a = long s a := by
  simp only [long, h _]

/-- A load in range goes on with the long at its address (R42). -/
theorem State.load4_long {u : State} {a : Word} (h : a.toNat + 4 ≤ Config.memSize) (k : Word → State) :
    u.load4 a k = k (BitVec.ofNat 32 (long u a.toNat)) := by
  rw [State.load4_of_inRange h, beNat_loadBytes_four]

end Long

section Access

variable {i : Instr} {s u : State} {a : Word}

/-- A load in range into a register, made over the state to which the operands' fetch led (R170, R171, R173). -/
theorem writesReg_load4 {r : Reg} (ha : a.toNat + 4 ≤ Config.memSize)
    (h : exec i s = .next (u.load4 a fun v => u.setReg r v)) (hu : OnlyRegs [r] s u) :
    WritesReg i s r (long s a.toNat) u.pc := by
  have ⟨_, _, _, hmem, _⟩ := hu
  rw [State.load4_long ha] at h
  rw [← long_of_sameMemory hmem, ← long_toNat u]
  exact writesReg_setReg h hu

/-- A load out of range raises the fault of its address (R42, R44). -/
theorem raisesFatal_load4 {k : Word → State} (ha : Config.memSize < a.toNat + 4) (h : exec i s = .next (u.load4 a k))
    (hu : u.fault = s.fault) : RaisesFatal i s (.memoryFault a) :=
  raisesFatal_of_exec rfl hu (by rw [h, State.load4_of_outOfRange ha])

/-- A store out of range raises the fault of its address (R43, R44). -/
theorem raisesFatal_store {n v : Nat} {k : State → State} (ha : Config.memSize < a.toNat + n)
    (h : exec i s = .next (u.store a n v k)) (hu : u.fault = s.fault) : RaisesFatal i s (.memoryFault a) :=
  raisesFatal_of_exec rfl hu (by rw [h, State.store_of_outOfRange ha])

theorem onlyBytes_storeBytes (hu : OnlyRegs [] s u) (a : Nat) (bytes : List Byte) :
    OnlyBytes a bytes.length s (u.setMem (u.mem.storeBytes a bytes)) := by
  obtain ⟨hregs, hsp, hflags, hmem, hcontrol⟩ := hu
  exact ⟨hregs, hsp, hflags,
    fun b hb => (Memory.get_storeBytes_outside bytes u.mem a b hb).trans (hmem b), hcontrol⟩

/-- A store in range, made over the state to which the operands' fetch led, leaves the low bytes of its value at its
address and every other byte alone (R43). -/
theorem store_results {n v : Nat} (ha : a.toNat + n ≤ Config.memSize) (h : exec i s = .next (u.store a n v id))
    (hu : OnlyRegs [] s u) (hwf : u.mem.wf = true) :
    ∃ t, exec i s = .next t ∧ t.pc = u.pc ∧ t.mem.loadBytes a.toNat n = beBytes n v ∧ OnlyBytes a.toNat n s t := by
  have hlen := length_beBytes n v
  rw [State.store_of_inRange ha, id] at h
  refine ⟨_, h, u.setMem_pc _, ?bytes, ?frame⟩
  case bytes => simpa only [State.setMem_mem, hlen] using
    Memory.loadBytes_storeBytes hwf (beBytes n v) a.toNat (hlen.symm ▸ ha)
  case frame => simpa only [hlen] using onlyBytes_storeBytes hu a.toNat (beBytes n v)

end Access

section ReadableOperand

variable {s : State} (h : OperandReadable s 2) (r1 : Reg) (addr : Word)
include h

theorem exec_ld_of_readable : exec (.ld r1 addr) s =
    .next ((s.fetchedR.advance 4).load4 addr fun v => (s.fetchedR.advance 4).setReg r1 v) :=
  congrArg Host.Outcome.next (fetchRI_of_readable h _)

theorem exec_lda_of_readable : exec (.lda r1 addr) s = .next ((s.fetchedR.advance 4).load4 addr fun p =>
    (s.fetchedR.advance 4).load4 p fun v => (s.fetchedR.advance 4).setReg r1 v) :=
  congrArg Host.Outcome.next (fetchRI_of_readable h _)

/-- With its pointer cell in range, `lda` loads from the address that stands there (R171). -/
theorem exec_lda_of_pointerRead (ha : addr.toNat + 4 ≤ Config.memSize) : exec (.lda r1 addr) s =
    .next ((s.fetchedR.advance 4).load4 (BitVec.ofNat 32 (long s addr.toNat)) fun v =>
      (s.fetchedR.advance 4).setReg r1 v) := by
  have hlong : long (s.fetchedR.advance 4) addr.toNat = long s addr.toNat := long_of_sameMemory (fun _ => by simp) _
  rw [exec_lda_of_readable h, State.load4_long ha, hlong]

theorem exec_sta_of_readable : exec (.sta r1 addr) s =
    .next ((s.fetchedR.advance 4).store addr 4 (s.reg r1).toNat id) :=
  congrArg Host.Outcome.next (fetchRI_of_readable h _)

end ReadableOperand

/-- Settles O36: each is one store over the fetched state, and the bytes read back spell the value stored. -/
theorem storeResults : Obligations.StoreResults := by
  intro s r1 r2 addr hwf
  refine ⟨fun ha => ?stb, fun hr ha => ?sta⟩
  case stb =>
    obtain ⟨t, ht, hpc, hbytes, hframe⟩ := store_results (i := .stb r1 r2) ha rfl (onlyRegs_fetchedRR [] s) hwf
    have hvalue := congrArg beNat hbytes
    rw [beNat_beBytes] at hvalue
    exact ⟨t, ht, hpc, by simpa [Memory.loadBytes, beNat] using hvalue, hframe⟩
  case sta =>
    obtain ⟨t, ht, hpc, hbytes, hframe⟩ :=
      store_results ha (exec_sta_of_readable hr r1 addr) (onlyRegs_setPc (onlyRegs_fetchedR [] s) _) hwf
    exact ⟨t, ht, hpc, by rw [← beNat_loadBytes_four, hbytes, beNat_beBytes_word], hframe⟩

/-- Settles O34: each ends in one load into `r1`, for `lda` from the address its first read gave. -/
theorem loadResults : Obligations.LoadResults := by
  intro s r1 r2 addr
  have hRI : OnlyRegs [r1] s (s.fetchedR.advance 4) := onlyRegs_setPc (onlyRegs_fetchedR [r1] s) _
  refine ⟨fun hr ha => ?ld, fun hr ha hp => ?lda, fun ha => ?ldr⟩
  case ld => exact writesReg_load4 ha (exec_ld_of_readable hr r1 addr) hRI
  case lda =>
    rw [← long_toNat s addr.toNat] at hp ⊢
    exact writesReg_load4 hp (exec_lda_of_pointerRead hr r1 addr ha) hRI
  case ldr => exact writesReg_load4 ha rfl (onlyRegs_fetchedRR [r1] s)

/-- Settles O35: each ends in the access that leaves memory, and the fetch before it leaves the latch alone. -/
theorem dataAccessFaults : Obligations.DataAccessFaults := by
  intro s r1 r2 addr
  have hRI : (s.fetchedR.advance 4).fault = s.fault := by simp
  refine ⟨fun hr ha => ?operand, fun hr ha hp => ?pointer, fun ha => ?register, fun ha => ?byte⟩
  case operand =>
    exact ⟨raisesFatal_load4 ha (exec_ld_of_readable hr r1 addr) hRI,
      raisesFatal_load4 ha (exec_lda_of_readable hr r1 addr) hRI,
      raisesFatal_store ha (exec_sta_of_readable hr r1 addr) hRI⟩
  case pointer =>
    rw [← long_toNat s addr.toNat] at hp
    exact raisesFatal_load4 hp (exec_lda_of_pointerRead hr r1 addr ha) hRI
  case register => exact ⟨raisesFatal_load4 ha rfl s.fetchedRR_fault, raisesFatal_load4 ha rfl s.fetchedR_fault⟩
  case byte => exact raisesFatal_store ha rfl s.fetchedRR_fault

end Sys2Proof.Machine
end

section
/-! SUPPORT. What a push and a pop leave, and how the instructions that use the stack fault (O38 to O40). -/

namespace Sys2Proof.Machine

open Sys2Proof.Safety

/-- The state a push that fits leaves: `sp` is four lower and the value stands there (R182). -/
def State.pushed (u : State) (v : Word) : State :=
  (u.setSp (u.sp - 4)).setMem (u.mem.storeBytes (u.sp - 4).toNat (beBytes 4 v.toNat))

section Stack

variable {i : Instr} {s u : State} {v : Word}

theorem State.push_eq_pushed (h : (u.sp - 4).toNat + 4 ≤ Config.memSize) (k : State → State) :
    u.push v k = k (u.pushed v) := State.push_of_inRange h k

@[simp] theorem State.pushed_pc (u : State) (v : Word) : (u.pushed v).pc = u.pc := (rfl)
@[simp] theorem State.pushed_sp (u : State) (v : Word) : (u.pushed v).sp = u.sp - 4 := (rfl)
@[simp] theorem State.pushed_fault (u : State) (v : Word) : (u.pushed v).fault = u.fault := (rfl)

/-- The long in the slot of a push is the value pushed. -/
theorem long_pushed (h : (u.sp - 4).toNat + 4 ≤ Config.memSize) (hwf : u.mem.wf = true) (v : Word) :
    long (u.pushed v) (u.sp - 4).toNat = v.toNat := by
  rw [← beNat_loadBytes_four, ← beNat_beBytes_word v]
  exact congrArg beNat (Memory.loadBytes_storeBytes hwf (beBytes 4 v.toNat) _ h)

/-- A push made over the state to which the operands' fetch led changes `sp` and the slot, and nothing else but `pc`. -/
theorem onlySpBytes_pushed (hu : OnlyRegs [] s u) (v : Word) : OnlySpBytes (u.sp - 4).toNat 4 s (u.pushed v) := by
  obtain ⟨hregs, -, hflags, hmem, hcontrol⟩ :=
    onlyBytes_storeBytes hu (u.sp - 4).toNat (beBytes 4 v.toNat)
  exact ⟨hregs, hflags, hmem, hcontrol⟩

theorem onlyRegsSp_setSp {written : List Reg} (hu : OnlyRegs written s u) (a : Word) :
    OnlyRegsSp written s (u.setSp a) := by
  obtain ⟨hregs, -, hrest⟩ := hu
  exact ⟨hregs, hrest⟩

/-- A pop in range goes on with the long at `sp`, which is then four higher (R182). -/
theorem State.pop_long (h : u.sp.toNat + 4 ≤ Config.memSize) (k : Word → State → State) :
    u.pop k = k (BitVec.ofNat 32 (long u u.sp.toNat)) (u.setSp (u.sp + 4)) := State.load4_long h _

/-- A push whose slot is out of range raises the fault of the slot's address (R182, D32). -/
theorem raisesFatal_push {k : State → State} (ha : Config.memSize < (u.sp - 4).toNat + 4)
    (h : exec i s = .next (u.push v k)) (hu : u.fault = s.fault) : RaisesFatal i s (.memoryFault (u.sp - 4)) :=
  raisesFatal_store ha h hu

/-- A pop out of range raises the fault of `sp` (R182, D5). -/
theorem raisesFatal_pop {k : Word → State → State} (ha : Config.memSize < u.sp.toNat + 4)
    (h : exec i s = .next (u.pop k)) (hu : u.fault = s.fault) : RaisesFatal i s (.memoryFault u.sp) :=
  raisesFatal_load4 ha h hu

end Stack

section PushAndPop

variable {s : State}

theorem push_results (hwf : s.mem.wf = true) (h : (s.sp - 4).toNat + 4 ≤ Config.memSize) (r1 : Reg) :
    ∃ t, exec (.push r1) s = .next t ∧ t.pc = after s.pc 2 ∧ t.sp = s.sp - 4 ∧
      long t (s.sp - 4).toNat = (s.reg r1).toNat ∧ OnlySpBytes (s.sp - 4).toNat 4 s t :=
  ⟨s.fetchedR.pushed (s.reg r1), congrArg Host.Outcome.next (State.push_eq_pushed (u := s.fetchedR) h id),
    State.pushed_pc _ _, State.pushed_sp _ _, long_pushed (u := s.fetchedR) h hwf _,
    onlySpBytes_pushed (onlyRegs_fetchedR [] s) _⟩

theorem pop_results (h : s.sp.toNat + 4 ≤ Config.memSize) (r1 : Reg) :
    ∃ t, exec (.pop r1) s = .next t ∧ t.pc = after s.pc 2 ∧ t.sp = s.sp + 4 ∧
      (t.reg r1).toNat = long s s.sp.toNat ∧ OnlyRegsSp [r1] s t := by
  have hframe (v : Word) : OnlyRegs [r1] s (s.fetchedR.setReg r1 v) :=
    onlyRegs_setReg (onlyRegs_fetchedR [r1] s) (.head _) v
  exact ⟨_, congrArg Host.Outcome.next (State.pop_long (u := s.fetchedR) h _), rfl, rfl,
    by rw [State.setReg_reg_self]; exact long_toNat s _, onlyRegsSp_setSp (hframe _) _⟩

/-- With its slot in range, `jsr` goes on from the push to the read of its pointer cell (R187, D19). -/
theorem exec_jsr_of_pushed (h : (s.sp - 4).toNat + 4 ≤ Config.memSize) (r1 : Reg) :
    exec (.jsr r1) s = .next ((s.fetchedR.pushed s.fetchedR.pc).load4 (s.reg r1) fun target =>
      (s.fetchedR.pushed s.fetchedR.pc).setPc target) :=
  congrArg Host.Outcome.next (State.push_eq_pushed (u := s.fetchedR) h _)

/-- With its slot in range, `jsra` faults at an operand that cannot be read (R188, D19). -/
theorem raisesFatal_jsra_of_unreadable (h : (s.sp - 4).toNat + 4 ≤ Config.memSize) (hr : ¬ OperandReadable s 1)
    (addr : Word) : RaisesFatal (.jsra addr) s (.memoryFault (after s.pc 1)) := by
  obtain ⟨u, hu, hexec⟩ := exec_jsra_of_unreadable (i := .jsra addr) rfl hr
  rw [if_pos h] at hexec
  exact raisesFatal_of_exec rfl hu hexec

end PushAndPop

/-- Settles O38: each is one operation of the stack over the fetched state. -/
theorem pushAndPopResults : Obligations.PushAndPopResults := fun _ r1 hwf =>
  ⟨fun h => push_results hwf h r1, fun h => pop_results h r1⟩

/-- Settles O40: `pop` reads the slot that `push` left, since the push moved `sp` to it. -/
theorem popAfterPushReturnsTheValue : Obligations.PopAfterPushReturnsTheValue := by
  intro s r1 r2 hwf h4 hle
  have hslot : (s.sp - 4).toNat = s.sp.toNat - 4 := BitVec.toNat_sub_of_le h4
  have hr : (s.sp - 4).toNat + 4 ≤ Config.memSize := by omega
  obtain ⟨t, ht, -, htsp, hlong, -⟩ := push_results hwf hr r1
  rw [← htsp] at hr hlong
  obtain ⟨u, hu, -, husp, hreg, -⟩ := pop_results hr r2
  exact ⟨t, u, ht, hu, BitVec.eq_of_toNat_eq (hreg.trans hlong), by rw [husp, htsp, BitVec.sub_add_cancel]⟩

/-- Settles O39: the push or pop comes first, and the target is read from the state the push left (D19). -/
theorem stackAndCallFaults : Obligations.StackAndCallFaults := by
  intro s r1 addr
  refine ⟨fun h => ?slot, fun h ha => ?cell, fun h hr => raisesFatal_jsra_of_unreadable h hr addr, fun h => ?pop⟩
  case slot =>
    exact ⟨raisesFatal_push (u := s.fetchedR) h rfl s.fetchedR_fault,
      raisesFatal_push (u := s.fetchedR) h rfl s.fetchedR_fault,
      raisesFatal_push (u := s.opcodeFetched) h rfl s.opcodeFetched_fault⟩
  case cell => exact raisesFatal_load4 ha (exec_jsr_of_pushed h r1) (State.pushed_fault _ _)
  case pop =>
    exact ⟨raisesFatal_pop (u := s.fetchedR) h rfl s.fetchedR_fault,
      raisesFatal_pop (u := s.opcodeFetched) h rfl s.opcodeFetched_fault⟩

end Sys2Proof.Machine
end

section
/-! SUPPORT. Where the jumps, the calls and the return go and what they leave (O41 to O45). -/

namespace Sys2Proof.Machine

open Sys2Proof.Safety

section Jumps

variable {i : Instr} {s u : State}

/-- A jump made over the state to which the operands' fetch led writes `pc` verbatim and nothing else (R24). -/
theorem writesPcOnly_setPc {target : Word} (h : exec i s = .next (u.setPc target)) (hu : OnlyRegs [] s u) :
    WritesPcOnly i s target := ⟨_, h, u.setPc_pc target, onlyRegs_setPc hu target⟩

/-- `jmp` goes to the long of its pointer cell (R185). -/
theorem exec_jmp_of_inRange {r1 : Reg} (h : (s.reg r1).toNat + 4 ≤ Config.memSize) :
    exec (.jmp r1) s = .next (s.fetchedR.setPc (BitVec.ofNat 32 (long s (s.reg r1).toNat))) :=
  congrArg Host.Outcome.next (State.load4_long (u := s.fetchedR) h _)

/-- `jmpa` goes to an operand that can be read (R186). -/
theorem exec_jmpa_of_readable (h : OperandReadable s 1) (addr : Word) :
    exec (.jmpa addr) s = .next ((s.opcodeFetched.advance 4).setPc addr) :=
  congrArg Host.Outcome.next (State.longFetched_of_inRange (s := s.opcodeFetched) h _)

end Jumps

/-- Settles O41: each is one write of `pc` over the fetched state. -/
theorem jumpResults : Obligations.JumpResults := fun s _ addr =>
  ⟨fun h => writesPcOnly_setPc (exec_jmp_of_inRange h) (onlyRegs_fetchedR [] s),
    fun h => writesPcOnly_setPc (exec_jmpa_of_readable h addr)
      (onlyRegs_setPc (onlyRegs_setPc (onlyRegs_refl [] s) _) _)⟩

/-- Settles O44: `ret` is a pop into `pc`. -/
theorem returnResult : Obligations.ReturnResult := fun s h =>
  ⟨_, congrArg Host.Outcome.next (State.pop_long (u := s.opcodeFetched) h _), long_toNat s _, rfl,
    onlyRegsSp_setSp (onlyRegs_setPc (onlyRegs_refl [] s) _) _⟩

/-- What a call that returns to `ret` leaves: `ret` in the slot below the stack pointer, which lies in memory, `sp` moved to
it, and nothing else changed but `pc` (R187, R188). -/
def CallLeaves (ret : Word) (s t : State) : Prop :=
  (s.sp - 4).toNat + 4 ≤ Config.memSize ∧ t.sp = s.sp - 4 ∧ long t (s.sp - 4).toNat = ret.toNat ∧
    OnlySpBytes (s.sp - 4).toNat 4 s t

@[simp] theorem State.pushed_mem (u : State) (v : Word) :
    (u.pushed v).mem = u.mem.storeBytes (u.sp - 4).toNat (beBytes 4 v.toNat) := (rfl)

@[simp] theorem long_setPc (u : State) (p : Word) (a : Nat) : long (u.setPc p) a = long u a :=
  long_of_sameMemory (fun _ => by rw [State.setPc_mem]) a

/-- Where a call jumps to is no part of what it leaves. -/
theorem CallLeaves.setPc {ret : Word} {s t : State} (h : CallLeaves ret s t) (p : Word) :
    CallLeaves ret s (t.setPc p) := h

section Calls

variable {s : State} (hslot : (s.sp - 4).toNat + 4 ≤ Config.memSize)
include hslot

/-- A push in range, made over the state to which the operands' fetch led. -/
theorem callLeaves_pushed {u : State} (hwf : u.mem.wf = true) (hu : OnlyRegs [] s u) (ret : Word) :
    CallLeaves ret s (u.pushed ret) := by
  have hframe := onlySpBytes_pushed hu ret
  obtain ⟨-, hsp, -⟩ := hu
  rw [← hsp] at hslot
  rw [CallLeaves, ← hsp]
  exact ⟨hslot, State.pushed_sp u ret, long_pushed hslot hwf ret, hframe⟩

/-- With its slot in range and its operand readable, `jsra` goes to the operand as it reads after the push (R188, D19). -/
theorem exec_jsra_of_readable (hr : OperandReadable s 1) (addr : Word) :
    exec (.jsra addr) s = .next (((s.opcodeFetched.pushed (adv (after s.pc 1) 4)).advance 4).setPc
      (operandAfterPush s.mem (after s.pc 1) addr (s.sp - 4) (adv (after s.pc 1) 4))) :=
  congrArg Host.Outcome.next ((State.push_eq_pushed (u := s.opcodeFetched) hslot _).trans
    (State.longFetched_of_inRange (s := s.opcodeFetched.pushed (adv (after s.pc 1) 4)) hr _))

/-- With slot and pointer cell in range, `jsr` goes to the long of the cell as the push left it (R187, D19). -/
theorem jsr_results (hwf : s.mem.wf = true) {r1 : Reg} (hcell : (s.reg r1).toNat + 4 ≤ Config.memSize) :
    ∃ t, exec (.jsr r1) s = .next t ∧ t.pc.toNat = long t (s.reg r1).toNat ∧ CallLeaves (after s.pc 2) s t := by
  have hexec := exec_jsr_of_pushed hslot r1
  rw [State.load4_long hcell] at hexec
  exact ⟨_, hexec, by rw [State.setPc_pc, long_toNat, long_setPc],
    (callLeaves_pushed hslot hwf (onlyRegs_fetchedR [] s) _).setPc _⟩

/-- With slot and operand in range, `jsra` goes to the operand as it reads after the push (R188, D19). -/
theorem jsra_results (hwf : s.mem.wf = true) (hr : OperandReadable s 1) (addr : Word) :
    ∃ t, exec (.jsra addr) s = .next t ∧
      t.pc = operandAfterPush s.mem (after s.pc 1) addr (s.sp - 4) (adv (after s.pc 1) 4) ∧
      t.mem = s.mem.storeBytes (s.sp - 4).toNat (beBytes 4 (adv (after s.pc 1) 4).toNat) ∧
      CallLeaves (adv (after s.pc 1) 4) s t :=
  ⟨_, exec_jsra_of_readable hslot hr addr, State.setPc_pc _ _, by simp,
    ((callLeaves_pushed hslot hwf (onlyRegs_setPc (onlyRegs_refl [] s) _) _).setPc _).setPc _⟩

end Calls

/-- Settles O42: `jsr` is a push and a jump through the cell. -/
theorem callThroughPointerResult : Obligations.CallThroughPointerResult := by
  intro s r1 hwf hslot hcell
  obtain ⟨t, ht, hpc, -, hsp, hret, hframe⟩ := jsr_results hslot hwf hcell
  exact ⟨t, ht, hsp, hret, hpc, hframe⟩

section Operand

variable {s : State} {a : Nat}

/-- To store the bytes that stand at an address already changes nothing. -/
theorem storeBytes_of_holdsAt {bytes : List Byte} (hwf : s.mem.wf = true) (hr : a + bytes.length ≤ Config.memSize)
    (h : HoldsAt s a bytes) : s.mem.storeBytes a bytes = s.mem := by
  refine equalReadsMeanEqualMemory _ _ (Memory.wf_storeBytes bytes a hwf) hwf fun x => ?_
  rw [Memory.get_storeBytes_eq_storedOver hwf hr, storedOver]
  split
  case isTrue hx =>
    obtain ⟨k, rfl⟩ := Nat.exists_eq_add_of_le hx.1
    rw [Nat.add_sub_cancel_left, h k (by omega)]
  case isFalse => rfl

/-- A word that stands at an address is the long there (R64). -/
theorem long_of_holdsAt {v : Word} (h : HoldsAt s a (longBytes v)) : long s a = v.toNat := by
  rw [← beNat_loadBytes_four, ← beNat_beBytes_word v, beBytes_four_word]
  exact congrArg beNat (Memory.loadBytes_eq (longBytes v) a h)

/-- Four bytes that read alike spell the same long. -/
theorem long_congr {t : State} (h : ∀ k, k < 4 → t.mem.get (a + k) = s.mem.get (a + k)) : long t a = long s a := by
  rw [← beNat_loadBytes_four, ← beNat_loadBytes_four, Memory.loadBytes_congr 4 a h]

end Operand

/-- Settles O43: the bytes of the operand stand in memory, so what `jsra` reads after the push is what memory then holds. -/
theorem callAbsoluteResult : Obligations.CallAbsoluteResult := by
  intro s addr hwf hslot hr hop
  obtain ⟨t, ht, hpc, hmem, -, hsp, hret, hframe⟩ := jsra_results hslot hwf hr addr
  have hread : t.pc = BitVec.ofNat 32 (long t (after s.pc 1).toNat) := by
    rw [hpc, operandAfterPush, beBytes_four_word addr, storeBytes_of_holdsAt hwf hr hop, ← hmem, beNat_loadBytes_four]
  refine ⟨t, ht, hsp, hret, by rw [hread, long_toNat], fun hapart => ?apart, hframe⟩
  case apart =>
    obtain ⟨-, -, houtside, -⟩ := hframe
    have hkept : long t (after s.pc 1).toNat = long s (after s.pc 1).toNat :=
      long_congr fun k hk => houtside _ (by omega)
    exact BitVec.eq_of_toNat_eq (by rw [hread, long_toNat, hkept, long_of_holdsAt hop])

section Return

variable {s t u : State} {i : Instr} {ret : Word}

/-- An instruction that ends unlocked raised no fatal fault (R202). -/
theorem not_raisesFatal_of_unlocked (h : exec i s = .next t) (hl : t.isLocked = false) (f : FaultRecord) :
    ¬ RaisesFatal i s f := by
  rintro ⟨-, t', ht', -, hl'⟩
  obtain rfl : t = t' := Host.Outcome.next.inj (h.symm.trans ht')
  simp [hl] at hl'

/-- A `ret` that finds the slot of a call goes to the call's return address and gives the stack pointer back (R189). -/
theorem ret_of_callLeaves (hcall : CallLeaves ret s t) (hsp : u.sp = t.sp)
    (hbytes : ∀ k, k < 4 → u.mem.get (t.sp.toNat + k) = t.mem.get (t.sp.toNat + k)) :
    ∃ v, exec .ret u = .next v ∧ v.pc = ret ∧ v.sp = s.sp := by
  obtain ⟨hslot, htsp, hlong, -⟩ := hcall
  rw [← htsp] at hslot hlong
  obtain ⟨v, hv, hpc, hvsp, -⟩ := returnResult u (hsp ▸ hslot)
  refine ⟨v, hv, BitVec.eq_of_toNat_eq ?_, by rw [hvsp, hsp, htsp, BitVec.sub_add_cancel]⟩
  rw [hpc, hsp, long_congr hbytes, hlong]

/-- A `jsra` that does not lock the machine had its slot and its operand in range (O39). -/
theorem callLeaves_of_jsra {addr : Word} (hwf : s.mem.wf = true) (h : exec (.jsra addr) s = .next t)
    (hl : t.isLocked = false) : CallLeaves (adv (after s.pc 1) 4) s t := by
  have hno := not_raisesFatal_of_unlocked h hl
  obtain ⟨hslotFault, -, hoperandFault, -⟩ := stackAndCallFaults s 0 addr
  have hslot : (s.sp - 4).toNat + 4 ≤ Config.memSize := not_lt.1 fun hs => hno _ (hslotFault hs).2.2
  have hr : OperandReadable s 1 := by_contra fun hr => hno _ (hoperandFault hslot hr)
  obtain ⟨t', ht', -, -, hcall⟩ := jsra_results hslot hwf hr addr
  obtain rfl : t = t' := Host.Outcome.next.inj (h.symm.trans ht')
  exact hcall

/-- A `jsr` that does not lock the machine had its slot and its pointer cell in range (O39). -/
theorem callLeaves_of_jsr {r1 : Reg} (hwf : s.mem.wf = true) (h : exec (.jsr r1) s = .next t)
    (hl : t.isLocked = false) : CallLeaves (after s.pc 2) s t := by
  have hno := not_raisesFatal_of_unlocked h hl
  obtain ⟨hslotFault, hcellFault, -⟩ := stackAndCallFaults s r1 0
  have hslot : (s.sp - 4).toNat + 4 ≤ Config.memSize := not_lt.1 fun hs => hno _ (hslotFault hs).2.1
  have hcell : (s.reg r1).toNat + 4 ≤ Config.memSize := not_lt.1 fun hc => hno _ (hcellFault hslot hc)
  obtain ⟨t', ht', -, hcall⟩ := jsr_results hslot hwf hcell
  obtain rfl : t = t' := Host.Outcome.next.inj (h.symm.trans ht')
  exact hcall

end Return

/-- Settles O45: a call that does not lock the machine left the return address where the `ret` reads it. -/
theorem returnAfterCallComesBack : Obligations.ReturnAfterCallComesBack := by
  intro s t u r1 addr hwf hl hsp hbytes
  refine ⟨fun h => ?jsra, fun h => ?jsr⟩
  case jsra =>
    obtain ⟨v, hv, hpc, hvsp⟩ := ret_of_callLeaves (callLeaves_of_jsra hwf h hl) hsp hbytes
    refine ⟨v, hv, hpc, hvsp, fun hp => ?_⟩
    have hafter : (after s.pc 1).toNat = s.pc.toNat + 1 := after_toNat (by omega)
    rw [hpc, adv_toNat (by omega), hafter]
  case jsr =>
    obtain ⟨v, hv, hpc, hvsp⟩ := ret_of_callLeaves (callLeaves_of_jsr hwf h hl) hsp hbytes
    exact ⟨v, hv, hpc, hvsp, fun hp => by rw [hpc, after_toNat hp]⟩

end Sys2Proof.Machine
end

section
/-! SUPPORT. `rnd` (O47), the pending request and the check that services it (O48 to O51), and what a locked machine ignores (O9). -/

namespace Sys2Proof.Machine

open Sys2Proof.Safety

/-- What is drawn lies in `[0, bound]`, whatever the random port answers (R195). -/
theorem randomDraw_le (n : Nat) (bound : Byte) : (randomDraw n bound).toNat ≤ bound.toNat := by
  rw [randomDraw, BitVec.toNat_ofNat]
  have hlt : n % (bound.toNat + 1) < bound.toNat + 1 := Nat.mod_lt _ (Nat.succ_pos _)
  exact (Nat.mod_le _ _).trans (Nat.le_of_lt_succ hlt)

/-- Settles O47: the draw writes its register and the count of free values. -/
theorem randomDrawIsWithinBound : Obligations.RandomDrawIsWithinBound := by
  intro s r1 bound
  refine ⟨_, rfl, ?_, rfl, rfl, onlyRegs_setReg (onlyRegs_fetchedRR [r1] s) (.head _) _⟩
  rw [State.setReg_reg_self]
  exact randomDraw_le _ bound

section Request

variable {s : State}

/-- What the check of a keyboard request leaves: a machine that waits, or the key in `x[0]` and the machine resumed (R210). -/
theorem intCheck_of_request (hp : s.pending = some keyboardId) (hl : s.isLocked = false) :
    (Config.keyAnswer s.free = none ∧ WaitingForKey (intCheck s) ∧ (intCheck s).reg 0 = s.reg 0) ∨
      (Config.keyAnswer s.free = some ((intCheck s).reg 0) ∧ (intCheck s).running = true ∧
        (intCheck s).pending = none) := by
  cases hk : Config.keyAnswer s.free with
  | none =>
    rw [intCheck_of_noKey hp hk]
    exact .inl ⟨rfl, ⟨rfl, hp, hl⟩, rfl⟩
  | some k =>
    obtain ⟨hreg, hrun, hnone⟩ := intCheck_of_key hp hk
    exact .inr ⟨by rw [hreg], hrun, hnone⟩

/-- With the keyboard's request pending, the check is its service (R210). -/
theorem intCheck_eq_serviceKeyboard (hp : s.pending = some keyboardId) :
    intCheck s = serviceKeyboard (Config.keyAnswer s.free) s.draw := if_pos hp

end Request

/-- Settles O48: the check asks for a key when the keyboard's request is pending and otherwise does nothing. -/
theorem intCheckServicesTheKeyboard : Obligations.IntCheckServicesTheKeyboard := by
  intro s k
  refine ⟨fun hl => if_pos hl, fun hl => if_neg (by simp [hl]), intCheck_of_pending_ne, intCheck_eq_serviceKeyboard,
    rfl, ?_, fun r hr => ?_, rfl⟩
  · exact State.setReg_reg_self s 0 k
  · exact State.setReg_reg_of_ne s k hr

/-- Settles O49: `int` alone fills the slot; the check empties it only over a key for the keyboard; a reset empties it. -/
theorem pendingRequestIsKeptUntilServiced : Obligations.PendingRequestIsKeptUntilServiced := by
  refine ⟨fun s id => ⟨_, exec_int s id, rfl⟩, fun s t i hi h hl => ?kept, fun s => ?check, fun s hp => ?request,
    fun o image b c h => ?reset⟩
  case kept => exact (completes_of_exec h hl).pending.resolve_right (by simpa using hi)
  case check =>
    rcases intCheck_cases s with ⟨-, h⟩ | ⟨hp, hk, h⟩ | ⟨hp, k, hk, -⟩
    · exact .inl (by rw [h])
    · exact .inl (by rw [h, State.setRunning_pending, State.draw_pending])
    · obtain ⟨hreg, -, hnone⟩ := intCheck_of_key hp hk
      exact .inr ⟨hp, hnone, by rw [hreg, hk]⟩
  case request =>
    cases hk : Config.keyAnswer s.free with
    | none =>
      have hs := intCheck_of_noKey hp hk
      have hp' : (intCheck s).pending = some keyboardId := by
        rw [hs, State.setRunning_pending, State.draw_pending, hp]
      refine .inl ⟨rfl, hp', ?_⟩
      rw [intCheck_eq_serviceKeyboard hp', hs, State.setRunning_free, State.draw_free]
    | some k =>
      obtain ⟨hreg, -, hnone⟩ := intCheck_of_key hp hk
      exact .inr ⟨by rw [hreg], hnone⟩
  case reset =>
    have hr : hostReset image b.core = .next c.core := Block.withCore_eq_next h
    unfold hostReset at hr
    split at hr
    · have hc := Host.Outcome.next.inj hr
      rw [← hc, State.afterReset_pending]
    · cases hr

/-- Settles O50: the check after the `int`, and the one check of a frame that finds the machine stopped, service the request. -/
theorem keyboardRequestWaitsForAKey : Obligations.KeyboardRequestWaitsForAKey := by
  refine ⟨fun o s ho hl h => ?_, fun o t budget ⟨hrun, hp, hl⟩ => ?_⟩
  · have hstep : stepWith o s = .next (intCheck { s with pc := after s.pc 2, pending := some keyboardId }) := by
      rw [stepWith, coreStep_of_nextInstr ho hl h, exec_int, thenIntCheck_of_unlocked (by exact hl)]
    exact ⟨_, hstep, intCheck_pc _, fun r => sameRegsBut_intCheck _ r,
      intCheck_of_request (s := { s with pc := after s.pc 2, pending := some keyboardId }) rfl hl⟩
  · exact ⟨_, frameTick_of_stopped hl hrun o budget, intCheck_pc t, sameRegsBut_intCheck t, intCheck_of_request hp hl⟩

/-- A run that has ended, with or without a request outstanding, has no request of the keyboard's (R246). -/
theorem pending_ne_of_ended {s : State} (h : Ended s ∨ EndedWithRequest s) : s.pending ≠ some keyboardId := by
  rcases h with ⟨-, hp, -⟩ | ⟨-, ⟨id, hp, hid⟩, -⟩ <;> rw [hp]
  · exact (Option.some_ne_none _).symm
  · exact fun h => hid (Option.some.inj h)

/-- Settles O51: the loop of the frame makes no turn. -/
theorem stoppedMachineOnlyChecksInterrupts : Obligations.StoppedMachineOnlyChecksInterrupts := by
  intro o s budget hl hrun
  have htick := frameTick_of_stopped hl hrun o budget
  exact ⟨htick, fun hp => by rw [htick, intCheck_of_pending_ne hp], pending_ne_of_ended⟩

/-- Settles O9: a locked machine has no `Step`, and a command that is not a reset is ignored. -/
theorem lockedMachineDoesNothing : Obligations.LockedMachineDoesNothing := by
  intro o b hl
  refine ⟨stepWith_of_locked hl _, stepWith_of_locked hl o, frameTick_of_locked hl o, fun c hc => ?_⟩
  cases c with
  | reset image => exact absurd rfl (hc image)
  | setSpeed | setRunning | step | frameTick | writeMemory => exact Block.unlessLocked_of_locked hl _

end Sys2Proof.Machine
end

section
/-! SUPPORT. The commands of the host: reset (O3, O4), setRunning (O56), setSpeed (O57) and the memory write (O60). -/

namespace Sys2Proof.Machine

open Sys2Proof.Safety

section Reset

variable {image : List Byte}

/-- A reset with an image that fits depends on nothing of the core but the count of free values (R230). -/
theorem hostCommand_reset (h : image.length ≤ Config.memSize) (o : Mnemonic → Byte) (b : Block) :
    hostCommand o (.reset image) b = .next { b with
      core := State.afterReset (Memory.ofImage image) (flagsAfterReset b.core.free) (b.core.free + 1) } := by
  simp [hostCommand, hostReset, h]

theorem hostCommand_reset_of_tooLong (h : Config.memSize < image.length) (o : Mnemonic → Byte) (b : Block) :
    hostCommand o (.reset image) b = .refused .imageTooLong := by
  simp [hostCommand, hostReset, Nat.not_le.2 h, Block.withCore]

end Reset

/-- Settles O3: the image is stored from address 0 into empty memory. -/
theorem resetInstallsImage : Obligations.ResetInstallsImage := by
  intro o image b h
  refine ⟨_, hostCommand_reset h o b, fun i hi => ?_, fun i hi => ?_⟩ <;> rw [State.afterReset_mem, Memory.ofImage]
  · simpa using Memory.get_storeBytes_inside image 0 i Memory.empty_wf (by simpa using h) hi
  · rw [Memory.get_storeBytes_outside image _ 0 i (by omega), Memory.empty_get]

/-- In empty memory every address holds the opcode byte of `nop` (R66, D8). -/
theorem decode_fetchWindow_empty (p : Word) : decode (fetchWindow Memory.empty p) = .ok .nop := by
  rw [fetchWindow_eq, decode, Memory.empty_get]
  exact decodeWith_cons opc_injective .nop _

/-- Settles O4: the core after a reset is `State.afterReset`, whatever it was before. -/
theorem hostResetFromAnyState : Obligations.HostResetFromAnyState := by
  refine fun o image b => ⟨fun h => ?_, fun h => hostCommand_reset_of_tooLong h o b, ?_⟩
  · exact ⟨_, hostCommand_reset h o b, State.afterReset_reg _ _ _, rfl, rfl, rfl, rfl, rfl, rfl, rfl⟩
  · exact ⟨_, hostCommand_reset (Nat.zero_le _) o b, decode_fetchWindow_empty⟩

section Unlocked

variable {b : Block}

theorem hostCommand_setRunning (hl : b.core.isLocked = false) (o : Mnemonic → Byte) (r : Bool) :
    hostCommand o (.setRunning r) b = .next { b with core := b.core.setRunning r } :=
  Block.unlessLocked_of_unlocked hl _

theorem hostCommand_setSpeed (hl : b.core.isLocked = false) (o : Mnemonic → Byte) (v : Nat) :
    hostCommand o (.setSpeed v) b = .next { b with speed := v } :=
  Block.unlessLocked_of_unlocked hl _

theorem hostCommand_frameTick_of_unlocked (hl : b.core.isLocked = false) (o : Mnemonic → Byte) :
    hostCommand o .frameTick b = b.withCore (frameTick o b.cycleBudget b.core) :=
  Block.unlessLocked_of_unlocked hl _

theorem hostCommand_writeMemory (hl : b.core.isLocked = false) (o : Mnemonic → Byte) (a : Nat) (v : Byte) :
    hostCommand o (.writeMemory a v) b = b.withCore (hostWriteMemory a v b.core) :=
  Block.unlessLocked_of_unlocked hl _

end Unlocked

/-- Settles O56: the resumed machine keeps the request, which the check after its next instruction services. -/
theorem setRunningChangesRunningOnly : Obligations.SetRunningChangesRunningOnly := by
  refine fun o b r => ⟨fun hl => hostCommand_setRunning hl o r, fun hl => Block.unlessLocked_of_locked hl _,
    fun hl hp c hc => ?_⟩
  obtain rfl := Host.Outcome.next.inj ((hostCommand_setRunning hl o true).symm.trans hc)
  refine ⟨rfl, hp, fun u hu hul hup => ⟨intCheck u, ?_, ?_⟩⟩
  · rw [stepWith, hu, thenIntCheck_of_unlocked hul]
  · exact (intCheck_of_request hup hul).imp_left fun ⟨hk, ⟨hrun, hwait, _⟩, _⟩ => ⟨hk, hrun, hwait⟩

/-- Settles O57: the budget is a function of SPEED, which no reset writes. -/
theorem setSpeedRecomputesTheBudget : Obligations.SetSpeedRecomputesTheBudget := by
  refine fun o b v => ⟨fun hl => Block.unlessLocked_of_locked hl _, fun hl => ?_⟩
  exact ⟨_, hostCommand_setSpeed hl o v, rfl, rfl, hostCommand_frameTick_of_unlocked (b := { b with speed := v }) hl o,
    fun _ h => ⟨_, hostCommand_reset h o _, rfl⟩⟩

section WriteMemory

variable {s : State} {a : Nat}

theorem hostWriteMemory_of_lt (h : a < Config.memSize) (v : Byte) :
    hostWriteMemory a v s = .next (s.setMem (s.mem.set a v)) := if_pos h

theorem hostWriteMemory_of_memSize_le (h : Config.memSize ≤ a) (v : Byte) :
    hostWriteMemory a v s = .refused .addressOutOfRange := if_neg (Nat.not_lt.2 h)

/-- A byte written is a run of one byte stored. -/
theorem Memory.get_set_eq_storedOver (hwf : s.mem.wf = true) (h : a < Config.memSize) (v : Byte) (x : Nat) :
    (s.mem.set a v).get x = storedOver s a [v] x := Memory.get_storeBytes_eq_storedOver (bytes := [v]) hwf h x

end WriteMemory

/-- Settles O60: the next fetch reads memory with the byte in its place. -/
theorem hostMemoryWriteIsFetched : Obligations.HostMemoryWriteIsFetched := by
  intro o b a v ho hl hwf
  rw [hostCommand_writeMemory hl]
  refine ⟨fun ha => ?_, fun ha => by rw [hostWriteMemory_of_memSize_le ha]; rfl⟩
  have hl' : (b.core.setMem (b.core.mem.set a v)).isLocked = false := by rwa [State.setMem_isLocked]
  have hself : (b.core.mem.set a v).get a = v := Memory.get_set_self hwf ha v
  rw [hostWriteMemory_of_lt ha, Block.withCore_next]
  refine ⟨_, rfl, rfl, Memory.wf_set hwf a v, hself, fun x hx => Memory.get_set_of_ne v hx,
    fun i hp hb => ?fetched, fun hpc hm => ?unknown⟩
  case fetched =>
    have hnext : NextInstr o (b.core.setMem (b.core.mem.set a v)) i :=
      ⟨hp, fun k hk => (Memory.get_set_eq_storedOver hwf ha v _).trans (hb k hk).symm⟩
    rw [stepWith, coreStep_of_nextInstr ho hl' hnext]
  case unknown =>
    subst hpc
    obtain ⟨hstep, -⟩ := unknownOpcodeIsSkipped o _ hl' ha (by rwa [State.setMem_mem, State.setMem_pc, hself])
    exact ⟨_, hstep, by rw [State.setMem_mem, State.setMem_pc, State.setMem_fault, hself]⟩

end Sys2Proof.Machine
end

section
/-! SUPPORT. What a `Step` costs (O55) and the frame that runs over `nop`s (O53). -/

namespace Sys2Proof.Machine

open Sys2Proof.Safety

section Costs

variable {m : Mnemonic}

theorem costOf_eq_rest : costOf m = .rest ↔ m = .halt ∨ m = .int := by
  unfold costOf
  split <;> simp [*]

theorem costOf_of_ne (hh : m ≠ .halt) (hi : m ≠ .int) : costOf m = .cycles 4 := if_neg (by simp [hh, hi])

theorem stepCost_of_unknown {o : Mnemonic → Byte} {s : State} (h : ∀ m, o m ≠ s.mem.get s.pc.toNat) :
    stepCost o s = .cycles 4 := by rw [stepCost, decodeOpcode_eq_none.2 h, Config.cycleCost]

end Costs

/-- Settles O55: the cost is that of the mnemonic the opcode byte decodes to. -/
theorem cycleCosts : Obligations.CycleCosts :=
  ⟨fun _ => costOf_eq_rest, fun _ => costOf_of_ne, fun _ _ _ ho => stepCost_of_opcode ho, fun _ _ => stepCost_of_unknown⟩

section Nops

variable {o : Mnemonic → Byte} {s : State}

/-- The advances over the first byte and over `n` more are `n + 1` advances. -/
theorem after_adv (p : Word) : ∀ n, after (adv p 1) n = after p (n + 1)
  | 0 => rfl
  | n + 1 => congrArg (adv · 1) (after_adv p n)

theorem nextInstr_nop (hp : s.pc.toNat < Config.memSize) (h : s.mem.get s.pc.toNat = o .nop) : NextInstr o s .nop := by
  refine ⟨hp, fun k hk => ?_⟩
  obtain rfl : k = 0 := Nat.lt_one_iff.1 hk
  exact h

/-- On a machine that is not locked and has no keyboard request pending, the check after a `Step` changes nothing (R212). -/
theorem thenIntCheck_of_pending_ne (hl : s.isLocked = false) (hp : s.pending ≠ some keyboardId) :
    thenIntCheck (.next s) = .next s := by rw [thenIntCheck_of_unlocked hl, intCheck_of_pending_ne hp]

/-- With no keyboard request pending, a step over `nop` advances `pc` and changes nothing else (R100, R212). -/
theorem stepWith_nop (ho : Function.Injective o) (hl : s.isLocked = false) (hp : s.pending ≠ some keyboardId)
    (h : NextInstr o s .nop) : stepWith o s = .next (s.setPc (adv s.pc 1)) := by
  rw [stepWith, coreStep_of_nextInstr ho hl h]
  exact thenIntCheck_of_pending_ne (s := s.setPc (adv s.pc 1)) hl hp

/-- A `nop` takes four of what is left, so the loop runs over a quarter of it, rounded up (R235, R236). -/
theorem frameLoop_nops (ho : Function.Injective o) {turns left : Nat} (ht : left ≤ turns) (hl : s.isLocked = false)
    (hr : s.running = true) (hp : s.pending ≠ some keyboardId) (hpc : s.pc.toNat < Config.memSize)
    (hn : ∀ k, k < (left + 3) / 4 → s.mem.get (after s.pc k).toNat = o .nop) :
    frameLoop o turns left s = .next (s.setPc (after s.pc ((left + 3) / 4))) := by
  induction turns generalizing left s with
  | zero =>
    obtain rfl : left = 0 := Nat.le_zero.1 ht
    rfl
  | succ turns ih =>
    cases left with
    | zero => rw [frameLoop_stop (.inr (.inl rfl))]; rfl
    | succ left =>
      have hnop : s.mem.get s.pc.toNat = o .nop := hn 0 (by omega)
      have hstep := stepWith_nop ho hl hp (nextInstr_nop hpc hnop)
      have hleft : leftAfter (left + 1) (stepCost o s) = left + 1 - 4 := by rw [stepCost_of_opcode ho hnop]; rfl
      have hrest : ∀ k, k < (left + 1 - 4 + 3) / 4 → s.mem.get (after (adv s.pc 1) k).toNat = o .nop := fun k hk => by
        rw [after_adv]
        exact hn (k + 1) (by omega)
      have hcount : (left + 1 + 3) / 4 = (left + 1 - 4 + 3) / 4 + 1 := by omega
      rw [frameLoop_turn hr left.succ_pos hl hstep, hleft,
        ih (s := s.setPc (adv s.pc 1)) (by omega) hl hr hp (adv_lt s.pc 1) hrest, State.setPc_pc, after_adv, hcount]
      rfl

end Nops

/-- Settles O53: the loop runs over the `nop`s, and the frame's last check changes nothing. -/
theorem nopFrameRunsCeilingOfQuarterBudget : Obligations.NopFrameRunsCeilingOfQuarterBudget := by
  intro o s budget ho hl hr hp hpc hn
  rw [frameTick, frameLoop_nops ho le_rfl hl hr hp hpc hn]
  exact thenIntCheck_of_pending_ne (s := s.setPc (after s.pc ((budget + 3) / 4))) hl hp

end Sys2Proof.Machine
end

section
/-! SUPPORT. The run of R246 and its fates (O52). -/

namespace Sys2Proof.Machine

open Sys2Proof.Safety

section Run

/-- The block after a frame tick, which always answers one. -/
def Block.tick (o : Mnemonic → Byte) (b : Block) : Block :=
  match hostCommand o .frameTick b with
  | .next c => c
  | .fault _ | .refused _ => b

/-- The block after `k` frame ticks of the run that starts from `b`, once it is set running (R246). -/
def runBlock (o : Mnemonic → Byte) (b : Block) (k : Nat) : Block :=
  (Block.tick o)^[k] { b with core := b.core.setRunning true }

variable {o : Mnemonic → Byte} {b c : Block}

theorem hostCommand_frameTick_eq_tick (o : Mnemonic → Byte) (b : Block) :
    hostCommand o .frameTick b = .next (b.tick o) := by
  obtain ⟨t, -, h⟩ := hostCommand_frameTick o b
  rw [Block.tick, h]

/-- A frame tick whose budget `SPEED` gives changes the core alone. -/
theorem tick_spec (o : Mnemonic → Byte) (b : Block) :
    frameTick o b.cycleBudget b.core = .next (b.tick o).core ∧ (b.tick o).speed = b.speed := by
  obtain ⟨t, ht, h⟩ := hostCommand_frameTick o b
  have htick : b.tick o = { b with core := t } :=
    Host.Outcome.next.inj ((hostCommand_frameTick_eq_tick o b).symm.trans h)
  rw [htick]
  exact ⟨ht, rfl⟩

theorem runBlock_succ (o : Mnemonic → Byte) (b : Block) (k : Nat) : runBlock o b (k + 1) = (runBlock o b k).tick o :=
  Function.iterate_succ_apply' _ _ _

theorem afterTicks_eq_iterate (o : Mnemonic → Byte) (b : Block) : ∀ k, afterTicks o k b = .next ((Block.tick o)^[k] b)
  | 0 => rfl
  | k + 1 => by
    rw [afterTicks, afterTicks_eq_iterate o b k, Function.iterate_succ_apply']
    exact hostCommand_frameTick_eq_tick o _

theorem runBlock_speed (o : Mnemonic → Byte) (b : Block) : ∀ k, (runBlock o b k).speed = b.speed
  | 0 => rfl
  | k + 1 => by rw [runBlock_succ, (tick_spec o _).2, runBlock_speed o b k]

/-- A block right after reset is not locked, and its pc is 0 (R230, R233). -/
theorem core_of_postReset (hb : PostReset o b) : b.core.isLocked = false ∧ b.core.pc = 0 := by
  obtain ⟨image, before, h⟩ := hb
  obtain ⟨hfits, htooLong, -⟩ := hostResetFromAnyState o image before
  rcases le_or_gt image.length Config.memSize with hle | hgt
  · obtain ⟨c, hc, -, hpc, -, -, -, -, hl, -⟩ := hfits hle
    obtain rfl := Host.Outcome.next.inj (h.symm.trans hc)
    exact ⟨hl, hpc⟩
  · simp [htooLong hgt] at h

/-- The run from a block right after reset has one block after every number of ticks (R246). -/
theorem runAt_iff (hb : PostReset o b) {k : Nat} : RunAt o b k c ↔ c = runBlock o b k := by
  have hset := hostCommand_setRunning (core_of_postReset hb).1 o true
  have hticks := afterTicks_eq_iterate o { b with core := b.core.setRunning true } k
  constructor
  · rintro ⟨-, d, hd, hc⟩
    obtain rfl := Host.Outcome.next.inj (hset.symm.trans hd)
    exact Host.Outcome.next.inj (hc.symm.trans hticks)
  · rintro rfl
    exact ⟨hb, _, hset, hticks⟩

end Run

section Fates

/-- The fate that a state of a run points to: for good if it is locked or stopped with no request of the keyboard's
pending, and as long as the state lasts if it runs or waits (R246, R247). -/
def State.fate (s : State) : Fate :=
  if s.isLocked then .locks
  else if s.running then .runsForEver
  else if s.pending = some keyboardId then .waitsForEver
  else if s.fault = none then .ends
  else .stopsWithUnknownOpcode

variable {s : State}

theorem fate_eq_locks : s.fate = .locks ↔ s.isLocked = true := by
  unfold State.fate
  split_ifs <;> simp_all

theorem fate_eq_runsForEver : s.fate = .runsForEver ↔ s.running = true ∧ s.isLocked = false := by
  unfold State.fate
  split_ifs <;> simp_all

theorem fate_eq_waitsForEver : s.fate = .waitsForEver ↔ WaitingForKey s := by
  unfold State.fate WaitingForKey
  split_ifs <;> simp_all

/-- The two ends of R246 differ in whether a request is outstanding that is not the keyboard's. -/
theorem ended_iff : Ended s ∨ EndedWithRequest s ↔
    s.running = false ∧ s.pending ≠ some keyboardId ∧ s.fault = none ∧ s.isLocked = false := by
  unfold Ended EndedWithRequest
  cases s.pending <;> simp

theorem fate_eq_ends : s.fate = .ends ↔ Ended s ∨ EndedWithRequest s := by
  rw [ended_iff]
  unfold State.fate
  split_ifs <;> simp_all

/-- A record in the latch of a machine that is not locked is `UnknownOpcode`, the one fault that is not fatal (R203). -/
theorem fault_ne_none_iff (hl : s.isLocked = false) :
    s.fault ≠ none ↔ ∃ op a, s.fault = some (.unknownOpcode op a) := by
  cases hf : s.fault with
  | none => simp
  | some f =>
    cases f with
    | unknownOpcode op a => simp
    | memoryFault | invalidRegister | divideByZero => simp [State.isLocked, hf, FaultRecord.isFatal] at hl

theorem fate_eq_stopsWithUnknownOpcode : s.fate = .stopsWithUnknownOpcode ↔
    s.running = false ∧ s.pending ≠ some keyboardId ∧ (∃ op a, s.fault = some (.unknownOpcode op a)) ∧
      s.isLocked = false := by
  cases hl : s.isLocked with
  | true => simp [State.fate, hl]
  | false =>
    rw [← fault_ne_none_iff hl]
    unfold State.fate
    split_ifs <;> simp_all

/-- A frame tick changes nothing where the state neither runs nor waits for a key (R202, R235). -/
theorem frameTick_of_settled (hr : s.fate ≠ .runsForEver) (hw : s.fate ≠ .waitsForEver) (o : Mnemonic → Byte)
    (budget : Nat) : frameTick o budget s = .next s := by
  cases hl : s.isLocked with
  | true => exact frameTick_of_locked hl o budget
  | false =>
    have hrun : s.running = false := by simpa [fate_eq_runsForEver, hl] using hr
    have hp : s.pending ≠ some keyboardId := by simpa [fate_eq_waitsForEver, WaitingForKey, hl, hrun] using hw
    exact (stoppedMachineOnlyChecksInterrupts o s budget hl hrun).2.1 hp

end Fates

section RunFate

open Filter

/-- The fate that the state after `k` ticks of a run points to. -/
def fateAt (o : Mnemonic → Byte) (b : Block) (k : Nat) : Fate := (runBlock o b k).core.fate

variable {o : Mnemonic → Byte} {b : Block} {f g : Fate} {j k : Nat}

/-- A run that neither runs nor waits stays as it is (R246). -/
theorem runBlock_of_settled (hr : fateAt o b k ≠ .runsForEver) (hw : fateAt o b k ≠ .waitsForEver) (hj : k ≤ j) :
    runBlock o b j = runBlock o b k := by
  induction j, hj using Nat.le_induction with
  | base => rfl
  | succ j _ ih =>
    obtain ⟨htick, hspeed⟩ := tick_spec o (runBlock o b k)
    have hcore := Host.Outcome.next.inj ((frameTick_of_settled hr hw o _).symm.trans htick)
    rw [runBlock_succ, ih]
    exact congrArg₂ Block.mk hcore.symm hspeed

theorem fateAt_eventually_of_settled (hr : fateAt o b k ≠ .runsForEver) (hw : fateAt o b k ≠ .waitsForEver) :
    ∀ᶠ j in atTop, fateAt o b j = fateAt o b k :=
  eventually_atTop.2 ⟨k, fun _ hj => congrArg (·.core.fate) (runBlock_of_settled hr hw hj)⟩

/-- A run runs for ever when it runs again and again. -/
theorem hasFate_runsForEver_iff (hb : PostReset o b) :
    HasFate o b .runsForEver ↔ ∃ᶠ k in atTop, fateAt o b k = .runsForEver := by
  simp only [HasFate, runAt_iff hb, frequently_atTop, fateAt, fate_eq_runsForEver]
  exact forall_congr' fun k => exists_congr fun j => by
    constructor
    · rintro ⟨c, hj, rfl, h⟩
      exact ⟨hj, h⟩
    · exact fun ⟨hj, h⟩ => ⟨_, hj, rfl, h⟩

theorem hasFate_waitsForEver_iff (hb : PostReset o b) :
    HasFate o b .waitsForEver ↔ ∀ᶠ k in atTop, fateAt o b k = .waitsForEver := by
  simp [HasFate, runAt_iff hb, eventually_atTop, fateAt, fate_eq_waitsForEver]

/-- A run has one of the other fates when one of its states points to it, and for good. -/
theorem hasFate_settled_iff (hb : PostReset o b) (hr : f ≠ .runsForEver) (hw : f ≠ .waitsForEver) :
    HasFate o b f ↔ ∃ k, fateAt o b k = f := by
  cases f with
  | runsForEver => exact absurd rfl hr
  | waitsForEver => exact absurd rfl hw
  | ends => simp [HasFate, runAt_iff hb, fateAt, fate_eq_ends]
  | locks => simp [HasFate, runAt_iff hb, fateAt, fate_eq_locks]
  | stopsWithUnknownOpcode => simp [HasFate, runAt_iff hb, fateAt, fate_eq_stopsWithUnknownOpcode]

/-- A run has a fate other than running for ever exactly when from some tick on every state points to it. -/
theorem hasFate_iff_eventually (hb : PostReset o b) (hr : f ≠ .runsForEver) :
    HasFate o b f ↔ ∀ᶠ k in atTop, fateAt o b k = f := by
  by_cases hw : f = .waitsForEver
  · rw [hw, hasFate_waitsForEver_iff hb]
  · rw [hasFate_settled_iff hb hr hw]
    exact ⟨fun ⟨_, hk⟩ => hk ▸ fateAt_eventually_of_settled (hk ▸ hr) (hk ▸ hw), Eventually.exists⟩

theorem frequently_of_hasFate (hb : PostReset o b) (h : HasFate o b f) : ∃ᶠ k in atTop, fateAt o b k = f := by
  by_cases hr : f = .runsForEver
  · rw [hr] at h ⊢
    exact (hasFate_runsForEver_iff hb).1 h
  · exact ((hasFate_iff_eventually hb hr).1 h).frequently

/-- A fate that the run comes back to again and again is the one it ends up with for good. -/
theorem fate_eq_of_hasFate (hb : PostReset o b) (hf : HasFate o b f) (hg : HasFate o b g) (hr : g ≠ .runsForEver) :
    f = g := by
  obtain ⟨k, hkf, hkg⟩ := ((frequently_of_hasFate hb hf).and_eventually ((hasFate_iff_eventually hb hr).1 hg)).exists
  exact hkf.symm.trans hkg

theorem hasFate_unique (hb : PostReset o b) (hf : HasFate o b f) (hg : HasFate o b g) : f = g := by
  by_cases hr : g = .runsForEver
  · by_cases hr' : f = .runsForEver
    · rw [hr, hr']
    · exact (fate_eq_of_hasFate hb hg hf hr').symm
  · exact fate_eq_of_hasFate hb hf hg hr

/-- A run that does not run again and again is stopped from some tick on; from there it waits, or it has come to a state that
stays. -/
theorem exists_hasFate (hb : PostReset o b) : ∃ f, HasFate o b f := by
  by_cases hrun : ∃ᶠ k in atTop, fateAt o b k = .runsForEver
  · exact ⟨_, (hasFate_runsForEver_iff hb).2 hrun⟩
  · obtain ⟨k, hk⟩ := eventually_atTop.1 (not_frequently.1 hrun)
    by_cases hwait : ∀ j, k ≤ j → fateAt o b j = .waitsForEver
    · exact ⟨_, (hasFate_waitsForEver_iff hb).2 (eventually_atTop.2 ⟨k, hwait⟩)⟩
    · push Not at hwait
      obtain ⟨j, hj, hw⟩ := hwait
      exact ⟨_, (hasFate_settled_iff hb (hk j hj) hw).2 ⟨j, rfl⟩⟩

end RunFate

section Halt

variable {o : Mnemonic → Byte} {s t : State}

/-- A check that leaves the machine stopped with no request of the keyboard's pending changed nothing. -/
theorem intCheckUnlessLocked_of_stopped (hrun : (intCheckUnlessLocked s).running = false)
    (hp : (intCheckUnlessLocked s).pending ≠ some keyboardId) : intCheckUnlessLocked s = s := by
  rcases intCheckUnlessLocked_cases s with ⟨-, h⟩ | ⟨-, h⟩
  · exact h
  · rw [h] at hrun hp ⊢
    rcases intCheck_cases s with ⟨-, h⟩ | ⟨hreq, -, h⟩ | ⟨-, k, -, h⟩
    · exact h
    · exact absurd hreq (by simpa [h] using hp)
    · simp [h] at hrun

/-- Only `halt` stops a running machine with no request of the keyboard's pending, and pc is then past it (R30, R101). -/
theorem halt_of_stepWith (hs : s.running = true) (h : stepWith o s = .next t) (hrun : t.running = false)
    (hp : t.pending ≠ some keyboardId) (hl : t.isLocked = false) : fetch o s = .ok .halt ∧ t.pc = adv s.pc 1 := by
  obtain ⟨hsl, u, hu, rfl⟩ := stepWith_next h
  have hskip := intCheckUnlessLocked_of_stopped hrun hp
  rw [hskip] at hrun hl ⊢
  cases hf : fetch o s with
  | ok i =>
    rw [coreStep_of_fetch hsl hf] at hu
    rcases (completes_of_exec hu hl).running with hr | rfl
    · simp [hr, hs] at hrun
    · rw [exec_halt] at hu
      exact ⟨rfl, by rw [← Host.Outcome.next.inj hu]; rfl⟩
  | error e =>
    rw [coreStep_of_error hsl hf] at hu
    obtain rfl := Host.Outcome.next.inj hu
    rcases fetch_error hf with ⟨f, hfatal, rfl⟩ | ⟨op, rfl⟩
    · simp [State.raise_isLocked hfatal] at hl
    · simp [hs] at hrun

/-- `x` is reached from `s` by steps, and if it is stopped, the last of them was made by a machine that runs. -/
def ReachedRunning (o : Mnemonic → Byte) (s x : State) : Prop :=
  Reaches o s x ∧ (x.running = false → ∃ u, Reaches o s u ∧ u.running = true ∧ stepWith o u = .next x)

/-- The loop of a frame makes its steps while the machine runs (R235). -/
theorem frameLoop_reachedRunning (hs : s.running = true) (turns left : Nat) :
    ∃ t, frameLoop o turns left s = .next t ∧ ReachedRunning o s t :=
  frameLoop_induction (P := ReachedRunning o s)
    (fun u _ ⟨hu, _⟩ hrun hx => ⟨hu.tail hx, fun _ => ⟨u, hu, hrun, hx⟩⟩) turns left s
    ⟨.refl, fun hr => by simp [hs] at hr⟩

/-- A frame that takes a running machine to an end has run a `halt` last. -/
theorem exists_halt_of_ended {budget : Nat} (hs : s.running = true) (h : frameTick o budget s = .next t)
    (ht : Ended t ∨ EndedWithRequest t) : ∃ u, Reaches o s u ∧ fetch o u = .ok .halt ∧ t.pc = adv u.pc 1 := by
  obtain ⟨hrun, hp, -, hl⟩ := ended_iff.1 ht
  obtain ⟨v, hv, -, hlast⟩ := frameLoop_reachedRunning (o := o) hs budget budget
  rw [frameTick, hv] at h
  obtain rfl := Host.Outcome.next.inj h
  have hskip := intCheckUnlessLocked_of_stopped hrun hp
  rw [hskip] at hrun hp hl ⊢
  obtain ⟨u, hu, hur, hstep⟩ := hlast hrun
  exact ⟨u, hu, halt_of_stepWith hur hstep hrun hp hl⟩

end Halt

/-- Settles O52: a fate is what the states of the run point to again and again, and all but running for ever what they
point to for good. -/
theorem runHasOneFate : Obligations.RunHasOneFate := by
  refine ⟨fun o b hb => ⟨fun k => ⟨_, (runAt_iff hb).2 rfl, runBlock_speed o b k, ?first⟩,
    fun k c hc hend j hj => ?stays, ?fate⟩, fun _ _ _ _ => exists_halt_of_ended⟩
  case first =>
    rintro rfl
    exact ⟨rfl, (core_of_postReset hb).2⟩
  case stays =>
    obtain rfl := (runAt_iff hb).1 hc
    rw [← or_assoc, ← fate_eq_ends, ← fate_eq_locks] at hend
    have hr : fateAt o b k ≠ .runsForEver := by rcases hend with h | h <;> simp [fateAt, h]
    have hw : fateAt o b k ≠ .waitsForEver := by rcases hend with h | h <;> simp [fateAt, h]
    exact (runAt_iff hb).2 (runBlock_of_settled hr hw hj).symm
  case fate =>
    obtain ⟨f, hf⟩ := exists_hasFate hb
    exact ⟨f, hf, fun g hg => hasFate_unique hb hg hf⟩

end Sys2Proof.Machine
end
